-- ==== Sys2Proof/Word.lean ====
section
/-!
DEFINITION. The word types of the engine (spec/00_scope.md R10, R11) and the value of one color-table entry
(spec/10_state.md R45). A register of width n is a `BitVec n`; the rules compute on non-negative integers and a
write stores the value modulo 2^n (R11), which is what `BitVec.ofNat n` does.
-/
namespace Sys2Proof

/-- A byte of the stream, of INBUF or of OUTBUF (R11). -/
abbrev Byte := BitVec 8

/-- A host register (R10). -/
abbrev Word := BitVec 32

/-- One entry of a color table: three 8-bit fields (R45, R103). -/
structure Rgb where
  r : Byte
  g : Byte
  b : Byte
  deriving DecidableEq, Repr

/-- Black, which R291 gives an index outside the table. -/
abbrev Rgb.black : Rgb := ⟨0, 0, 0⟩

end Sys2Proof
end

