-- ==== Sys2Proof/Config.lean ====
section
/-!
DEFINITION. What is fixed for one engine: the open parameters of spec/00_scope.md R9, the constants of R8, the names of
the values of ST, and the free values (spec/93_implementation_defined.md §2, 'any value').
-/
namespace Sys2Proof

/-- The open parameters of R9. `State` carries one value of this type, which no step changes, so that a statement
about every state is a statement about every parameter value. -/
structure Config where
  /-- IN_CAP: bytes of INBUF. -/
  inCap : Nat
  /-- OUT_CAP: bytes of OUTBUF. -/
  outCap : Nat
  /-- MAX_FRAMES: frame records the engine can hold. -/
  maxFrames : Nat
  deriving DecidableEq, Repr

/-- The constraints R9 puts on the parameters. -/
abbrev Config.ok (c : Config) : Prop :=
  (13 ≤ c.inCap ∧ c.inCap ≤ 2 ^ 32 - 1) ∧ c.outCap ≤ 2 ^ 32 ∧ (1 ≤ c.maxFrames ∧ c.maxFrames ≤ 2 ^ 32 - 1)

/-- The parameter values spec/95_test_vectors.md §1 assumes. R9 fixes none (DESIGN CHOICE, log entry 1). -/
def Config.vectors : Config := { inCap := 65536, outCap := 4194304, maxFrames := 16 }

/-- MAX_STACK_SIZE (R8): dictionary entries and pixel-stack capacity. -/
abbrev Config.maxStackSize : Nat := 4096

/-- The interlace schedule's starting rows, indexed by PASS (spec/46_pixel_output.md R295). -/
abbrev Config.interlaceStart : List Nat := [0, 4, 2, 1]

/-- The interlace schedule's strides, indexed by PASS (R295). -/
abbrev Config.interlaceStride : List Nat := [8, 8, 4, 2]

/-- The values of the engine's state register ST (spec/10_state.md R36). -/
inductive EngineState where
  | idle | ident | hdr | tag | ext | img | lzw | drain | commit | finish
  deriving DecidableEq, Repr

/-- What has contents that R48 and spec/70_reset_and_hazards.md R442 leave unspecified after reset. -/
inductive Store where
  | inbuf | outbuf | prefixTab | suffixTab | stack | gct | lct | ft
  deriving DecidableEq, Repr

/-- What a byte or entry holds after the n-th reset until something writes it: by store, n and index (R48, R442: a model
draws it). No value is chosen; a narrower entry is the low bits (log entries 3 and 4). -/
opaque Config.freeContents : Store → Nat → Nat → BitVec 96

/-- A 32-bit value the spec leaves unspecified: what a host reads of a result register while BUSY
(spec/10_state.md R34). No value is chosen (log entry 5). -/
opaque Config.freeWord : Nat → BitVec 32

/-- A byte the spec leaves unspecified: what a host reads of OUTBUF while BUSY (spec/20_memory.md R80). -/
opaque Config.freeByte : Nat → BitVec 8

end Sys2Proof
end

