-- ==== Sys2Proof/Syntax.lean ====
section
/-!
DEFINITION. The instructions: one constructor per row of spec/opcode_table.json. A row of format CMD is a host write to CMD, one
of SIG, TAG, EXT, SUB or LZWS an item of the stream, one of CODE an LZW code with its class, one of STEP an engine
step (spec/30_encoding.md R100 to R118, spec/10_state.md R36).
-/
namespace Sys2Proof

inductive Instr where
  -- format CMD (R113)
  | cmdNone
  | identify
  | decode
  | illegalCmd (op : Word)
  -- format SIG (R114)
  | sigGif87
  | sigGif89
  | sigInvalid
  | hdrShort
  -- format TAG (R115)
  | endOfBuffer
  | extTag
  | imageTag
  | trailer
  | noise (tag : Byte)
  -- format EXT (R116)
  | gce
  | otherExt (label : Byte)
  -- format SUB (R117)
  | subEnd
  | subData (len : Byte)
  -- format LZWS (R109, R112)
  | dataSizeOk (d : Byte)
  | dataSizeBad (d : Byte)
  -- format CODE (R118)
  | invalid (code : BitVec 12)
  | eoi (code : BitVec 12)
  | clear (code : BitVec 12)
  | first (code : BitVec 12)
  | firstBad (code : BitVec 12)
  | full (code : BitVec 12)
  | kwkwk (code : BitVec 12)
  | dict (code : BitVec 12)
  -- format STEP (R36, R240)
  | ident
  | hdr
  | tag
  | img
  | lzwComplete
  | fetchLen
  | fetchByte
  | decodeCode
  | emit
  | drain
  | commit
  | finish
  deriving DecidableEq, Repr

end Sys2Proof
end

