-- ==== Sys2Proof/WellFormed.lean ====
section
/-!
DEFINITION. When an instruction is well formed: on its own (`Instr.wf`, the operand conditions of
spec/opcode_table.json), and at a place where it is decoded (`Instr.fits`). Most items are one byte, and the same byte
is a tag, a label, a length or a data size according to where the engine meets it (spec/30_encoding.md §3), so decoding
and encoding take that place, a `Context`.
-/
namespace Sys2Proof

/-- The operand conditions of the table's rows, whatever the place. -/
def Instr.wf : Instr → Bool
  | .illegalCmd op => decide (3 ≤ op.toNat)
  | .noise t => decide (t ≠ 0x21 ∧ t ≠ 0x2C ∧ t ≠ 0x3B)
  | .otherExt l => decide (l ≠ 0xF9)
  | .subData l => decide (l ≠ 0)
  | .dataSizeOk d => decide (2 ≤ d.toNat ∧ d.toNat ≤ 8)
  | .dataSizeBad d => decide (d.toNat < 2 ∨ 8 < d.toNat)
  | _ => true

/-- The registers an LZW code is classified against (R118, R260). -/
structure CodeRegs where
  codeSize : BitVec 4
  codeMask : BitVec 12
  clear    : BitVec 9
  eoi      : BitVec 9
  avail    : BitVec 13
  oldValid : Bool
  deriving DecidableEq, Repr

/-- What the choice of the next engine step depends on (spec/10_state.md R36, spec/44_bit_unpacker.md R240). -/
structure EngineView where
  st         : EngineState
  /-- PIX = IMG_TOTAL. -/
  imageDone  : Bool
  /-- SP = 0. -/
  stackEmpty : Bool
  /-- BITS < CODE_SIZE. -/
  bitsShort  : Bool
  /-- COUNT = 0. -/
  countZero  : Bool
  /-- EXT_LABEL. -/
  label      : Byte
  deriving DecidableEq, Repr

/-- The place where an item is decoded. -/
inductive Context where
  /-- the value of a host write to CMD -/
  | cmd
  /-- the signature check of IDENTIFY (R145) -/
  | ident
  /-- the first 13 bytes of INBUF, as HDR looks at them (R160) -/
  | hdr
  /-- a block boundary (R115) -/
  | tag
  /-- the label of an extension (R116) -/
  | ext
  /-- a sub-block's length byte (R117) -/
  | sub
  /-- the first byte of a code stream (R109) -/
  | lzws
  /-- an LZW code, against these registers (R118) -/
  | code (r : CodeRegs)
  /-- the engine's choice of its next step, which has no bytes (R36, R240) -/
  | engine (v : EngineView)
  deriving DecidableEq, Repr

/-- The class conditions of R118, 'tried in this order', for a code that CODE_MASK keeps whole. -/
def Instr.fitsCode (r : CodeRegs) : Instr → Bool
  | .invalid c => inRange c && decide (r.avail.toNat < c.toNat)
  | .eoi c => inRange c && decide (c.toNat ≤ r.avail.toNat ∧ c.toNat = r.eoi.toNat)
  | .clear c => inRange c && decide (c.toNat ≤ r.avail.toNat ∧ c.toNat ≠ r.eoi.toNat ∧ c.toNat = r.clear.toNat)
  | .first c => plain c && !r.oldValid && decide (c.toNat < r.clear.toNat)
  | .firstBad c => plain c && !r.oldValid && decide (r.clear.toNat ≤ c.toNat)
  | .full c => plain c && r.oldValid && decide (r.avail.toNat = 4096)
  | .kwkwk c => plain c && r.oldValid && decide (c.toNat = r.avail.toNat ∧ r.avail.toNat < 4096)
  | .dict c => plain c && r.oldValid && decide (c.toNat < r.avail.toNat ∧ r.avail.toNat < 4096)
  | _ => false
where
  inRange (c : BitVec 12) : Bool := decide (c &&& r.codeMask = c)
  plain (c : BitVec 12) : Bool :=
    inRange c && decide (c.toNat ≤ r.avail.toNat ∧ c.toNat ≠ r.eoi.toNat ∧ c.toNat ≠ r.clear.toNat)

/-- The conditions of the table's STEP rows, and of the two rows that ST = EXT selects between (R36, R187, R188). -/
def Instr.fitsEngine (v : EngineView) : Instr → Bool
  | .ident => decide (v.st = .ident)
  | .hdr => decide (v.st = .hdr)
  | .tag => decide (v.st = .tag)
  | .gce => decide (v.st = .ext ∧ v.label = 0xF9)
  | .otherExt l => decide (v.st = .ext ∧ v.label = l)
  | .img => decide (v.st = .img)
  | .lzwComplete => decide (v.st = .lzw ∧ v.imageDone = true)
  | .emit => decide (v.st = .lzw ∧ v.imageDone = false ∧ v.stackEmpty = false)
  | .fetchLen =>
    decide (v.st = .lzw ∧ v.imageDone = false ∧ v.stackEmpty = true ∧ v.bitsShort = true ∧ v.countZero = true)
  | .fetchByte =>
    decide (v.st = .lzw ∧ v.imageDone = false ∧ v.stackEmpty = true ∧ v.bitsShort = true ∧ v.countZero = false)
  | .decodeCode => decide (v.st = .lzw ∧ v.imageDone = false ∧ v.stackEmpty = true ∧ v.bitsShort = false)
  | .drain => decide (v.st = .drain)
  | .commit => decide (v.st = .commit)
  | .finish => decide (v.st = .finish)
  | _ => false

/-- The rows of format CMD. -/
def Instr.isCmd : Instr → Bool
  | .cmdNone | .identify | .decode | .illegalCmd _ => true
  | _ => false

/-- The rows that IDENT tells apart (R145). -/
def Instr.isIdentSig : Instr → Bool
  | .sigGif87 | .sigGif89 | .sigInvalid => true
  | _ => false

/-- The rows of format SIG, which HDR tells apart (R160). -/
def Instr.isSig : Instr → Bool
  | .sigGif87 | .sigGif89 | .sigInvalid | .hdrShort => true
  | _ => false

/-- The rows of format TAG. -/
def Instr.isTag : Instr → Bool
  | .endOfBuffer | .extTag | .imageTag | .trailer | .noise _ => true
  | _ => false

/-- The rows of format EXT. -/
def Instr.isExt : Instr → Bool
  | .gce | .otherExt _ => true
  | _ => false

/-- The rows of format SUB. -/
def Instr.isSub : Instr → Bool
  | .subEnd | .subData _ => true
  | _ => false

/-- The rows of format LZWS. -/
def Instr.isDataSize : Instr → Bool
  | .dataSizeOk _ | .dataSizeBad _ => true
  | _ => false

/-- The rows of the format that a place reads. -/
def Instr.fitsFormat (c : Context) (i : Instr) : Bool :=
  match c with
  | .cmd => i.isCmd
  | .ident => i.isIdentSig
  | .hdr => i.isSig
  | .tag => i.isTag
  | .ext => i.isExt
  | .sub => i.isSub
  | .lzws => i.isDataSize
  | .code r => i.fitsCode r
  | .engine v => i.fitsEngine v

/-- The instruction is well formed and can stand at this place. -/
def Instr.fits (c : Context) (i : Instr) : Bool := i.wf && i.fitsFormat c

end Sys2Proof
end

