-- ==== Sys2Proof/Decode.lean ====
section
/-!
DEFINITION. Decoding and encoding (spec/30_encoding.md), and the stream notation of R122 and R123. Decoding is total: any bytes at any
place give an instruction or a named rejection. A command word is laid out least significant byte first, a code in the
low CODE_SIZE bits of two bytes, least significant byte first; every other item is its own byte or bytes.
-/
namespace Sys2Proof

/-- Why bytes are no instruction at a place. -/
inductive Reject where
  /-- the item's bytes are not all there: the read that a rule then raises TruncatedStream for -/
  | tooFewBytes
  /-- fewer bits than CODE_SIZE: the engine fetches instead (R240) -/
  | tooFewBits
  /-- ST = IDLE: the engine has no step (spec/10_state.md R36) -/
  | noStep
  deriving DecidableEq, Repr

/-- The number that a list of bytes spells, least significant byte first (spec/20_memory.md R74). -/
def natOfBytes : List Byte → Nat
  | [] => 0
  | b :: bs => b.toNat + 256 * natOfBytes bs

/-- The low n bytes of a number, least significant byte first. -/
def bytesOfNat : Nat → Nat → List Byte
  | 0, _ => []
  | n + 1, v => BitVec.ofNat 8 v :: bytesOfNat n (v / 256)

/-- ASCII `GIF87` (R101). -/
def gif87Bytes : List Byte := [0x47, 0x49, 0x46, 0x38, 0x37]

/-- ASCII `GIF89` (R101). -/
def gif89Bytes : List Byte := [0x47, 0x49, 0x46, 0x38, 0x39]

/-- The command word (R113). -/
def decodeCmd (v : Word) : Instr :=
  if v = 0 then .cmdNone else if v = 1 then .identify else if v = 2 then .decode else .illegalCmd v

/-- The signature, from the first bytes of the stream; fewer than 5 are no signature (R114). -/
def decodeSig (bs : List Byte) : Instr :=
  if bs.take 5 = gif87Bytes then .sigGif87 else if bs.take 5 = gif89Bytes then .sigGif89 else .sigInvalid

/-- A tag byte (R115). -/
def decodeTag (t : Byte) : Instr :=
  if t = 0x21 then .extTag else if t = 0x2C then .imageTag else if t = 0x3B then .trailer else .noise t

/-- An extension label (R116). -/
def decodeLabel (l : Byte) : Instr := if l = 0xF9 then .gce else .otherExt l

/-- A sub-block's length byte (R117). -/
def decodeSub (l : Byte) : Instr := if l = 0 then .subEnd else .subData l

/-- A code stream's first byte (R112, R218). -/
def decodeDataSize (d : Byte) : Instr :=
  if d.toNat < 2 ∨ 8 < d.toNat then .dataSizeBad d else .dataSizeOk d

/-- The class of a code, in the order of R260. -/
def classify (r : CodeRegs) (c : BitVec 12) : Instr :=
  if r.avail.toNat < c.toNat then .invalid c
  else if c.toNat = r.eoi.toNat then .eoi c
  else if c.toNat = r.clear.toNat then .clear c
  else if r.oldValid = false then (if c.toNat < r.clear.toNat then .first c else .firstBad c)
  else if r.avail.toNat = 4096 then .full c
  else if c.toNat = r.avail.toNat then .kwkwk c
  else .dict c

/-- The engine's next step (spec/10_state.md R36, spec/44_bit_unpacker.md R240). -/
def selectStep (v : EngineView) : Except Reject Instr :=
  match v.st with
  | .idle => .error .noStep
  | .ident => .ok .ident
  | .hdr => .ok .hdr
  | .tag => .ok .tag
  | .ext => .ok (decodeLabel v.label)
  | .img => .ok .img
  | .lzw =>
    .ok (if v.imageDone then .lzwComplete
      else if v.stackEmpty = false then .emit
      else if v.bitsShort then (if v.countZero then .fetchLen else .fetchByte)
      else .decodeCode)
  | .drain => .ok .drain
  | .commit => .ok .commit
  | .finish => .ok .finish

/-- A command word's bytes, least significant first. -/
def decodeCmdBytes : List Byte → Except Reject Instr
  | b0 :: b1 :: b2 :: b3 :: _ => .ok (decodeCmd (BitVec.ofNat 32 (natOfBytes [b0, b1, b2, b3])))
  | _ => .error .tooFewBytes

/-- The stream's first bytes as HDR looks at them: the signature, then whether 13 bytes are there (R160). -/
def decodeHeader (bs : List Byte) : Instr :=
  match decodeSig bs with
  | .sigInvalid => .sigInvalid
  | i => if bs.length < 13 then .hdrShort else i

/-- A block boundary: the end of the buffer, or a tag (R115). -/
def decodeBoundary : List Byte → Instr
  | [] => .endOfBuffer
  | t :: _ => decodeTag t

/-- An item of one byte. -/
def decodeByte (f : Byte → Instr) : List Byte → Except Reject Instr
  | [] => .error .tooFewBytes
  | b :: _ => .ok (f b)

/-- The low CODE_SIZE bits (R110, R112), once they are all there (R240). -/
def decodeCodeBits (r : CodeRegs) (bs : List Byte) : Except Reject Instr :=
  if 8 * bs.length < r.codeSize.toNat then .error .tooFewBits
  else .ok (classify r (BitVec.ofNat 12 (natOfBytes bs) &&& r.codeMask))

/-- The instruction the given bytes begin with, at a place. -/
def decode (c : Context) (bs : List Byte) : Except Reject Instr :=
  match c with
  | .cmd => decodeCmdBytes bs
  | .ident => .ok (decodeSig bs)
  | .hdr => .ok (decodeHeader bs)
  | .tag => .ok (decodeBoundary bs)
  | .ext => decodeByte decodeLabel bs
  | .sub => decodeByte decodeSub bs
  | .lzws => decodeByte decodeDataSize bs
  | .code r => decodeCodeBits r bs
  | .engine v => selectStep v

/-- The bytes of a code: two, least significant first. -/
def codeBytes (c : BitVec 12) : List Byte := bytesOfNat 2 c.toNat

/-- The bytes of an instruction at a place. A header is written with a zero version byte and screen descriptor, whose
bits no row of the table numbers; END_OF_BUFFER, SIG_INVALID and the engine's steps have no bytes (log entry
13). -/
def encode (c : Context) : Instr → List Byte
  | .cmdNone => bytesOfNat 4 0
  | .identify => bytesOfNat 4 1
  | .decode => bytesOfNat 4 2
  | .illegalCmd op => bytesOfNat 4 op.toNat
  | .sigGif87 => gif87Bytes ++ descriptor
  | .sigGif89 => gif89Bytes ++ descriptor
  | .sigInvalid => []
  | .hdrShort => gif87Bytes
  | .endOfBuffer => []
  | .extTag => [0x21]
  | .imageTag => [0x2C]
  | .trailer => [0x3B]
  | .noise t => [t]
  | .gce => [0xF9]
  | .otherExt l => [l]
  | .subEnd => [0x00]
  | .subData l => [l]
  | .dataSizeOk d => [d]
  | .dataSizeBad d => [d]
  | .invalid k => codeBytes k
  | .eoi k => codeBytes k
  | .clear k => codeBytes k
  | .first k => codeBytes k
  | .firstBad k => codeBytes k
  | .full k => codeBytes k
  | .kwkwk k => codeBytes k
  | .dict k => codeBytes k
  | .ident | .hdr | .tag | .img | .lzwComplete | .fetchLen | .fetchByte | .decodeCode | .emit | .drain | .commit
  | .finish => []
where
  /-- what follows the signature in HDR: the version byte and a screen descriptor without a global table -/
  descriptor : List Byte := if c = .hdr then List.replicate 8 0 else []

/-! ### Words of the opcode table -/

/-- The bytes of a table word. The table writes the two signatures as one 40-bit number with the first stream byte on
top; a number whose bytes spell a signature in that order is laid out so, any other least significant byte first. -/
def tableBytes (nbits w : Nat) : List Byte :=
  let low := bytesOfNat (nbits / 8) w
  if nbits = 40 ∧ decodeSig low = .sigInvalid ∧ decodeSig low.reverse ≠ .sigInvalid then low.reverse else low

/-- The place a table word is read at, which the table's numbering leaves open for one byte: a tag byte, the
graphic-control label or the zero length byte is read as what the row with that value says, every other byte as a tag
(log entry 9). -/
def tableContext (nbits w : Nat) : Option Context :=
  if nbits = 32 then some .cmd
  else if nbits = 40 then some .hdr
  else if nbits = 8 then
    if w = 0xF9 then some .ext else if w = 0 then some .sub else some .tag
  else none

/-- The bytes with the zeros that follow them, up to the 13 bytes of the longest fixed item, the header. -/
def paddedBytes (nbits w : Nat) : List Byte := tableBytes nbits w ++ List.replicate (13 - nbits / 8) 0

/-- The instruction the decoder reads from a table word. -/
def decodeTableWord (nbits w : Nat) : Option Instr :=
  match tableContext nbits w with
  | none => none
  | some c =>
    match decode c (paddedBytes nbits w) with
    | .ok i => some i
    | .error _ => none

/-! ### The stream notation (R122, R123) -/

/-- One item of the notation; a color table is its entries, an extension its label and sub-blocks. -/
inductive StreamItem where
  | sig (bytes : List Byte)
  | lsd (w h : BitVec 16) (gct : Bool) (size : BitVec 3) (bg aspect : Byte)
  | ct (entries : List Rgb)
  | ext (label : Byte) (groups : List (List Byte))
  | imageDescriptor (left top w h : BitVec 16) (lct il : Bool) (size : BitVec 3)
  | data (d : Byte)
  | sub (bytes : List Byte)
  | terminator
  | trailer
  | byte (b : Byte)
  /-- `GCE t idx` (R123) -/
  | gce (t idx : Byte)
  /-- `CODES d c0 c1 ...` (R123) -/
  | codes (d : Byte) (cs : List Nat)
  deriving DecidableEq, Repr

def le16Bytes (v : BitVec 16) : List Byte := bytesOfNat 2 v.toNat

/-- A packed byte: bit 7 a table flag, bit 6 a second flag, bits 2:0 a size field (R102, R108). -/
def packedByte (flag second : Bool) (size : BitVec 3) : Byte :=
  BitVec.ofNat 8 (flag.toNat * 128 + second.toNat * 64 + size.toNat)

def subBlock (bs : List Byte) : List Byte := BitVec.ofNat 8 bs.length :: bs

/-- The encoder's copy of the registers that fix a code's width: CODE_SIZE, AVAIL and OLD_VALID (R121, R123). -/
structure WidthState where
  size  : Nat
  avail : Nat
  old   : Bool
  deriving DecidableEq, Repr

/-- The widths after a code: a clear resets (R263), a first code adds no entry (R264), another adds one and may widen
(R271, R272). A code that ends the stream at the engine (EOI, INVALID, FIRST_BAD, FULL) is counted as one of these: R123
gives a width only to a code that is extracted, and the codes after it never are (DESIGN CHOICE, log entry 19). -/
def WidthState.after (d : Nat) (w : WidthState) (c : Nat) : WidthState :=
  if c = 2 ^ d then { size := d + 1, avail := 2 ^ d + 2, old := false }
  else if w.old = false then { w with old := true }
  else
    { w with
      avail := w.avail + 1,
      size := if (w.avail + 1) % 2 ^ w.size = 0 ∧ w.avail + 1 < 4096 then w.size + 1 else w.size }

/-- The codes as one number, each above the bits of those before it, with the number of bits (R110, R123). -/
def packCodes (d : Nat) : WidthState → List Nat → Nat × Nat
  | _, [] => (0, 0)
  | w, c :: cs =>
    let rest := packCodes d (w.after d c) cs
    (c % 2 ^ w.size + rest.1 * 2 ^ w.size, w.size + rest.2)

/-- Bytes cut into sub-blocks of at most 255; `fuel` bounds their number. -/
def cutSubBlocks : Nat → List Byte → List Byte
  | 0, _ => []
  | _, [] => []
  | fuel + 1, bs => subBlock (bs.take 255) ++ cutSubBlocks fuel (bs.drop 255)

def codesBytes (d : Byte) (cs : List Nat) : List Byte :=
  let k := d.toNat
  let packed := packCodes k { size := k + 1, avail := 2 ^ k + 2, old := false } cs
  let bytes := bytesOfNat ((packed.2 + 7) / 8) packed.1
  [d] ++ cutSubBlocks bytes.length bytes ++ [0]

/-- The bytes an item stands for (R122, R123). -/
def StreamItem.bytes : StreamItem → List Byte
  | .sig bs => bs
  | .lsd w h gct size bg aspect => le16Bytes w ++ le16Bytes h ++ [packedByte gct false size, bg, aspect]
  | .ct es => es.flatMap fun e => [e.r, e.g, e.b]
  | .ext label groups => [0x21, label] ++ groups.flatMap subBlock ++ [0]
  | .imageDescriptor left top w h lct il size =>
    [0x2C] ++ le16Bytes left ++ le16Bytes top ++ le16Bytes w ++ le16Bytes h ++ [packedByte lct il size]
  | .data d => [d]
  | .sub bs => subBlock bs
  | .terminator => [0]
  | .trailer => [0x3B]
  | .byte b => [b]
  | .gce t idx => [0x21, 0xF9] ++ subBlock [t, 0, 0, idx] ++ [0]
  | .codes d cs => codesBytes d cs

def assemble (items : List StreamItem) : List Byte := items.flatMap StreamItem.bytes

end Sys2Proof
end

