-- ==== Sys2Proof/Machine/State.lean ====
section
/-!
DEFINITION. The state of the machine (spec/10_state.md, spec/20_memory.md §1), its value right after reset (R48), and
the reasons a step can stop. Plain data: a table or memory is a list of (index, value) pairs in one canonical form
(Machine/Ops.lean), and a register of width n a `BitVec n`.
-/
namespace Sys2Proof.Machine

/-- Why the machine stops. Both are safe: the spec's own claims (R90; R149, R274) say neither happens in a run from
reset, and the model stops instead of inventing an effect. -/
inductive Fault where
  /-- EMIT alone raises it: the pixel's four bytes are not inside OUTBUF (R90 says no run gets there). -/
  | outsideOutbuf
  /-- SkipSubBlocks and Unwind raise it, if the bound the model puts on their loop were too small; it never is. -/
  | loopBound
  deriving DecidableEq, Repr

/-- Why an instruction has no meaning. -/
inductive Refusal where
  /-- Raised by `exec`'s arms of instructions not modelled yet, of which there are none: safe. -/
  | notModelled (mnemonic : String)
  deriving DecidableEq, Repr

/-- A kind of error (spec/60_exceptions.md R400); `none` is code 0. Codes 8 to 15 are never produced, and are no value. -/
inductive ErrKind where
  | none
  | invalidHeader
  | truncatedStream
  | corruptCode
  | dictionaryOverflow
  | emptyResult
  | capacityExceeded
  | illegalCommand
  deriving DecidableEq, Repr

/-- CTRL.POLICY (R22). The value 3 is stored as ABORT and so is no value of the field. -/
inductive Policy where
  | keep | discard | abort
  deriving DecidableEq, Repr

/-- CTRL's fields (R22); its reserved bits have no storage (log entry 15). -/
structure Ctrl where
  irqEn    : Bool
  policy   : Policy
  transpEn : Bool
  deriving DecidableEq, Repr

/-- STATUS's fields (R24); its reserved bits have no storage. -/
structure Status where
  busy    : Bool
  done    : Bool
  idMatch : Bool
  err     : ErrKind
  wIdx    : Bool
  wAnom   : Bool
  deriving DecidableEq, Repr

/-- The LZW registers (R38). -/
structure Lzw where
  dataSize : BitVec 4
  clear    : BitVec 9
  eoi      : BitVec 9
  avail    : BitVec 13
  codeSize : BitVec 4
  codeMask : BitVec 12
  oldValid : Bool
  oldCode  : BitVec 12
  first    : Byte
  datum    : BitVec 32
  bits     : BitVec 5
  count    : BitVec 8
  termSeen : Bool
  sp       : BitVec 13
  deriving DecidableEq, Repr

/-- The image registers (R39). IMG_ANOM's four bits hold 0 or an error kind. -/
structure Img where
  w     : BitVec 16
  h     : BitVec 16
  il    : Bool
  loc   : Bool
  base  : BitVec 32
  total : BitVec 32
  anom  : ErrKind
  deriving DecidableEq, Repr

/-- The placement registers (R40). -/
structure Place where
  pix  : BitVec 32
  x    : BitVec 16
  row  : BitVec 32
  pass : BitVec 2
  deriving DecidableEq, Repr

/-- The pending graphic-control state (R41). -/
structure Pending where
  valid : Bool
  idx   : Byte
  deriving DecidableEq, Repr

/-- One frame record (R46). -/
structure FrameRecord where
  base : BitVec 32
  w    : BitVec 16
  h    : BitVec 16
  stat : BitVec 32
  deriving DecidableEq, Repr

/-- What FBASE, FDIM and FSTAT show of where FSEL selects no frame (R30 to R32). -/
abbrev FrameRecord.blank : FrameRecord := ⟨0, 0, 0, 0⟩

/-- A table or memory: the cells written since reset, by index. -/
abbrev Cells (α : Type) := List (Nat × α)

/-- A byte memory. -/
abbrev Memory := List Host.Cell

/-- The size of a host access to the register block (R33). -/
inductive AccessSize where
  | byte | half | word
  deriving DecidableEq, Repr

/-- A move of the world outside the engine (R20: register and memory accesses, and the reset input of R440), or the
choice to let the engine take its next step. -/
inductive HostMove where
  | writeReg (offset : Nat) (size : AccessSize) (value : Word)
  | readReg (offset : Nat) (size : AccessSize)
  | writeIn (addr : Nat) (value : Byte)
  | readIn (addr : Nat)
  | writeOut (addr : Nat) (value : Byte)
  | readOut (addr : Nat)
  | resetInput
  | engineTurn
  deriving DecidableEq, Repr

structure State where
  /-- IN_CAP, OUT_CAP, MAX_FRAMES (R9); no step changes them. -/
  cfg        : Config
  -- host registers (R21); CMD has no storage, FBASE, FDIM and FSTAT are views of `ft`
  ctrl       : Ctrl
  status     : Status
  inLen      : BitVec 32
  frameCount : BitVec 32
  outUsed    : BitVec 32
  errPos     : BitVec 32
  fsel       : BitVec 32
  -- engine control (R36, R37)
  st         : EngineState
  pos        : BitVec 32
  -- engine registers (R38 to R42)
  lzw        : Lzw
  img        : Img
  place      : Place
  pend       : Pending
  extLabel   : Byte
  -- tables (R43 to R46)
  prefixTab  : Cells (BitVec 12)
  suffixTab  : Cells Byte
  stack      : Cells Byte
  gct        : Cells Rgb
  gctSize    : BitVec 9
  lct        : Cells Rgb
  lctSize    : BitVec 9
  ft         : Cells FrameRecord
  -- memories (R70)
  inbuf      : Memory
  outbuf     : Memory
  /-- the model's own: how many times the reset input was asserted, so which contents the unwritten cells hold (R442) -/
  resets     : Nat
  -- the model's own: what the host does next, what its last read returned, and how many free values were drawn
  moves      : List HostMove
  readData   : Word
  draws      : Nat
  deriving DecidableEq, Repr

/-- The outcome of a step or of an instruction. -/
abbrev Result := Host.Outcome State Fault Refusal

def Ctrl.reset : Ctrl := { irqEn := false, policy := .abort, transpEn := false }

def Status.reset : Status :=
  { busy := false, done := false, idMatch := false, err := .none, wIdx := false, wAnom := false }

def Lzw.reset : Lzw :=
  { dataSize := 0, clear := 0, eoi := 0, avail := 0, codeSize := 0, codeMask := 0, oldValid := false, oldCode := 0,
    first := 0, datum := 0, bits := 0, count := 0, termSeen := false, sp := 0 }

def Img.reset : Img := { w := 0, h := 0, il := false, loc := false, base := 0, total := 0, anom := .none }

def Place.reset : Place := { pix := 0, x := 0, row := 0, pass := 0 }

def Pending.reset : Pending := { valid := false, idx := 0 }

/-- An engine of the given parameters right after its n-th reset: R48's values, and zero for the registers R48 leaves
unspecified (DESIGN CHOICE, log entries 2 and 3). Nothing has written a table or memory since, so each holds what is drawn
for that reset (R442). -/
def State.resetWith (cfg : Config) (n : Nat) : State :=
  { cfg := cfg,
    ctrl := .reset, status := .reset, inLen := 0, frameCount := 0, outUsed := 0, errPos := 0, fsel := 0,
    st := .idle, pos := 0,
    lzw := .reset, img := .reset, place := .reset, pend := .reset, extLabel := 0,
    prefixTab := [], suffixTab := [], stack := [], gct := [], gctSize := 0, lct := [], lctSize := 0, ft := [],
    inbuf := [], outbuf := [], resets := n,
    moves := [], readData := 0, draws := 0 }

/-- The machine right after reset (R48), with the parameters of spec/95_test_vectors.md. -/
def State.reset : State := .resetWith .vectors 0

end Sys2Proof.Machine
end

