-- ==== Sys2Proof/Machine/Ops.lean ====
section
/-!
DEFINITION. The shared operations: reading and writing cells, the cursor (spec/20_memory.md R72, R73), ending a command
and raising an error or anomaly (spec/40_host_commands.md R146, R147; spec/60_exceptions.md R404, R405), and skipping
sub-blocks (spec/42_block_parser.md R186).
-/
namespace Sys2Proof.Machine

/-! ### Cells -/

/-- The canonical form: indices strictly rising. An unlisted index has no value of the list's own, so there is no second
way to list the same written cells. -/
abbrev CellsWf {α : Type} (m : Cells α) : Prop := m.Pairwise fun a b => a.1 < b.1

/-- What is at index `a`; `d` is what it holds if nothing has written it. -/
def readCell {α : Type} (d : α) : Cells α → Nat → α
  | [], _ => d
  | c :: m, a => if c.1 = a then c.2 else readCell d m a

/-- The cells with `v` at index `a`. -/
def writeCell {α : Type} : Cells α → Nat → α → Cells α
  | [], a, v => [(a, v)]
  | c :: m, a, v => if a < c.1 then (a, v) :: c :: m else if a = c.1 then (a, v) :: m else c :: writeCell m a v

/-- The cells with `v` at every index from `lo` to `lo + n - 1`. -/
def fillCells {α : Type} (lo n : Nat) (v : α) (m : Cells α) : Cells α :=
  m.filter (fun c => decide (c.1 < lo)) ++ ((List.range n).map fun k => (lo + k, v)) ++
    m.filter (fun c => decide (lo + n ≤ c.1))

/-- A memory is in canonical form. -/
abbrev Memory.wf (m : Memory) : Prop := CellsWf m

/-- A memory with one byte written. -/
def Memory.write (m : Memory) (a : Nat) (v : Byte) : Memory := writeCell m a v

/-- `MemWrite(OUT, a, n, v)`: n bytes, the least significant at the lowest address (spec/00_scope.md R12). -/
def Memory.writeBytes (m : Memory) (a : Nat) : Nat → Nat → Memory
  | 0, _ => m
  | n + 1, v => Memory.writeBytes (m.write a (BitVec.ofNat 8 v)) (a + 1) n (v / 256)

/-- What index `i` of a store holds if nothing has written it since reset: a free value (R442, log entries 3 and 4). -/
def State.unwritten (s : State) (x : Store) (w i : Nat) : BitVec w := (Config.freeContents x s.resets i).setWidth w

/-- A color by its three bytes, the first lowest. -/
def rgbOfBits (v : BitVec 24) : Rgb := { r := v.extractLsb' 0 8, g := v.extractLsb' 8 8, b := v.extractLsb' 16 8 }

/-- A frame record by its bits, the first field lowest. -/
def FrameRecord.ofBits (v : BitVec 96) : FrameRecord :=
  { base := v.extractLsb' 0 32, w := v.extractLsb' 32 16, h := v.extractLsb' 48 16, stat := v.extractLsb' 64 32 }

/-- `MemRead(IN, a, 1)` (R12). -/
def State.inByte (s : State) (a : Nat) : Byte := readCell (s.unwritten .inbuf 8 a) s.inbuf a

/-- One byte of OUTBUF. -/
def State.outByte (s : State) (a : Nat) : Byte := readCell (s.unwritten .outbuf 8 a) s.outbuf a

/-- n bytes of INBUF from address a. -/
def State.inBytes (s : State) (a : Nat) : Nat → List Byte
  | 0 => []
  | n + 1 => s.inByte a :: State.inBytes s (a + 1) n

/-- Tables (spec/10_state.md R43 to R46). -/
def State.prefixOf (s : State) (c : Nat) : BitVec 12 := readCell (s.unwritten .prefixTab 12 c) s.prefixTab c
def State.suffixOf (s : State) (c : Nat) : Byte := readCell (s.unwritten .suffixTab 8 c) s.suffixTab c
def State.stackAt (s : State) (i : Nat) : Byte := readCell (s.unwritten .stack 8 i) s.stack i
def State.gctAt (s : State) (i : Nat) : Rgb := readCell (rgbOfBits (s.unwritten .gct 24 i)) s.gct i
def State.lctAt (s : State) (i : Nat) : Rgb := readCell (rgbOfBits (s.unwritten .lct 24 i)) s.lct i
def State.frameAt (s : State) (i : Nat) : FrameRecord := readCell (.ofBits (s.unwritten .ft 96 i)) s.ft i

/-- The bytes of a recorded frame (R46, R82). -/
def FrameRecord.bytes (f : FrameRecord) : Nat := 4 * (f.w.toNat * f.h.toNat)

/-- The bytes of the first n of these records. -/
def bytesOfFirst (record : Nat → FrameRecord) : Nat → Nat
  | 0 => 0
  | n + 1 => bytesOfFirst record n + (record n).bytes

/-- The bytes of the first n recorded frames (R27, R82). -/
def State.bytesBefore (s : State) (n : Nat) : Nat := bytesOfFirst s.frameAt n

def State.setPrefix (s : State) (c : Nat) (v : BitVec 12) : State :=
  { s with prefixTab := writeCell s.prefixTab c v }
def State.setSuffix (s : State) (c : Nat) (v : Byte) : State := { s with suffixTab := writeCell s.suffixTab c v }
def State.setStack (s : State) (i : Nat) (v : Byte) : State := { s with stack := writeCell s.stack i v }
def State.setFrame (s : State) (i : Nat) (v : FrameRecord) : State :=
  { s with ft := writeCell s.ft i v }

/-! ### Starting and ending a command -/

/-- The code of an error kind, in STATUS.ERR and FSTAT.ANOM (R400). -/
def ErrKind.code : ErrKind → Nat
  | .none => 0
  | .invalidHeader => 1
  | .truncatedStream => 2
  | .corruptCode => 3
  | .dictionaryOverflow => 4
  | .emptyResult => 5
  | .capacityExceeded => 6
  | .illegalCommand => 7

/-- `StartCommand()` (R147). -/
def startCommand (s : State) : State :=
  { s with
    status := { busy := true, done := false, idMatch := false, err := .none, wIdx := false, wAnom := false },
    errPos := 0 }

/-- `Complete(e)` (R146). -/
def complete (e : ErrKind) (s : State) : State :=
  { s with status := { s.status with err := e, busy := false, done := true }, st := .idle }

/-! ### Raising (R404, R405): the engine's exception entry. There is no return from it (R413): the next command's
`startCommand` clears what it left. -/

/-- `Fatal(k)` (R404). -/
def fatal (k : ErrKind) (s : State) : State := complete k { s with errPos := s.pos }

/-- `Anomaly(k)` under KEEP or DISCARD (R405): the image keeps its first kind (R409), the command its first position
(R402), the stack is dropped, and a truncation leaves nothing of the stream to drain. -/
def endImage (k : ErrKind) (s : State) : State :=
  { s with
    img := { s.img with anom := if s.img.anom = .none then k else s.img.anom },
    errPos := if s.status.wAnom then s.errPos else s.pos,
    status := { s.status with wAnom := true },
    lzw := { s.lzw with sp := 0, termSeen := if k = .truncatedStream then true else s.lzw.termSeen },
    pos := if k = .truncatedStream then s.inLen else s.pos,
    st := if k = .truncatedStream then .commit else .drain }

/-- `Anomaly(k)` (R405, R408). -/
def anomaly (k : ErrKind) (s : State) : State :=
  if s.ctrl.policy = .abort then fatal k s else endImage k s

/-- What a rule raises. -/
inductive Raise where
  | fatal (k : ErrKind)
  | anomaly (k : ErrKind)
  deriving DecidableEq, Repr

def raise : Raise → State → State
  | .fatal k, s => fatal k s
  | .anomaly k, s => anomaly k s

/-! ### The course of a rule -/

/-- How far a rule's pseudocode has come: it goes on with a value, it has raised and so ended the step with the state
the raise left (R12), or it has stopped. -/
inductive Flow (α : Type) where
  | go (a : α) (s : State)
  | ended (s : State)
  | stopped (f : Fault)

def Flow.andThen {α β : Type} : Flow α → (α → State → Flow β) → Flow β
  | .go a s, k => k a s
  | .ended s, _ => .ended s
  | .stopped f, _ => .stopped f

/-- The outcome of a whole rule. -/
def Flow.result : Flow Unit → Result
  | .go _ s => .next s
  | .ended s => .next s
  | .stopped f => .fault f

/-! ### The cursor -/

/-- `POS <- POS + n`. -/
def State.advance (s : State) (n : Nat) : State := { s with pos := BitVec.ofNat 32 (s.pos.toNat + n) }

/-- `ReadByte(k)` (R72). -/
def readByte (r : Raise) (s : State) : Flow Byte :=
  if s.inLen.toNat ≤ s.pos.toNat then .ended (raise r s) else .go (s.inByte s.pos.toNat) (s.advance 1)

/-- `Need(n, k)` (R73). -/
def need (n : Nat) (r : Raise) (s : State) : Flow Unit :=
  if s.inLen.toNat < s.pos.toNat + n then .ended (raise r s) else .go () s

/-- The loop of `SkipSubBlocks(k)`, at most `fuel` times. -/
def skipLoop (r : Raise) : Nat → State → Flow Unit
  | 0, _ => .stopped .loopBound
  | fuel + 1, s =>
    (readByte r s).andThen fun len s =>
      if len = 0 then .go () s
      else (need len.toNat r s).andThen fun _ s => skipLoop r fuel (s.advance len.toNat)

/-- `SkipSubBlocks(k)` (R186). Each turn of the loop reads a byte, so the bytes left bound it. -/
def skipSubBlocks (r : Raise) (s : State) : Flow Unit := skipLoop r (s.inLen.toNat - s.pos.toNat + 1) s

end Sys2Proof.Machine
end

