-- ==== Sys2Proof/Machine/Operands.lean ====
section
/-!
DEFINITION. Operand assembly (spec/30_encoding.md R112, R102, R103, R107, R108; spec/20_memory.md R74).
-/
namespace Sys2Proof.Machine

/-- `le16(a)` (R74). -/
def State.le16 (s : State) (a : Nat) : BitVec 16 :=
  BitVec.ofNat 16 ((s.inByte a).toNat + 256 * (s.inByte (a + 1)).toNat)

/-- The table-present flag of an LSD or IMGD packed byte: bit 7. -/
def packedTableFlag (p : Byte) : Bool := p.getLsbD 7

/-- The interlaced flag of an IMGD packed byte: bit 6. -/
def packedInterlaced (p : Byte) : Bool := p.getLsbD 6

/-- The table-size field of a packed byte: bits 2:0. -/
def packedSizeField (p : Byte) : Nat := p.toNat % 8

/-- A color table's number of entries, `1 << (SIZE_FIELD + 1)`. -/
def tableEntries (f : Nat) : Nat := 2 ^ (f + 1)

/-- Entry i of the color table whose bytes start at address a (R103). -/
def State.rgbAt (s : State) (a i : Nat) : Rgb :=
  { r := s.inByte (a + 3 * i), g := s.inByte (a + 3 * i + 1), b := s.inByte (a + 3 * i + 2) }

/-- The first n entries of a table loaded from address a (R165, R213). -/
def State.loadTable (s : State) (a : Nat) : Nat → Cells Rgb → Cells Rgb
  | 0, t => t
  | n + 1, t => writeCell (s.loadTable a n t) n (s.rgbAt a n)

/-- GCE data byte 0, bit 0 (R107). -/
def gceTransparent (flags : Byte) : Bool := flags.getLsbD 0

/-- `DATUM & CODE_MASK` (R244). -/
def State.topCode (s : State) : BitVec 12 := BitVec.ofNat 12 s.lzw.datum.toNat &&& s.lzw.codeMask

/-- `(1 << n) - 1`, as CODE_MASK holds it. -/
def maskOf (n : Nat) : BitVec 12 := BitVec.ofNat 12 (2 ^ n - 1)

/-- `ActiveTable()` (spec/43_image_setup.md R214). -/
def State.activeTable (s : State) : (Nat → Rgb) × Nat :=
  if s.img.loc then (s.lctAt, s.lctSize.toNat) else (s.gctAt, s.gctSize.toNat)

end Sys2Proof.Machine
end

