-- ==== Sys2Proof/Machine/Flags.lean ====
section
/-!
DEFINITION. The flags and the registers' words (spec/10_state.md R22, R24, R31, R32, R35, R47): how CTRL and STATUS are
read and written whole, the interrupt line, and a frame record's STAT (spec/46_pixel_output.md R301).
-/
namespace Sys2Proof.Machine

/-- The field of POLICY (R22). -/
def Policy.code : Policy → Nat
  | .keep => 0
  | .discard => 1
  | .abort => 2

/-- What a write of two bits to POLICY stores: 3 stores 2 (R22). -/
def Policy.ofBits (n : Nat) : Policy := if n = 0 then .keep else if n = 1 then .discard else .abort

/-- CTRL as the host reads it (R22). -/
def Ctrl.word (c : Ctrl) : Word :=
  BitVec.ofNat 32 (c.irqEn.toNat + 2 * c.policy.code + 8 * c.transpEn.toNat)

/-- CTRL after a host write of v (R22). -/
def Ctrl.ofWord (v : Word) : Ctrl :=
  { irqEn := v.getLsbD 0, policy := .ofBits (v.toNat / 2 % 4), transpEn := v.getLsbD 3 }

/-- STATUS as the host reads it while BUSY = 0 (R24). -/
def Status.word (t : Status) : Word :=
  BitVec.ofNat 32
    (t.busy.toNat + 2 * t.done.toNat + 4 * t.idMatch.toNat + 16 * t.err.code + 256 * t.wIdx.toNat + 512 * t.wAnom.toNat)

/-- STATUS as the host reads it while BUSY = 1: BUSY 1, DONE 0, the reserved bits 0, every other field as drawn (R34). -/
def busyStatusWord (drawn : Word) : Word := (drawn &&& 0x3F4) ||| 1

/-- The interrupt line (R35, R411). -/
def State.irq (s : State) : Bool := s.status.done && s.ctrl.irqEn

/-- SHORT: fewer than W·H pixels were produced (R32, R301). -/
def State.shortFrame (s : State) : Bool := decide (s.place.pix.toNat < s.img.total.toNat)

/-- STAT of the frame being committed (R301). -/
def State.frameStat (s : State) : Word :=
  BitVec.ofNat 32
    (s.img.anom.code + 16 * s.shortFrame.toNat + 32 * s.img.il.toNat + 64 * s.img.loc.toNat + 128 * s.pend.valid.toNat
      + 256 * (if s.pend.valid then s.pend.idx.toNat else 0))

/-- `FrameRecord()` (R301). -/
def State.frameRecord (s : State) : FrameRecord :=
  { base := s.img.base, w := s.img.w, h := s.img.h, stat := s.frameStat }

end Sys2Proof.Machine
end

