-- ==== Sys2Proof/Machine/Blocks.lean ====
section
/-!
DEFINITION. Tag dispatch and extensions (spec/42_block_parser.md). A row of format TAG reads its own byte (log entry 12);
the TAG step is `execTag`.
-/
namespace Sys2Proof.Machine

/-- END_OF_BUFFER (R181). -/
def endOfBuffer (s : State) : State := { s with st := .finish }

/-- EXT_TAG after its byte (R182). -/
def readLabel (s : State) : Flow Unit :=
  (readByte (.fatal .truncatedStream) s).andThen fun l s => .go () { s with extLabel := l, st := .ext }

/-- What follows a tag byte (R180). -/
def afterTag (t : Byte) (s : State) : Flow Unit :=
  if t = 0x21 then readLabel s
  else if t = 0x2C then .go () { s with st := .img }
  else if t = 0x3B then .go () { s with st := .finish }
  else .go () s

/-- TAG (R180). -/
def execTag (s : State) : Result :=
  if s.inLen.toNat ≤ s.pos.toNat then .next (endOfBuffer s)
  else ((readByte (.fatal .truncatedStream) s).andThen afterTag).result

/-- END_OF_BUFFER (R181). -/
def execEndOfBuffer (s : State) : Result := .next (endOfBuffer s)

/-- EXT_TAG (R182). -/
def execExtTag (s : State) : Result :=
  ((readByte (.fatal .truncatedStream) s).andThen fun _ s => readLabel s).result

/-- IMAGE_TAG (R183). -/
def execImageTag (s : State) : Result :=
  ((readByte (.fatal .truncatedStream) s).andThen fun _ s => .go () { s with st := .img }).result

/-- TRAILER (R184). -/
def execTrailer (s : State) : Result :=
  ((readByte (.fatal .truncatedStream) s).andThen fun _ s => .go () { s with st := .finish }).result

/-- NOISE (R185): the byte is consumed and nothing else happens, so ST stays TAG. -/
def execNoise (_tag : Byte) (s : State) : Result :=
  ((readByte (.fatal .truncatedStream) s).andThen fun _ s => .go () s).result

/-- The end of an extension: its sub-blocks skipped to the terminator (R187, R188). -/
def finishExtension (s : State) : Flow Unit :=
  (skipSubBlocks (.fatal .truncatedStream) s).andThen fun _ s => .go () { s with st := .tag }

/-- OTHER_EXT (R187); the label only selects it. -/
def execOtherExt (_label : Byte) (s : State) : Result := (finishExtension s).result

/-- The pending state that the first sub-block of a graphic-control extension gives, its `len` data bytes at POS
(R188, R189). -/
def State.carriedPending (s : State) (len : Nat) : Pending :=
  if 4 ≤ len ∧ gceTransparent (s.inByte s.pos.toNat) = true then
    { valid := true, idx := s.inByte (s.pos.toNat + 3) }
  else { valid := false, idx := 0 }

/-- GCE (R188): the pending state is cleared first, so that every GCE overwrites it (R190). -/
def execGce (s : State) : Result :=
  ((readByte (.fatal .truncatedStream) { s with pend := { valid := false, idx := 0 } }).andThen fun len s =>
    if len = 0 then .go () { s with st := .tag }
    else
      (need len.toNat (.fatal .truncatedStream) s).andThen fun _ s =>
        finishExtension ({ s with pend := s.carriedPending len.toNat }.advance len.toNat)).result

end Sys2Proof.Machine
end

