-- ==== Sys2Proof/Machine/Commands.lean ====
section
/-!
DEFINITION. The host commands and the IDENT step (spec/40_host_commands.md). A command is a host write to CMD, and a
write while BUSY = 1 is ignored (R140).
-/
namespace Sys2Proof.Machine

/-- The gate of R140: a command's effect while idle, nothing while BUSY. -/
def whenIdle (effect : State → State) (s : State) : Result :=
  if s.status.busy then .next s else .next (effect s)

/-- IDENTIFY's effect (R142). -/
def startIdentify (s : State) : State := { startCommand s with st := .ident }

/-- DECODE's effect (R143). -/
def startDecode (s : State) : State :=
  { startCommand s with
    pos := 0, frameCount := 0, outUsed := 0, pend := { valid := false, idx := 0 }, st := .hdr }

/-- NONE (R141). -/
def execCmdNone (s : State) : Result := whenIdle (fun s => s) s

/-- IDENTIFY (R142). -/
def execIdentify (s : State) : Result := whenIdle startIdentify s

/-- DECODE (R143). -/
def execDecode (s : State) : Result := whenIdle startDecode s

/-- ILLEGAL: any other value (R144), which only selects the command. -/
def execIllegalCmd (_op : Word) (s : State) : Result :=
  whenIdle (fun s => complete .illegalCommand (startCommand s)) s

/-- The IDENT step's effect, given whether the signature is good (R145). -/
def identified (good : Bool) (s : State) : State :=
  complete .none { s with status := { s.status with idMatch := good } }

/-- `Has_Valid_GIF_Header()` (spec/41_header_screen.md R161). -/
def State.validHeader (s : State) : Bool :=
  decide (5 ≤ s.inLen.toNat) && (decide (s.inBytes 0 5 = gif87Bytes) || decide (s.inBytes 0 5 = gif89Bytes))

/-- IDENT (R145). -/
def execIdent (s : State) : Result := .next (identified s.validHeader s)

end Sys2Proof.Machine
end

