-- ==== Sys2Proof/Machine/Header.lean ====
section
/-!
DEFINITION. Header validation, screen descriptor and global color table (spec/41_header_screen.md). The HDR step is
`execHdr`; each row of format SIG is the step on a stream that begins so, in IDENT and in HDR
(log entry 12).
-/
namespace Sys2Proof.Machine

/-- `LoadGCT(f)` and R167, with POS at the table (R165). -/
def loadGct (f : Nat) (s : State) : Flow Unit :=
  (need (3 * tableEntries f) (.fatal .truncatedStream) s).andThen fun _ s =>
    .go ()
      ({ s with
          gct := s.loadTable s.pos.toNat (tableEntries f) s.gct,
          gctSize := BitVec.ofNat 9 (tableEntries f),
          st := .tag }.advance (3 * tableEntries f))

/-- HDR from R164 on: the screen descriptor's packed byte and the global table. -/
def screenDescriptor (s : State) : Flow Unit :=
  let packed := s.inByte 10
  let s := { s with pos := 13 }
  if packedTableFlag packed then loadGct (packedSizeField packed) s
  else .go () { s with gctSize := 0, st := .tag }

/-- HDR after a good signature (R163 on). -/
def afterSignature (s : State) : Flow Unit :=
  if s.inLen.toNat < 13 then .ended (fatal .invalidHeader s) else screenDescriptor s

/-- HDR (R160). -/
def execHdr (s : State) : Result :=
  if s.validHeader then (afterSignature s).result else .next (fatal .invalidHeader s)

/-- SIG_GIF87: a good signature, in IDENT (R145) or HDR (R161). -/
def execSigGif87 (s : State) : Result :=
  if s.st = .ident then .next (identified true s) else (afterSignature s).result

/-- SIG_GIF89: as SIG_GIF87, which R161 does not tell from it. -/
def execSigGif89 (s : State) : Result :=
  if s.st = .ident then .next (identified true s) else (afterSignature s).result

/-- SIG_INVALID: no signature, in IDENT (R145) or HDR (R162). -/
def execSigInvalid (s : State) : Result :=
  if s.st = .ident then .next (identified false s) else .next (fatal .invalidHeader s)

/-- HDR_SHORT: a good signature in fewer than 13 bytes, in HDR (R163). -/
def execHdrShort (s : State) : Result := .next (fatal .invalidHeader s)

end Sys2Proof.Machine
end

