-- ==== Sys2Proof/Machine/Image.lean ====
section
/-!
DEFINITION. Image descriptor, local color table and decoder set-up (spec/43_image_setup.md). The IMG step is `execImg`; a
row of format LZWS is what the step does from the DATA_SIZE byte on.
-/
namespace Sys2Proof.Machine

/-- `SeedDictionary()` for n literals (R220). -/
def seedDictionary : Nat → State → State
  | 0, s => s
  | n + 1, s => ((seedDictionary n s).setPrefix n 0).setSuffix n (BitVec.ofNat 8 n)

/-- `InitLZW(d)` (R219). -/
def initLzw (d : Nat) (s : State) : State :=
  seedDictionary (2 ^ d)
    { s with
      lzw := { s.lzw with
        dataSize := BitVec.ofNat 4 d,
        clear := BitVec.ofNat 9 (2 ^ d),
        eoi := BitVec.ofNat 9 (2 ^ d + 1),
        avail := BitVec.ofNat 13 (2 ^ d + 2),
        codeSize := BitVec.ofNat 4 (d + 1),
        codeMask := maskOf (d + 1),
        oldValid := false,
        first := 0 } }

/-- What a DATA_SIZE byte does, once read (R218, R219). -/
def startStream (d : Byte) (s : State) : Flow Unit :=
  if d.toNat < 2 ∨ 8 < d.toNat then .ended (anomaly .corruptCode s)
  else .go () { initLzw d.toNat s with st := .lzw }

/-- DATA_SIZE_OK (R219), reading its byte (R217). -/
def execDataSizeOk (d : Byte) (s : State) : Result :=
  ((readByte (.anomaly .truncatedStream) s).andThen fun _ s => .go () { initLzw d.toNat s with st := .lzw }).result

/-- DATA_SIZE_BAD (R218), reading its byte; the value only selects it. -/
def execDataSizeBad (_d : Byte) (s : State) : Result :=
  ((readByte (.anomaly .truncatedStream) s).andThen fun _ s => .ended (anomaly .corruptCode s)).result

/-- `LoadLCT(f)` with POS at the table (R213). -/
def loadLct (f : Nat) (s : State) : Flow Unit :=
  (need (3 * tableEntries f) (.fatal .truncatedStream) s).andThen fun _ s =>
    .go ()
      ({ s with
          lct := s.loadTable s.pos.toNat (tableEntries f) s.lct,
          lctSize := BitVec.ofNat 9 (tableEntries f) }.advance (3 * tableEntries f))

/-- The descriptor's fields, its 9 bytes at POS (R212), and POS past it. -/
def readDescriptor (s : State) : State :=
  { s with
    img := { s.img with
      w := s.le16 (s.pos.toNat + 4), h := s.le16 (s.pos.toNat + 6),
      il := packedInterlaced (s.inByte (s.pos.toNat + 8)) } }.advance 9

/-- The local table, present or not (R210, R213). -/
def localTable (packed : Byte) (s : State) : Flow Unit :=
  if packedTableFlag packed then
    (loadLct (packedSizeField packed) s).andThen fun _ s => .go () { s with img := { s.img with loc := true } }
  else .go () { s with img := { s.img with loc := false } }

/-- The bytes of the current frame, `4 * IMG_W * IMG_H`, not truncated (R215). -/
def State.frameBytes (s : State) : Nat := 4 * (s.img.w.toNat * s.img.h.toNat)

/-- The bytes of OUTBUF that belong to committed frames: OUT_USED (R27). In an OUTBUF of 2^32 bytes (R9) the 32-bit
register (R10) holds 0 both when no byte is used and when all are; the committed frames, whose sum it is (R27), tell the
two apart (DEDUCED, log entry 8). -/
def State.usedBytes (s : State) : Nat :=
  if s.cfg.outCap = 2 ^ 32 ∧ s.outUsed = 0 ∧ s.bytesBefore s.frameCount.toNat ≠ 0 then 2 ^ 32 else s.outUsed.toNat

/-- `CheckCapacity()` (R215). -/
def checkCapacity (s : State) : Flow Unit :=
  if s.cfg.maxFrames ≤ s.frameCount.toNat ∨ s.cfg.outCap < s.usedBytes + s.frameBytes then
    .ended (fatal .capacityExceeded s)
  else .go () s

/-- `SetUpFrame()` (R216). -/
def setUpFrame (s : State) : State :=
  { s with
    img := { s.img with
      base := s.outUsed, total := BitVec.ofNat 32 (s.img.w.toNat * s.img.h.toNat), anom := .none },
    outbuf := fillCells s.outUsed.toNat s.frameBytes 0 s.outbuf,
    place := { pix := 0, x := 0, row := 0, pass := 0 },
    lzw := { s.lzw with sp := 0, datum := 0, bits := 0, count := 0, termSeen := false } }

/-- IMG up to the DATA_SIZE byte (R211 to R216). -/
def prepareImage (s : State) : Flow Unit :=
  (need 9 (.fatal .truncatedStream) s).andThen fun _ s =>
    (localTable (s.inByte (s.pos.toNat + 8)) (readDescriptor s)).andThen fun _ s =>
      (checkCapacity s).andThen fun _ s => .go () (setUpFrame s)

/-- IMG (R210). A raise keeps what the lines before it wrote (log entry 18). -/
def execImg (s : State) : Result :=
  ((prepareImage s).andThen fun _ s => (readByte (.anomaly .truncatedStream) s).andThen startStream).result

end Sys2Proof.Machine
end

