-- ==== Sys2Proof/Machine/Unpack.lean ====
section
/-!
DEFINITION. The streaming bit unpacker (spec/44_bit_unpacker.md) and the rows of format SUB: a sub-block's length byte, in a code
stream (R242), in an extension (R186, R187) and in a drain (R298) (log entry 12).
-/
namespace Sys2Proof.Machine

/-- LZW_COMPLETE (R241). -/
def execLzwComplete (s : State) : Result := .next { s with st := .drain }

/-- What a length byte does in a code stream, once read (R242). -/
def startSubBlock (len : Byte) (s : State) : Flow Unit :=
  if len = 0 then .go () { s with lzw := { s.lzw with termSeen := true }, st := .drain }
  else
    (need len.toNat (.anomaly .truncatedStream) s).andThen fun _ s =>
      .go () { s with lzw := { s.lzw with count := len } }

/-- FETCH_LEN (R242). -/
def execFetchLen (s : State) : Result :=
  ((readByte (.anomaly .truncatedStream) s).andThen startSubBlock).result

/-- FETCH_BYTE after its read (R243). -/
def takeByte (b : Byte) (s : State) : State :=
  { s with
    lzw := { s.lzw with
      datum := BitVec.ofNat 32 (s.lzw.datum.toNat + b.toNat * 2 ^ s.lzw.bits.toNat),
      bits := BitVec.ofNat 5 (s.lzw.bits.toNat + 8),
      count := BitVec.ofNat 8 (s.lzw.count.toNat - 1) } }

/-- FETCH_BYTE (R243). -/
def execFetchByte (s : State) : Result :=
  ((readByte (.anomaly .truncatedStream) s).andThen fun b s => .go () (takeByte b s)).result

/-- The code leaves the accumulator (R244). -/
def dropCode (s : State) : State :=
  { s with
    lzw := { s.lzw with
      datum := BitVec.ofNat 32 (s.lzw.datum.toNat / 2 ^ s.lzw.codeSize.toNat),
      bits := BitVec.ofNat 5 (s.lzw.bits.toNat - s.lzw.codeSize.toNat) } }

/-- What a truncation raises where a length byte is read: a fatal error in an extension (R187), an anomaly in a code stream and
its drain (R242, R298). -/
def subBlockRaise (s : State) : Raise :=
  if s.st = .ext then .fatal .truncatedStream else .anomaly .truncatedStream

/-- SUB_END: the zero length byte. In an extension it ends the extension, in a drain the drain, in a code stream the
code data (R249). -/
def execSubEnd (s : State) : Result :=
  ((readByte (subBlockRaise s) s).andThen fun _ s =>
    match s.st with
    | .ext => .go () { s with st := .tag }
    | .drain => .go () { s with lzw := { s.lzw with termSeen := true }, st := .commit }
    | _ => startSubBlock 0 s).result

/-- SUB_DATA: a length byte L > 0. In an extension or a drain its L data bytes are skipped, in a code stream they are
counted (R242). -/
def execSubData (len : Byte) (s : State) : Result :=
  ((readByte (subBlockRaise s) s).andThen fun _ s =>
    match s.st with
    | .ext | .drain => (need len.toNat (subBlockRaise s) s).andThen fun _ s => .go () (s.advance len.toNat)
    | _ => startSubBlock len s).result

end Sys2Proof.Machine
end

