-- ==== Sys2Proof/Machine/Lzw.lean ====
section
/-!
DEFINITION. The code classes, the dictionary and code-width growth (spec/45_lzw_codes.md). A row of format CODE takes its
code off the accumulator (R244) and does what its class says; the DECODE step, which extracts and classifies, is
`execDecodeCode`.
-/
namespace Sys2Proof.Machine

/-- `ClearCode()` (R263). -/
def clearCode (s : State) : State :=
  { s with
    lzw := { s.lzw with
      codeSize := BitVec.ofNat 4 (s.lzw.dataSize.toNat + 1),
      codeMask := maskOf (s.lzw.dataSize.toNat + 1),
      avail := BitVec.ofNat 13 (s.lzw.clear.toNat + 2),
      oldValid := false } }

/-- `Push(v)` (R270); SP is never above 4096 (log entry 7). -/
def push (v : Byte) (s : State) : Flow Unit :=
  if Config.maxStackSize ≤ s.lzw.sp.toNat then .ended (anomaly .corruptCode s)
  else
    let s := s.setStack s.lzw.sp.toNat v
    .go () { s with lzw := { s.lzw with sp := BitVec.ofNat 13 (s.lzw.sp.toNat + 1) } }

/-- `FirstCode(code)` (R264). -/
def firstCode (code : BitVec 12) (s : State) : Flow Unit :=
  (push (s.suffixOf code.toNat) s).andThen fun _ s =>
    .go ()
      { s with lzw := { s.lzw with oldCode := code, oldValid := true, first := BitVec.ofNat 8 code.toNat } }

/-- The loop of `Unwind(c)` (R269), at most `fuel` pushes. -/
def unwindLoop : Nat → Nat → State → Flow Unit
  | 0, _, _ => .stopped .loopBound
  | fuel + 1, c, s =>
    if s.lzw.clear.toNat < c then
      (push (s.suffixOf c) s).andThen fun _ s => unwindLoop fuel (s.prefixOf c).toNat s
    else
      let v := s.suffixOf c
      push v { s with lzw := { s.lzw with first := v } }

/-- `Unwind(c)` (R269). Each turn of the loop pushes, so the stack's capacity bounds it (R149). -/
def unwind (c : Nat) (s : State) : Flow Unit := unwindLoop (Config.maxStackSize + 1) c s

/-- `AddEntry()` (R271). -/
def addEntry (s : State) : State :=
  let s := (s.setPrefix s.lzw.avail.toNat s.lzw.oldCode).setSuffix s.lzw.avail.toNat s.lzw.first
  { s with lzw := { s.lzw with avail := BitVec.ofNat 13 (s.lzw.avail.toNat + 1) } }

/-- `GrowCodeSize()` (R272). -/
def growCodeSize (s : State) : State :=
  if s.lzw.avail.toNat &&& s.lzw.codeMask.toNat = 0 ∧ s.lzw.avail.toNat < 4096 then
    { s with
      lzw := { s.lzw with
        codeSize := BitVec.ofNat 4 (s.lzw.codeSize.toNat + 1),
        codeMask := maskOf (s.lzw.codeSize.toNat + 1) } }
  else s

/-- What a KWKWK and a DICT code do after the unwind (R271 to R273). -/
def extendDictionary (code : BitVec 12) (s : State) : State :=
  let s := growCodeSize (addEntry s)
  { s with lzw := { s.lzw with oldCode := code } }

/-- `KwKwKCode(code)` (R267). -/
def kwkwkCode (code : BitVec 12) (s : State) : Flow Unit :=
  (push s.lzw.first s).andThen fun _ s =>
    (unwind s.lzw.oldCode.toNat s).andThen fun _ s => .go () (extendDictionary code s)

/-- `DictCode(code)` (R268). -/
def dictCode (code : BitVec 12) (s : State) : Flow Unit :=
  (unwind code.toNat s).andThen fun _ s => .go () (extendDictionary code s)

/-- `Classify(code)` (R260). -/
def classifyCode (code : BitVec 12) (s : State) : Flow Unit :=
  if s.lzw.avail.toNat < code.toNat then .ended (anomaly .corruptCode s)
  else if code.toNat = s.lzw.eoi.toNat then .go () { s with st := .drain }
  else if code.toNat = s.lzw.clear.toNat then .go () (clearCode s)
  else if s.lzw.oldValid = false then
    if code.toNat < s.lzw.clear.toNat then firstCode code s else .ended (anomaly .corruptCode s)
  else if s.lzw.avail.toNat = 4096 then .ended (anomaly .dictionaryOverflow s)
  else if code.toNat = s.lzw.avail.toNat then kwkwkCode code s
  else dictCode code s

/-- DECODE (R244). -/
def execDecodeCode (s : State) : Result := (classifyCode s.topCode (dropCode s)).result

/-- INVALID (R261). -/
def execInvalid (_code : BitVec 12) (s : State) : Result := .next (anomaly .corruptCode (dropCode s))

/-- EOI (R262). -/
def execEoi (_code : BitVec 12) (s : State) : Result := .next { dropCode s with st := .drain }

/-- CLEAR (R263). -/
def execClear (_code : BitVec 12) (s : State) : Result := .next (clearCode (dropCode s))

/-- FIRST (R264). -/
def execFirst (code : BitVec 12) (s : State) : Result := (firstCode code (dropCode s)).result

/-- FIRST_BAD (R265). -/
def execFirstBad (_code : BitVec 12) (s : State) : Result := .next (anomaly .corruptCode (dropCode s))

/-- FULL (R266). -/
def execFull (_code : BitVec 12) (s : State) : Result := .next (anomaly .dictionaryOverflow (dropCode s))

/-- KWKWK (R267). -/
def execKwkwk (code : BitVec 12) (s : State) : Result := (kwkwkCode code (dropCode s)).result

/-- DICT (R268). -/
def execDict (code : BitVec 12) (s : State) : Result := (dictCode code (dropCode s)).result

end Sys2Proof.Machine
end

