-- ==== Sys2Proof/Machine/Pixel.lean ====
section
/-!
DEFINITION. Pixel emit, color lookup, placement, drain and commit (spec/46_pixel_output.md), and the FINISH step
(spec/47_frame_sequence.md).
-/
namespace Sys2Proof.Machine

/-- `Lookup(idx)`: the color (R291). -/
def State.lookup (s : State) (idx : Byte) : Rgb :=
  if idx.toNat < s.activeTable.2 then s.activeTable.1 idx.toNat else Rgb.black

/-- `Lookup(idx)`: the index is not in the table, which sets W_IDX (R291). -/
def State.outsideTable (s : State) (idx : Byte) : Bool := decide (s.activeTable.2 ≤ idx.toNat)

/-- `Alpha(idx)` (R292). -/
def State.alpha (s : State) (idx : Byte) : Byte :=
  if s.ctrl.transpEn = true ∧ s.pend.valid = true ∧ idx = s.pend.idx then 0 else 255

/-- `PixelAddr()` (R293). -/
def State.pixelAddr (s : State) : Nat := s.img.base.toNat + 4 * (s.place.row.toNat * s.img.w.toNat + s.place.x.toNat)

/-- `r | g<<8 | b<<16 | a<<24` (R290). -/
def pixelValue (c : Rgb) (a : Byte) : Nat := c.r.toNat + 256 * (c.g.toNat + 256 * (c.b.toNat + 256 * a.toNat))

/-- The loop of `NextInterlacedRow()` (R296): PASS ends at 3, so three turns are enough. -/
def skipPasses (h : Nat) : Nat → BitVec 2 × BitVec 32 → BitVec 2 × BitVec 32
  | 0, p => p
  | fuel + 1, p =>
    if h ≤ p.2.toNat ∧ p.1.toNat < 3 then
      skipPasses h fuel
        (BitVec.ofNat 2 (p.1.toNat + 1), BitVec.ofNat 32 (Config.interlaceStart.getD (p.1.toNat + 1) 0))
    else p

/-- `NextInterlacedRow()` (R296). -/
def nextInterlacedRow (h : Nat) (pass : BitVec 2) (row : BitVec 32) : BitVec 2 × BitVec 32 :=
  skipPasses h 3 (pass, BitVec.ofNat 32 (row.toNat + Config.interlaceStride.getD pass.toNat 0))

/-- `Advance()` (R294). -/
def State.advancePlace (s : State) : Place :=
  if s.place.x.toNat + 1 = s.img.w.toNat then
    if s.img.il then
      let next := nextInterlacedRow s.img.h.toNat s.place.pass s.place.row
      { s.place with x := 0, pass := next.1, row := next.2 }
    else { s.place with x := 0, row := BitVec.ofNat 32 (s.place.row.toNat + 1) }
  else { s.place with x := BitVec.ofNat 16 (s.place.x.toNat + 1) }

/-- The index EMIT pops (R290). -/
def State.topIndex (s : State) : Byte := s.stackAt (s.lzw.sp.toNat - 1)

/-- EMIT (R290). A pixel outside OUTBUF, which no run produces (R90), stops the machine. -/
def execEmit (s : State) : Result :=
  if s.cfg.outCap < s.pixelAddr + 4 then .fault .outsideOutbuf
  else
    .next
      { s with
        lzw := { s.lzw with sp := BitVec.ofNat 13 (s.lzw.sp.toNat - 1) },
        status := { s.status with wIdx := s.status.wIdx || s.outsideTable s.topIndex },
        outbuf := s.outbuf.writeBytes s.pixelAddr 4 (pixelValue (s.lookup s.topIndex) (s.alpha s.topIndex)),
        place := { s.advancePlace with pix := BitVec.ofNat 32 (s.place.pix.toNat + 1) } }

/-- DRAIN (R298). -/
def execDrain (s : State) : Result :=
  if s.lzw.termSeen then .next { s with st := .commit }
  else
    ((skipSubBlocks (.anomaly .truncatedStream)
        ({ s with lzw := { s.lzw with count := 0 } }.advance s.lzw.count.toNat)).andThen fun _ s =>
      .go () { s with lzw := { s.lzw with termSeen := true }, st := .commit }).result

/-- COMMIT's record (R300), or what `Discard()` leaves (R303). -/
def commitFrame (s : State) : State :=
  if s.img.anom ≠ .none ∧ s.ctrl.policy = .discard then s
  else
    { s.setFrame s.frameCount.toNat s.frameRecord with
      frameCount := BitVec.ofNat 32 (s.frameCount.toNat + 1),
      outUsed := BitVec.ofNat 32 (s.outUsed.toNat + 4 * s.img.total.toNat) }

/-- COMMIT (R300), with `ClearPending()` (R302). -/
def execCommit (s : State) : Result :=
  .next { commitFrame s with pend := { valid := false, idx := 0 }, st := .tag }

/-- FINISH (spec/47_frame_sequence.md R330). -/
def execFinish (s : State) : Result :=
  if s.frameCount.toNat = 0 then .next (fatal .emptyResult s) else .next (complete .none s)

end Sys2Proof.Machine
end

