-- ==== Sys2Proof/Machine/Dispatch.lean ====
section
/-!
DEFINITION. What each instruction does.
-/
namespace Sys2Proof.Machine

def exec (i : Instr) (s : State) : Host.Outcome State Fault Refusal :=
  match i with
  | .cmdNone => Sys2Proof.Machine.execCmdNone s
  | .identify => Sys2Proof.Machine.execIdentify s
  | .decode => Sys2Proof.Machine.execDecode s
  | .illegalCmd op => Sys2Proof.Machine.execIllegalCmd op s
  | .sigGif87 => Sys2Proof.Machine.execSigGif87 s
  | .sigGif89 => Sys2Proof.Machine.execSigGif89 s
  | .sigInvalid => Sys2Proof.Machine.execSigInvalid s
  | .hdrShort => Sys2Proof.Machine.execHdrShort s
  | .endOfBuffer => Sys2Proof.Machine.execEndOfBuffer s
  | .extTag => Sys2Proof.Machine.execExtTag s
  | .imageTag => Sys2Proof.Machine.execImageTag s
  | .trailer => Sys2Proof.Machine.execTrailer s
  | .noise t => Sys2Proof.Machine.execNoise t s
  | .gce => Sys2Proof.Machine.execGce s
  | .otherExt l => Sys2Proof.Machine.execOtherExt l s
  | .subEnd => Sys2Proof.Machine.execSubEnd s
  | .subData len => Sys2Proof.Machine.execSubData len s
  | .dataSizeOk d => Sys2Proof.Machine.execDataSizeOk d s
  | .dataSizeBad d => Sys2Proof.Machine.execDataSizeBad d s
  | .invalid c => Sys2Proof.Machine.execInvalid c s
  | .eoi c => Sys2Proof.Machine.execEoi c s
  | .clear c => Sys2Proof.Machine.execClear c s
  | .first c => Sys2Proof.Machine.execFirst c s
  | .firstBad c => Sys2Proof.Machine.execFirstBad c s
  | .full c => Sys2Proof.Machine.execFull c s
  | .kwkwk c => Sys2Proof.Machine.execKwkwk c s
  | .dict c => Sys2Proof.Machine.execDict c s
  | .ident => Sys2Proof.Machine.execIdent s
  | .hdr => Sys2Proof.Machine.execHdr s
  | .tag => Sys2Proof.Machine.execTag s
  | .img => Sys2Proof.Machine.execImg s
  | .lzwComplete => Sys2Proof.Machine.execLzwComplete s
  | .fetchLen => Sys2Proof.Machine.execFetchLen s
  | .fetchByte => Sys2Proof.Machine.execFetchByte s
  | .decodeCode => Sys2Proof.Machine.execDecodeCode s
  | .emit => Sys2Proof.Machine.execEmit s
  | .drain => Sys2Proof.Machine.execDrain s
  | .commit => Sys2Proof.Machine.execCommit s
  | .finish => Sys2Proof.Machine.execFinish s

end Sys2Proof.Machine
end

