-- ==== Sys2Proof/Machine/Fetch.lean ====
section
/-!
DEFINITION. What the engine does next: the step it selects (spec/10_state.md R36, spec/44_bit_unpacker.md R240), and the
item of the stream that step meets, as the decoder reads it.
-/
namespace Sys2Proof.Machine

/-- The registers the choice of a step depends on. -/
abbrev State.view (s : State) : EngineView :=
  { st := s.st,
    imageDone := decide (s.place.pix = s.img.total),
    stackEmpty := decide (s.lzw.sp = 0),
    bitsShort := decide (s.lzw.bits.toNat < s.lzw.codeSize.toNat),
    countZero := decide (s.lzw.count = 0),
    label := s.extLabel }

/-- The registers a code is classified against (R118). -/
abbrev State.codeRegs (s : State) : CodeRegs :=
  { codeSize := s.lzw.codeSize, codeMask := s.lzw.codeMask, clear := s.lzw.clear, eoi := s.lzw.eoi,
    avail := s.lzw.avail, oldValid := s.lzw.oldValid }

/-- The decoder's answer as an option. -/
def accepted : Except Reject Instr → Option Instr
  | .ok i => some i
  | .error _ => none

/-- The step the engine takes; none in IDLE (R36). -/
def engineOp (s : State) : Option Instr := accepted (decode (.engine s.view) [])

/-- The bytes of INBUF from address a up to IN_LEN, at most n of them. -/
def State.streamBytes (s : State) (a n : Nat) : List Byte := s.inBytes a (min n (s.inLen.toNat - a))

/-- The item the engine meets: where it looks, and the bytes there. A code is in the accumulator, a label in
EXT_LABEL; every other item is in INBUF. -/
def State.itemPlace (s : State) : Option (Context × List Byte) :=
  match s.st with
  | .ident => some (.ident, s.streamBytes 0 5)
  | .hdr => some (.hdr, s.streamBytes 0 13)
  | .tag => some (.tag, s.streamBytes s.pos.toNat 1)
  | .ext => some (.ext, [s.extLabel])
  | .lzw =>
    match engineOp s with
    | some .fetchLen => some (.sub, s.streamBytes s.pos.toNat 1)
    | some .decodeCode => some (.code s.codeRegs, bytesOfNat 4 s.lzw.datum.toNat)
    | _ => none
  | _ => none

/-- The item of the stream the engine's next step runs, if that step is one of an item. -/
def itemAt (s : State) : Option Instr :=
  match s.itemPlace with
  | none => none
  | some p => accepted (decode p.1 p.2)

/-- INBUF with bytes stored from address a. -/
def storeBytes (m : Memory) : Nat → List Byte → Memory
  | _, [] => m
  | a, b :: bs => storeBytes (m.write a b) (a + 1) bs

end Sys2Proof.Machine
end

