-- ==== Sys2Proof/Machine/HostPort.lean ====
section
/-!
DEFINITION. What the host does to the engine: its accesses to the registers (spec/10_state.md R21 to R34) and to INBUF and OUTBUF
(spec/20_memory.md R77 to R80), and the reset input (spec/70_reset_and_hazards.md R440). A write to CMD is an instruction, so Step.lean
gives it to `exec`.
-/
namespace Sys2Proof.Machine

/-- The host registers by byte offset (R21). -/
inductive HostReg where
  | ctrl | cmd | status | inLen | frameCount | outUsed | errPos | fsel | fbase | fdim | fstat
  deriving DecidableEq, Repr

/-- The register a whole-word access at an offset reaches; none where R33 says the access is ignored. -/
def hostReg (offset : Nat) (size : AccessSize) : Option HostReg :=
  match size, offset with
  | .word, 0x00 => some .ctrl
  | .word, 0x04 => some .cmd
  | .word, 0x08 => some .status
  | .word, 0x0C => some .inLen
  | .word, 0x10 => some .frameCount
  | .word, 0x14 => some .outUsed
  | .word, 0x18 => some .errPos
  | .word, 0x1C => some .fsel
  | .word, 0x20 => some .fbase
  | .word, 0x24 => some .fdim
  | .word, 0x28 => some .fstat
  | _, _ => none

/-- The record FSEL selects, if it is one of the last DECODE's (R30 to R32). -/
def State.selectedFrame (s : State) : FrameRecord :=
  if s.fsel.toNat < s.frameCount.toNat then s.frameAt s.fsel.toNat else FrameRecord.blank

/-- FDIM (R31). -/
def FrameRecord.dimWord (f : FrameRecord) : Word := BitVec.ofNat 32 (f.w.toNat + 65536 * f.h.toNat)

/-- What a host read of a register returns, given a free value for what R34 leaves unspecified while BUSY. -/
def State.regValue (s : State) (drawn : Word) : HostReg → Word
  | .ctrl => s.ctrl.word
  | .cmd => 0
  | .status => if s.status.busy then busyStatusWord drawn else s.status.word
  | .inLen => s.inLen
  | .frameCount => if s.status.busy then drawn else s.frameCount
  | .outUsed => if s.status.busy then drawn else s.outUsed
  | .errPos => if s.status.busy then drawn else s.errPos
  | .fsel => s.fsel
  | .fbase => if s.status.busy then drawn else s.selectedFrame.base
  | .fdim => if s.status.busy then drawn else s.selectedFrame.dimWord
  | .fstat => if s.status.busy then drawn &&& 0xFFFF else s.selectedFrame.stat

/-- A host read's result stands in `readData`; each read passes one free value by. -/
def State.returned (s : State) (v : Word) : State := { s with readData := v, draws := s.draws + 1 }

/-- A host read of a register (R21 to R34). -/
def readReg (offset : Nat) (size : AccessSize) (s : State) : State :=
  match hostReg offset size with
  | none => s.returned 0
  | some r => s.returned (s.regValue (Config.freeWord s.draws) r)

/-- A host write to a register other than CMD (R21 to R29, R33). -/
def writeReg (offset : Nat) (size : AccessSize) (v : Word) (s : State) : State :=
  match hostReg offset size with
  | some .ctrl => if s.status.busy then s else { s with ctrl := .ofWord v }
  | some .status =>
    if v.getLsbD 1 = true ∧ s.status.busy = false then { s with status := { s.status with done := false } } else s
  | some .inLen => if s.status.busy then s else { s with inLen := BitVec.ofNat 32 (min v.toNat s.cfg.inCap) }
  | some .fsel => { s with fsel := v }
  | _ => s

/-- A host write to INBUF (R77). -/
def writeIn (a : Nat) (v : Byte) (s : State) : State :=
  if s.status.busy = true ∨ s.cfg.inCap ≤ a then s else { s with inbuf := s.inbuf.write a v }

/-- A host read of INBUF (R78). -/
def readIn (a : Nat) (s : State) : State :=
  s.returned (if a < s.cfg.inCap then BitVec.ofNat 32 (s.inByte a).toNat else 0)

/-- A host write to OUTBUF (R79). -/
def writeOut (a : Nat) (v : Byte) (s : State) : State :=
  if s.status.busy = true ∨ s.cfg.outCap ≤ a then s else { s with outbuf := s.outbuf.write a v }

/-- A host read of OUTBUF (R79, R80). -/
def readOut (a : Nat) (s : State) : State :=
  s.returned
    (if s.status.busy then BitVec.ofNat 32 (Config.freeByte s.draws).toNat
    else if a < s.cfg.outCap then BitVec.ofNat 32 (s.outByte a).toNat
    else 0)

/-- The reset input (R440): every piece of the engine's state at its reset value, memories and tables at contents drawn
anew (R442); the engine's parameters, and what is the host's, stay (log entry 14). -/
def resetInput (s : State) : State :=
  { State.resetWith s.cfg (s.resets + 1) with moves := s.moves, readData := s.readData, draws := s.draws }

/-- The value of a move that writes CMD (R140). -/
def commandWrite : HostMove → Option Word
  | .writeReg offset size v => if hostReg offset size = some .cmd then some v else none
  | _ => none

/-- A move of the host that is no command and no engine turn. -/
def hostMove : HostMove → State → State
  | .writeReg offset size v, s => writeReg offset size v s
  | .readReg offset size, s => readReg offset size s
  | .writeIn a v, s => writeIn a v s
  | .readIn a, s => readIn a s
  | .writeOut a v, s => writeOut a v s
  | .readOut a, s => readOut a s
  | .resetInput, s => resetInput s
  | .engineTurn, s => s

end Sys2Proof.Machine
end

