-- ==== Sys2Proof/Machine/Step.lean ====
section
/-!
DEFINITION. One step of the machine: the host's next move, or the engine's next step (spec/00_scope.md R13,
spec/10_state.md R20). `moves` says which of the two comes; every interleaving is some list of moves and turns.
-/
namespace Sys2Proof.Machine

/-- The engine's turn. In IDLE it has no step and nothing changes (R36, log entry 6). -/
def engineStep (s : State) : Host.Outcome State Fault Refusal :=
  match engineOp s with
  | none => .next s
  | some i => exec i s

/-- The host's next move, or the engine's turn when it has none pending. -/
def step (s : State) : Host.Outcome State Fault Refusal :=
  match s.moves with
  | [] => engineStep s
  | m :: ms =>
    if m = .engineTurn then engineStep { s with moves := ms }
    else
      match commandWrite m with
      | some v => exec (decodeCmd v) { s with moves := ms }
      | none => .next (hostMove m { s with moves := ms })

/-- The state with a table word where the next step meets it: a command as the host's next move, a label in EXT_LABEL,
any other item at INBUF address 0 with POS there and IN_LEN 13, in the state of the engine that reads such an item. -/
def State.withFetchWord (s : State) (nbits w : Nat) : State :=
  let placed : State :=
    { s with inbuf := storeBytes s.inbuf 0 (paddedBytes nbits w), inLen := 13, pos := 0, moves := [] }
  match tableContext nbits w with
  | none => s
  | some .cmd => { s with moves := .writeReg 0x04 .word (BitVec.ofNat 32 w) :: s.moves }
  | some .hdr => { placed with st := .hdr }
  | some .ext =>
    { s with
      inbuf := storeBytes s.inbuf 0 (List.replicate 13 0), inLen := 13, pos := 0, moves := [],
      extLabel := BitVec.ofNat 8 w, st := .ext }
  | some .sub =>
    { placed with
      st := .lzw, img := { s.img with total := 1 }, place := { s.place with pix := 0 },
      lzw := { s.lzw with sp := 0, bits := 0, codeSize := 3, count := 0 } }
  | some _ => { placed with st := .tag }

end Sys2Proof.Machine
end

