-- ==== Sys2Proof/Safety.lean ====
section
/-!
DEFINITION. What a safe run keeps: the invariants the spec derives for its engine, in the terms its claims use.
-/
namespace Sys2Proof.Machine

/-- Every table and memory is in canonical form. -/
structure CanonicalCells (s : State) : Prop where
  inbuf : Memory.wf s.inbuf
  outbuf : Memory.wf s.outbuf
  prefixTab : CellsWf s.prefixTab
  suffixTab : CellsWf s.suffixTab
  stack : CellsWf s.stack
  gct : CellsWf s.gct
  lct : CellsWf s.lct
  ft : CellsWf s.ft

/-- The host registers agree with the engine: R9, R25, R26, R27, R24 with R36, and DONE = 0 while BUSY (R147). -/
structure HostRegsSound (s : State) : Prop where
  cfgOk : s.cfg.ok
  inLenFits : s.inLen.toNat ≤ s.cfg.inCap
  outUsedFits : s.outUsed.toNat ≤ s.cfg.outCap
  frameCountFits : s.frameCount.toNat ≤ s.cfg.maxFrames
  busyIffStep : s.status.busy = true ↔ s.st ≠ .idle
  busyNotDone : s.status.busy = true → s.status.done = false

/-- The states of the engine between an image's set-up and its commit. -/
def inImage : EngineState → Bool
  | .lzw | .drain | .commit => true
  | _ => false

/-- The cursor: R37 (POS never exceeds IN_LEN), R162 (POS = 0 in HDR), and what R242 checked of the current sub-block. -/
structure CursorSound (s : State) : Prop where
  posFits : s.st ≠ .idle → s.st ≠ .ident → s.pos.toNat ≤ s.inLen.toNat
  headerAtZero : s.st = .hdr → s.pos = 0
  subBlockPresent : s.st = .lzw ∨ s.st = .drain → s.lzw.termSeen = false →
    s.pos.toNat + s.lzw.count.toNat ≤ s.inLen.toNat
  streamOpen : s.st = .lzw → s.lzw.termSeen = false

/-- The current image has a record and its bytes (R215, R216, R300). -/
structure FrameReserved (s : State) : Prop where
  recordLeft : s.frameCount.toNat < s.cfg.maxFrames
  baseIsUsed : s.img.base = s.outUsed
  totalIsArea : s.img.total.toNat = s.img.w.toNat * s.img.h.toNat
  bytesFit : s.usedBytes + 4 * s.img.total.toNat ≤ s.cfg.outCap
  pixFits : s.place.pix.toNat ≤ s.img.total.toNat

/-- The rows of pass p in a frame of height h: `start, start + stride, ... < h` (R297). -/
def passRows (h p : Nat) : List Nat :=
  (List.range h).filter fun r =>
    decide (Config.interlaceStart.getD p 0 ≤ r ∧ (r - Config.interlaceStart.getD p 0) % Config.interlaceStride.getD p 1 = 0)

/-- D_H as a list: the rows of pass 0, then of pass 1, 2 and 3 (R297). -/
def displayRows (h : Nat) : List Nat := passRows h 0 ++ passRows h 1 ++ passRows h 2 ++ passRows h 3

/-- PASS and ROW after k rows of an interlaced image of height h, from PASS = 0, ROW = 0 (R216, R296). -/
def interlacedPlace (h : Nat) : Nat → BitVec 2 × BitVec 32
  | 0 => (0, 0)
  | k + 1 => nextInterlacedRow h (interlacedPlace h k).1 (interlacedPlace h k).2

/-- Placement (R293 to R297): PIX pixels have been produced, so `PIX / IMG_W` whole rows, and ROW and PASS are those of
the next row. -/
structure PlaceSound (s : State) : Prop where
  column : s.place.x.toNat = s.place.pix.toNat % s.img.w.toNat
  sequentialRow : s.img.il = false → s.place.row.toNat = s.place.pix.toNat / s.img.w.toNat
  interlacedRow : s.img.il = true →
    (s.place.pass, s.place.row) = interlacedPlace s.img.h.toNat (s.place.pix.toNat / s.img.w.toNat)

/-- The decoder's registers and dictionary in an image (R274, R245). -/
structure DictionarySound (s : State) : Prop where
  dataSize : 2 ≤ s.lzw.dataSize.toNat ∧ s.lzw.dataSize.toNat ≤ 8
  clear : s.lzw.clear.toNat = 2 ^ s.lzw.dataSize.toNat
  eoi : s.lzw.eoi.toNat = s.lzw.clear.toNat + 1
  codeSize : 3 ≤ s.lzw.codeSize.toNat ∧ s.lzw.codeSize.toNat ≤ 12
  codeMask : s.lzw.codeMask.toNat = 2 ^ s.lzw.codeSize.toNat - 1
  availLow : s.lzw.clear.toNat + 2 ≤ s.lzw.avail.toNat
  availHigh : s.lzw.avail.toNat < 2 ^ s.lzw.codeSize.toNat ∨
    s.lzw.avail.toNat = 4096 ∧ s.lzw.codeSize.toNat = 12
  fresh : s.lzw.oldValid = false → s.lzw.avail.toNat = s.lzw.clear.toNat + 2
  literals : ∀ c < s.lzw.clear.toNat, (s.suffixOf c).toNat = c
  entries : ∀ x < s.lzw.avail.toNat, s.lzw.clear.toNat + 2 ≤ x →
    (s.prefixOf x).toNat < x ∧ (s.prefixOf x).toNat ≠ s.lzw.clear.toNat ∧ (s.prefixOf x).toNat ≠ s.lzw.eoi.toNat ∧
    (s.suffixOf x).toNat < s.lzw.clear.toNat
  oldCode : s.lzw.oldValid = true →
    s.lzw.oldCode.toNat < s.lzw.avail.toNat ∧ s.lzw.oldCode.toNat ≠ s.lzw.clear.toNat ∧
    s.lzw.oldCode.toNat ≠ s.lzw.eoi.toNat
  first : s.lzw.first.toNat < s.lzw.clear.toNat
  stackDepth : s.lzw.sp.toNat ≤ 4091
  stackIndices : ∀ i < s.lzw.sp.toNat, (s.stackAt i).toNat < s.lzw.clear.toNat
  datum : s.lzw.datum.toNat < 2 ^ s.lzw.bits.toNat
  bits : s.lzw.bits.toNat ≤ 19

/-- What every state of a run satisfies. -/
structure Inv (s : State) : Prop where
  cells : CanonicalCells s
  host : HostRegsSound s
  cursor : CursorSound s
  frame : inImage s.st = true → FrameReserved s
  place : s.st = .lzw → PlaceSound s
  dictionary : s.st = .lzw → DictionarySound s

/-- The frames of a DECODE are packed from address 0 without gaps, inside OUTBUF, and OUT_USED is the sum of their bytes
(R27, R82). The 32 bits of BASE and OUT_USED fall short of an address or sum of 2^32, which only a full OUTBUF of 2^32
bytes reaches (log entry 8). -/
structure FramesPacked (s : State) : Prop where
  bases : ∀ k < s.frameCount.toNat, (s.frameAt k).base.toNat = s.bytesBefore k % 2 ^ 32
  used : s.outUsed.toNat = s.bytesBefore s.frameCount.toNat % 2 ^ 32
  fits : s.bytesBefore s.frameCount.toNat ≤ s.cfg.outCap

/-- The string of code c, first index first: following PREFIX from c down to a literal, at most `fuel` codes long
(spec/45_lzw_codes.md R269). -/
def State.codeString (s : State) : Nat → Nat → List Byte
  | 0, _ => []
  | fuel + 1, c =>
    if s.lzw.clear.toNat < c then s.codeString fuel (s.prefixOf c).toNat ++ [s.suffixOf c] else [s.suffixOf c]

/-- The string of code c, of any length a dictionary can hold. -/
def State.stringOf (s : State) (c : Nat) : List Byte := s.codeString Config.maxStackSize c

/-- The pixel stack from its top: the order EMIT pops in. -/
def State.stackTopDown (s : State) : List Byte :=
  (List.range s.lzw.sp.toNat).reverse.map s.stackAt

/-- The stream from address a holds the sub-blocks with these data bytes and then the zero-length one, all below
IN_LEN (spec/30_encoding.md R106). -/
def State.holdsSubBlocks (s : State) (a : Nat) (groups : List (List Byte)) : Prop :=
  (∀ g ∈ groups, g ≠ [] ∧ g.length ≤ 255) ∧
  a + (groups.flatMap subBlock ++ [0]).length ≤ s.inLen.toNat ∧
  s.inBytes a (groups.flatMap subBlock ++ [0]).length = groups.flatMap subBlock ++ [0]

/-- The stream from address a holds whole sub-blocks with these data bytes, and there the next one is cut: its length
byte is missing, or claims more bytes than remain. `at_` is where the raise of R186 finds POS. -/
def State.cutsSubBlocks (s : State) (a : Nat) (groups : List (List Byte)) (at_ : Nat) : Prop :=
  (∀ g ∈ groups, g ≠ [] ∧ g.length ≤ 255) ∧
  a + (groups.flatMap subBlock).length ≤ s.inLen.toNat ∧
  s.inBytes a (groups.flatMap subBlock).length = groups.flatMap subBlock ∧
  (a + (groups.flatMap subBlock).length = s.inLen.toNat ∧ at_ = s.inLen.toNat ∨
    a + (groups.flatMap subBlock).length < s.inLen.toNat ∧
    at_ = a + (groups.flatMap subBlock).length + 1 ∧
    s.inLen.toNat < at_ + (s.inByte (a + (groups.flatMap subBlock).length)).toNat)

end Sys2Proof.Machine
end

