-- ==== Sys2Proof/Certificates/Slice0/Obligations.lean ====
section
/-!
DEFINITION. The statements for the provers, in the order of OBLIGATIONS.json.
-/

open Sys2Proof Sys2Proof.Machine

/-! ### Decoding -/

/-- R113 to R118: words written out from the spec's encodings decode to what they stand for: the DECODE command, the
tags `!`, `,` and `;`, the graphic-control label, the zero length byte, DATA_SIZE 8, `GIF89` with a whole header, and
code 6 of the byte 0x8E at width 3 (KWKWK at AVAIL 6). -/
def Obligations.DecodesWrittenWords : Prop :=
  decode .cmd [0x02, 0x00, 0x00, 0x00] = .ok .decode ∧
  decode .cmd [0x03, 0x00, 0x00, 0x80] = .ok (.illegalCmd 0x80000003) ∧
  decode .hdr [0x47, 0x49, 0x46, 0x38, 0x39, 0x61, 2, 0, 2, 0, 0x80, 0, 0] = .ok .sigGif89 ∧
  decode .hdr [0x47, 0x49, 0x46, 0x38, 0x37, 0x61] = .ok .hdrShort ∧
  decode .tag [0x21] = .ok .extTag ∧ decode .tag [0x2C] = .ok .imageTag ∧ decode .tag [0x3B] = .ok .trailer ∧
  decode .tag [0x00] = .ok (.noise 0x00) ∧
  decode .ext [0xF9] = .ok .gce ∧ decode .ext [0xFE] = .ok (.otherExt 0xFE) ∧
  decode .sub [0x00] = .ok .subEnd ∧ decode .sub [0xFF] = .ok (.subData 0xFF) ∧
  decode .lzws [0x08] = .ok (.dataSizeOk 8) ∧ decode .lzws [0x09] = .ok (.dataSizeBad 9) ∧
  decode (.code { codeSize := 3, codeMask := 7, clear := 4, eoi := 5, avail := 6, oldValid := true }) [0x8E] =
    .ok (.kwkwk 6)

/-- Decoding what `encode` writes gives the instruction back, for every instruction at every place it fits. -/
def Obligations.DecodeAfterEncode : Prop :=
  ∀ (c : Context) (i : Instr), i.fits c = true → decode c (encode c i) = .ok i

/-- Whatever the decoder accepts fits the place it was read at, so no reserved or illegal byte falls through to a
neighbouring row. For a code, AVAIL is at most 4096 (R38). -/
def Obligations.DecodedInstructionFits : Prop :=
  ∀ (c : Context) (bs : List Byte) (i : Instr),
    (∀ r, c = .code r → r.avail.toNat ≤ 4096) → decode c bs = .ok i → i.fits c = true

/-- The other direction, where a byte or word has one meaning: encoding what was decoded gives the byte or the four
command bytes back. -/
def Obligations.EncodeAfterDecode : Prop :=
  (∀ (c : Context) (b : Byte) (rest : List Byte) (i : Instr),
    c = .tag ∨ c = .ext ∨ c = .sub ∨ c = .lzws → decode c (b :: rest) = .ok i → encode c i = [b]) ∧
  (∀ (b0 b1 b2 b3 : Byte) (rest : List Byte) (i : Instr),
    decode .cmd (b0 :: b1 :: b2 :: b3 :: rest) = .ok i → encode .cmd i = [b0, b1, b2, b3])

/-- The code that an instruction of format CODE carries. -/
def codeOf : Instr → Option (BitVec 12)
  | .invalid c | .eoi c | .clear c | .first c | .firstBad c | .full c | .kwkwk c | .dict c => some c
  | _ => none

/-- R118: the classes are exhaustive and exclusive: a code that CODE_MASK keeps whole belongs to exactly one class. -/
def Obligations.CodeClassesPartition : Prop :=
  ∀ (r : CodeRegs) (c : BitVec 12), c &&& r.codeMask = c → r.avail.toNat ≤ 4096 →
    ∃! i : Instr, i.fitsCode r = true ∧ codeOf i = some c

/-! ### The step -/

/-- A step with no host move pending, or with the engine's turn next, runs the selected engine step; a host write to
CMD runs the command its value decodes to. In IDLE the spec gives the engine no step; that the model's step then
answers the same state is the model's choice (log entry 6), as is the list of moves (log entry 10). -/
def Obligations.StepRunsSelected : Prop :=
  (∀ (s : State) (i : Instr), s.moves = [] → engineOp s = some i → step s = exec i s) ∧
  (∀ (s : State) (ms : List HostMove) (i : Instr), s.moves = .engineTurn :: ms →
    engineOp { s with moves := ms } = some i → step s = exec i { s with moves := ms }) ∧
  (∀ (s : State) (ms : List HostMove) (v : Word), s.moves = .writeReg 0x04 .word v :: ms →
    step s = exec (decodeCmd v) { s with moves := ms }) ∧
  (∀ s : State, s.st = .idle → s.moves = [] → step s = .next s)

/-- When the bytes where the engine reads next decode to an item of the stream, the step is that item's `exec`:
signatures, tags, labels, length bytes of a code stream and codes. -/
def Obligations.StepRunsDecodedItem : Prop :=
  ∀ (s : State) (i : Instr), s.moves = [] → itemAt s = some i → step s = exec i s

/-- R36, R240: the engine's next step is the one ST names, and in LZW the first of the five whose condition holds; in
IDLE there is none. -/
def Obligations.EngineStepSelection : Prop :=
  ∀ s : State,
    (s.st = .idle → engineOp s = none) ∧
    (s.st = .ident → engineOp s = some .ident) ∧
    (s.st = .hdr → engineOp s = some .hdr) ∧
    (s.st = .tag → engineOp s = some .tag) ∧
    (s.st = .ext → engineOp s = some (if s.extLabel = 0xF9 then .gce else .otherExt s.extLabel)) ∧
    (s.st = .img → engineOp s = some .img) ∧
    (s.st = .lzw →
      (s.place.pix = s.img.total → engineOp s = some .lzwComplete) ∧
      (s.place.pix ≠ s.img.total → 0 < s.lzw.sp.toNat → engineOp s = some .emit) ∧
      (s.place.pix ≠ s.img.total → s.lzw.sp = 0 → s.lzw.bits.toNat < s.lzw.codeSize.toNat → s.lzw.count = 0 →
        engineOp s = some .fetchLen) ∧
      (s.place.pix ≠ s.img.total → s.lzw.sp = 0 → s.lzw.bits.toNat < s.lzw.codeSize.toNat → s.lzw.count ≠ 0 →
        engineOp s = some .fetchByte) ∧
      (s.place.pix ≠ s.img.total → s.lzw.sp = 0 → s.lzw.codeSize.toNat ≤ s.lzw.bits.toNat →
        engineOp s = some .decodeCode)) ∧
    (s.st = .drain → engineOp s = some .drain) ∧
    (s.st = .commit → engineOp s = some .commit) ∧
    (s.st = .finish → engineOp s = some .finish)

/-! ### Reset and the host's accesses -/

/-- R440, R48: the reset input, whatever the engine is doing, gives the reset values: CTRL 4, STATUS 0, the other host
registers 0, IRQ 0, ST = IDLE, POS 0 and no visible frame record; so does the machine's own reset state. -/
def Obligations.ResetValues : Prop :=
  (∀ (s : State) (ms : List HostMove), s.moves = .resetInput :: ms →
    ∃ t, step s = .next t ∧ t.moves = ms ∧ t.cfg = s.cfg ∧
      t.ctrl.word = 0x4 ∧ t.status.word = 0 ∧ t.inLen = 0 ∧ t.frameCount = 0 ∧ t.outUsed = 0 ∧ t.errPos = 0 ∧
      t.fsel = 0 ∧ t.irq = false ∧ t.st = .idle ∧ t.pos = 0 ∧ t.selectedFrame = FrameRecord.blank) ∧
  State.reset.ctrl.word = 0x4 ∧ State.reset.status.word = 0 ∧ State.reset.inLen = 0 ∧ State.reset.frameCount = 0 ∧
  State.reset.outUsed = 0 ∧ State.reset.errPos = 0 ∧ State.reset.fsel = 0 ∧ State.reset.irq = false ∧
  State.reset.st = .idle ∧ State.reset.pos = 0

/-- R22: a write to CTRL while idle stores bit 0, bit 3 and POLICY, where 3 is stored as 2; read back, every other bit
is 0. While BUSY the write is ignored. -/
def Obligations.CtrlWriteReadBack : Prop :=
  ∀ (s : State) (ms : List HostMove) (v : Word), s.moves = .writeReg 0x00 .word v :: ms →
    (s.status.busy = true → step s = .next { s with moves := ms }) ∧
    (s.status.busy = false →
      ∃ t, step s = .next t ∧ t = { s with moves := ms, ctrl := t.ctrl } ∧
        t.ctrl.word = (v &&& 0x9) ||| (if v &&& 0x6 = 0x6 then 0x4 else v &&& 0x6))

/-- R24, R35: a write to STATUS changes only DONE, and only when bit 1 is written 1 and BUSY = 0; IRQ is
`STATUS.DONE & CTRL.IRQ_EN`, before and after. -/
def Obligations.StatusWriteClearsDone : Prop :=
  ∀ (s : State) (ms : List HostMove) (v : Word), s.moves = .writeReg 0x08 .word v :: ms →
    s.irq = (s.status.done && s.ctrl.irqEn) ∧
    ∃ t, step s = .next t ∧
      t = { s with
        moves := ms,
        status := { s.status with
          done := if v.getLsbD 1 = true ∧ s.status.busy = false then false else s.status.done } } ∧
      t.irq = (t.status.done && s.ctrl.irqEn)

/-- R25, R29: a write to IN_LEN while idle stores the smaller of the value and IN_CAP; FSEL may be written at any time. -/
def Obligations.InLenAndFselWrites : Prop :=
  ∀ (s : State) (ms : List HostMove) (v : Word), s.cfg.ok →
    (s.moves = .writeReg 0x0C .word v :: ms → s.status.busy = false →
      ∃ t, step s = .next t ∧ t = { s with moves := ms, inLen := t.inLen } ∧
        t.inLen.toNat = min v.toNat s.cfg.inCap) ∧
    (s.moves = .writeReg 0x1C .word v :: ms → step s = .next { s with moves := ms, fsel := v })

/-- R22 to R32: what each register reads as: CTRL, CMD, IN_LEN and FSEL at any time, the others while BUSY = 0. -/
def Obligations.RegisterReads : Prop :=
  ∀ (s : State) (ms : List HostMove) (r : Nat) (v : Word), s.moves = .readReg r .word :: ms →
    (r, v) ∈ [(0x00, s.ctrl.word), (0x04, 0), (0x0C, s.inLen), (0x1C, s.fsel)] ∨
    s.status.busy = false ∧ (r, v) ∈
      [(0x08, s.status.word), (0x10, s.frameCount), (0x14, s.outUsed), (0x18, s.errPos),
        (0x20, if s.fsel.toNat < s.frameCount.toNat then (s.frameAt s.fsel.toNat).base else 0),
        (0x24, if s.fsel.toNat < s.frameCount.toNat then
          (s.frameAt s.fsel.toNat).h ++ (s.frameAt s.fsel.toNat).w else 0),
        (0x28, if s.fsel.toNat < s.frameCount.toNat then (s.frameAt s.fsel.toNat).stat else 0)] →
    step s = .next { s with moves := ms, readData := v, draws := s.draws + 1 }

/-- R34: a read of STATUS while BUSY returns BUSY = 1 and DONE = 0, with its reserved bits 0 (R24), whatever value is
drawn for the other fields. -/
def Obligations.BusyStatusRead : Prop :=
  ∀ (s : State) (ms : List HostMove), s.status.busy = true → s.moves = .readReg 0x08 .word :: ms →
    ∃ t, step s = .next t ∧ t = { s with moves := ms, readData := t.readData, draws := t.draws } ∧
      t.readData.getLsbD 0 = true ∧ t.readData.getLsbD 1 = false ∧ t.readData.getLsbD 3 = false ∧
      ∀ k, 10 ≤ k → t.readData.getLsbD k = false

/-- R33: an access at an offset that is not listed, not a multiple of 4, or narrower than 32 bits reads 0 and is
ignored on write. -/
def Obligations.BadRegisterAccess : Prop :=
  ∀ (s : State) (ms : List HostMove) (offset : Nat) (size : AccessSize) (v : Word),
    (0x2C ≤ offset ∨ offset % 4 ≠ 0 ∨ size ≠ .word) →
    (s.moves = .writeReg offset size v :: ms → step s = .next { s with moves := ms }) ∧
    (s.moves = .readReg offset size :: ms →
      step s = .next { s with moves := ms, readData := 0, draws := s.draws + 1 })

/-- R77, R78, R79: a byte the host writes to INBUF or OUTBUF while idle is what it reads back there, every other byte
is as before, and an address at or above the capacity is ignored on write and reads 0. INBUF reads so at any time. -/
def Obligations.HostMemoryAccess : Prop :=
  ∀ (s : State) (ms : List HostMove) (a : Nat) (v : Byte),
    (s.moves = .readIn a :: ms →
      step s = .next { s with
        moves := ms, readData := if a < s.cfg.inCap then (s.inByte a).zeroExtend 32 else 0, draws := s.draws + 1 }) ∧
    (s.status.busy = false →
      (s.moves = .writeIn a v :: ms →
        ∃ t, step s = .next t ∧ t = { s with moves := ms, inbuf := t.inbuf } ∧
          ∀ b, t.inByte b = if b = a ∧ a < s.cfg.inCap then v else s.inByte b) ∧
      (s.moves = .writeOut a v :: ms →
        ∃ t, step s = .next t ∧ t = { s with moves := ms, outbuf := t.outbuf } ∧
          ∀ b, t.outByte b = if b = a ∧ a < s.cfg.outCap then v else s.outByte b) ∧
      (s.moves = .readOut a :: ms →
        step s = .next { s with
          moves := ms, readData := if a < s.cfg.outCap then (s.outByte a).zeroExtend 32 else 0,
          draws := s.draws + 1 }))

/-- R446, R447, R448: while BUSY, no register or memory access of the host changes anything but FSEL and what the
host itself holds (its next moves and its last read). -/
def Obligations.BusyHostCannotInterfere : Prop :=
  ∀ (s : State) (m : HostMove) (ms : List HostMove), s.status.busy = true → s.moves = m :: ms →
    m ≠ .resetInput → m ≠ .engineTurn →
    ∃ t, step s = .next t ∧
      t = { s with moves := ms, fsel := t.fsel, readData := t.readData, draws := t.draws } ∧
      ((∀ v, m ≠ .writeReg 0x1C .word v) → t.fsel = s.fsel)

/-! ### Host commands and IDENTIFY -/

/-- R140, R141: NONE changes nothing, busy or not, and any other command written while BUSY is ignored. -/
def Obligations.IgnoredCommands : Prop :=
  ∀ s : State, exec .cmdNone s = .next s ∧
    (s.status.busy = true →
      exec .identify s = .next s ∧ exec .decode s = .next s ∧ ∀ op, exec (.illegalCmd op) s = .next s)

/-- R142, R143, R147: IDENTIFY clears the previous outcome and goes to IDENT; DECODE also clears the cursor, the frame
count, OUT_USED and the pending state, and goes to HDR. Neither changes anything else. -/
def Obligations.CommandsStart : Prop :=
  ∀ s : State, s.status.busy = false →
    exec .identify s = .next
      { s with
        status :=
          { busy := true, done := false, idMatch := false, err := .none, wIdx := false, wAnom := false },
        errPos := 0, st := .ident } ∧
    exec .decode s = .next
      { s with
        status :=
          { busy := true, done := false, idMatch := false, err := .none, wIdx := false, wAnom := false },
        errPos := 0, pos := 0, frameCount := 0, outUsed := 0, pend := { valid := false, idx := 0 }, st := .hdr }

/-- R144: any other command value ends at once with IllegalCommand: STATUS reads 0x72, ERR_POS 0, and FRAME_COUNT,
OUT_USED, the frame records and OUTBUF are as before. -/
def Obligations.IllegalCommandCompletes : Prop :=
  ∀ (s : State) (op : Word), s.status.busy = false →
    ∃ t, exec (.illegalCmd op) s = .next t ∧
      t = { s with
        status :=
          { busy := false, done := true, idMatch := false, err := .illegalCommand, wIdx := false, wAnom := false },
        errPos := 0, st := .idle } ∧
      t.status.word = 0x72 ∧ t.irq = s.ctrl.irqEn

/-- The first five bytes of INBUF are `GIF87` or `GIF89` and are all below IN_LEN (R161). -/
def goodSignature (s : State) : Prop :=
  5 ≤ s.inLen.toNat ∧ s.inByte 0 = 0x47 ∧ s.inByte 1 = 0x49 ∧ s.inByte 2 = 0x46 ∧ s.inByte 3 = 0x38 ∧
    (s.inByte 4 = 0x37 ∨ s.inByte 4 = 0x39)

/-- R145, R161: IDENT sets ID_MATCH exactly when the signature is good, completes without error, and changes nothing
else: not POS, FRAME_COUNT, OUT_USED or a frame. By rows, in IDENT: either signature gives ID_MATCH = 1, any other bytes
ID_MATCH = 0. -/
def Obligations.IdentifyChecksSignature : Prop :=
  ∀ s : State,
    let identified (good : Bool) : State :=
      { s with status := { s.status with idMatch := good, err := .none, busy := false, done := true }, st := .idle }
    (goodSignature s → exec .ident s = .next (identified true)) ∧
    (¬ goodSignature s → exec .ident s = .next (identified false)) ∧
    (s.st = .ident →
      exec .sigGif87 s = .next (identified true) ∧ exec .sigGif89 s = .next (identified true) ∧
      exec .sigInvalid s = .next (identified false))

/-! ### Errors and anomalies -/

/-- R404, R412: `Fatal(k)` saves POS in ERR_POS, sets ERR, clears BUSY, sets DONE, goes to IDLE, and changes nothing
else. -/
def Obligations.FatalEndsCommand : Prop :=
  ∀ (k : ErrKind) (s : State),
    raise (.fatal k) s =
      { s with
        errPos := s.pos, status := { s.status with err := k, busy := false, done := true }, st := .idle }

/-- R405 to R408: under ABORT an anomaly is the fatal error of its kind. Under KEEP and DISCARD it records the kind if
it is the image's first, ERR_POS if it is the command's first, sets W_ANOM and empties the stack; a truncation puts POS
at IN_LEN and goes to COMMIT, another kind goes to DRAIN. -/
def Obligations.AnomalyFollowsPolicy : Prop :=
  ∀ (k : ErrKind) (s : State),
    (s.ctrl.policy = .abort → raise (.anomaly k) s = raise (.fatal k) s) ∧
    (s.ctrl.policy ≠ .abort →
      ∃ t, raise (.anomaly k) s = t ∧
        t.img = { s.img with anom := if s.img.anom = .none then k else s.img.anom } ∧
        t.errPos = (if s.status.wAnom = true then s.errPos else s.pos) ∧
        t.status = { s.status with wAnom := true } ∧
        t.lzw.sp = 0 ∧
        (k = .truncatedStream → t.pos = s.inLen ∧ t.lzw.termSeen = true ∧ t.st = .commit) ∧
        (k ≠ .truncatedStream → t.pos = s.pos ∧ t.lzw.termSeen = s.lzw.termSeen ∧ t.st = .drain) ∧
        t = { s with
          img := t.img, errPos := t.errPos, status := t.status, pos := t.pos, st := t.st,
          lzw := { s.lzw with sp := 0, termSeen := t.lzw.termSeen } })

/-- R408: under ABORT no instruction sets W_ANOM or records an anomaly in the image: either is as before, or cleared. -/
def Obligations.AbortRecordsNoAnomaly : Prop :=
  ∀ (i : Instr) (s t : State), s.ctrl.policy = .abort → exec i s = .next t →
    (t.status.wAnom = true → s.status.wAnom = true) ∧ (t.img.anom = .none ∨ t.img.anom = s.img.anom)

/-- R402: when a step ends a command with an error, ERR_POS is the POS it leaves. An illegal command is the one error
raised with no POS of its own: there ERR_POS is 0 (R144). -/
def Obligations.ErrorPositionIsPos : Prop :=
  ∀ (i : Instr) (s t : State), s.st ≠ .idle → (∀ op, i ≠ .illegalCmd op) → exec i s = .next t → t.st = .idle →
    t.status.busy = false ∧ t.status.done = true ∧ (t.status.err ≠ .none → t.errPos = t.pos)

/-! ### Header -/

/-- R164 to R167: HDR with a good header reads the packed byte. Without a table it sets GCT_SIZE 0 and POS 13; with a
table of n = 2^(f+1) entries whose bytes are all there, it loads them, sets GCT_SIZE n and POS 13 + 3n; in both cases it
goes to TAG. A table that is cut is the fatal error TruncatedStream with POS 13, and no entry is written. -/
def Obligations.HeaderReadsGlobalTable : Prop :=
  ∀ s : State, goodSignature s → 13 ≤ s.inLen.toNat →
    let n := 2 ^ ((s.inByte 10 &&& 0x07).toNat + 1)
    (s.inByte 10 &&& 0x80 = 0 → exec .hdr s = .next { s with pos := 13, gctSize := 0, st := .tag }) ∧
    (s.inByte 10 &&& 0x80 ≠ 0 → 13 + 3 * n ≤ s.inLen.toNat →
      ∃ t, exec .hdr s = .next t ∧
        t = { s with pos := t.pos, gctSize := t.gctSize, gct := t.gct, st := .tag } ∧
        t.pos.toNat = 13 + 3 * n ∧ t.gctSize.toNat = n ∧
        (∀ e < n, t.gctAt e =
          { r := s.inByte (13 + 3 * e), g := s.inByte (13 + 3 * e + 1), b := s.inByte (13 + 3 * e + 2) }) ∧
        (∀ e, n ≤ e → t.gctAt e = s.gctAt e)) ∧
    (s.inByte 10 &&& 0x80 ≠ 0 → s.inLen.toNat < 13 + 3 * n →
      exec .hdr s = .next (fatal .truncatedStream { s with pos := 13 }))

/-- R162, R163: HDR without a good signature, or with one in fewer than 13 bytes, is the fatal error InvalidHeader, whose
position is 0 in every state of a run. By rows: each row of format SIG in HDR is the HDR step on a stream that begins so. -/
def Obligations.BadHeaderIsFatal : Prop :=
  ∀ s : State, (¬ goodSignature s ∨ s.inLen.toNat < 13 → exec .hdr s = .next (fatal .invalidHeader s)) ∧
    (s.st = .hdr →
      (goodSignature s → 13 ≤ s.inLen.toNat →
        exec .sigGif87 s = exec .hdr s ∧ exec .sigGif89 s = exec .hdr s) ∧
      (s.inLen.toNat < 13 → exec .sigGif87 s = .next (fatal .invalidHeader s) ∧
        exec .sigGif89 s = .next (fatal .invalidHeader s)) ∧
      exec .sigInvalid s = .next (fatal .invalidHeader s) ∧ exec .hdrShort s = .next (fatal .invalidHeader s)) ∧
    (Inv s → s.st = .hdr → (fatal .invalidHeader s).errPos = 0)

/-! ### Block stream -/

/-- R181 to R185 by rows: END_OF_BUFFER goes to FINISH and reads nothing; IMAGE_TAG, TRAILER and NOISE consume one byte,
EXT_TAG two, the second into EXT_LABEL; each goes to its state, NOISE staying. -/
def Obligations.TagRows : Prop :=
  ∀ s : State,
    exec .endOfBuffer s = .next { s with st := .finish } ∧
    (s.pos.toNat < s.inLen.toNat →
      exec .imageTag s = .next { s with pos := s.pos + 1, st := .img } ∧
      exec .trailer s = .next { s with pos := s.pos + 1, st := .finish } ∧
      ∀ t, exec (.noise t) s = .next { s with pos := s.pos + 1 }) ∧
    (s.pos.toNat + 1 < s.inLen.toNat →
      exec .extTag s = .next { s with pos := s.pos + 2, extLabel := s.inByte (s.pos.toNat + 1), st := .ext }) ∧
    (s.pos.toNat + 1 = s.inLen.toNat →
      exec .extTag s = .next (fatal .truncatedStream { s with pos := s.inLen }))

/-- R180: the TAG step goes to FINISH at the end of the buffer, and else does what the byte at POS says. -/
def Obligations.TagStepDispatches : Prop :=
  ∀ s : State,
    (s.inLen.toNat ≤ s.pos.toNat → exec .tag s = .next { s with st := .finish }) ∧
    (s.pos.toNat < s.inLen.toNat → s.inByte s.pos.toNat = 0x2C →
      exec .tag s = .next { s with pos := s.pos + 1, st := .img }) ∧
    (s.pos.toNat < s.inLen.toNat → s.inByte s.pos.toNat = 0x3B →
      exec .tag s = .next { s with pos := s.pos + 1, st := .finish }) ∧
    (s.pos.toNat < s.inLen.toNat → s.inByte s.pos.toNat = 0x21 → exec .tag s = exec .extTag s) ∧
    (s.pos.toNat < s.inLen.toNat → s.inByte s.pos.toNat ∉ [0x21, 0x2C, 0x3B] →
      exec .tag s = .next { s with pos := s.pos + 1 })

/-- R106, R186: from any place up to IN_LEN the stream either holds sub-blocks up to a zero-length one, or is cut. -/
def Obligations.SubBlocksEndOrAreCut : Prop :=
  ∀ (s : State) (a : Nat), a ≤ s.inLen.toNat →
    (∃ groups, s.holdsSubBlocks a groups) ∨ (∃ groups p, s.cutsSubBlocks a groups p)

/-- R187: any extension but the graphic-control one skips its sub-blocks, changing POS and ST only; cut, it is the
fatal error TruncatedStream where the missing or overlong length is found. -/
def Obligations.OtherExtensionSkips : Prop :=
  ∀ (s : State) (label : Byte) (groups : List (List Byte)),
    (s.holdsSubBlocks s.pos.toNat groups →
      exec (.otherExt label) s = .next
        { s with pos := s.pos + BitVec.ofNat 32 (groups.flatMap subBlock ++ [0]).length, st := .tag }) ∧
    (∀ p, s.cutsSubBlocks s.pos.toNat groups p →
      exec (.otherExt label) s = .next (fatal .truncatedStream { s with pos := BitVec.ofNat 32 p }))

/-- The pending state that the first group of a graphic-control extension carries (R188, R189). -/
def carried : List (List Byte) → Pending
  | (flags :: _ :: _ :: idx :: _) :: _ => if flags &&& 1 = 1 then ⟨true, idx⟩ else ⟨false, 0⟩
  | _ => ⟨false, 0⟩

/-- R188, R189: a graphic-control extension sets the pending state from data bytes 0 and 3 of its first sub-block, if
that has at least 4 bytes, and to none otherwise; it skips the rest. Cut, it is the fatal error TruncatedStream. -/
def Obligations.GraphicControlSetsPending : Prop :=
  ∀ (s : State) (groups : List (List Byte)),
    (s.holdsSubBlocks s.pos.toNat groups →
      exec .gce s = .next
        { s with
          pend := carried groups,
          pos := s.pos + BitVec.ofNat 32 (groups.flatMap subBlock ++ [0]).length, st := .tag }) ∧
    (∀ p, s.cutsSubBlocks s.pos.toNat groups p →
      exec .gce s = .next
        (fatal .truncatedStream { s with pend := carried groups, pos := BitVec.ofNat 32 p }))

/-- R190, R222, R302: the pending state is changed by nothing but a graphic-control extension, the start of DECODE and
a commit. -/
def Obligations.PendingChangesOnlyThere : Prop :=
  ∀ (i : Instr) (s t : State), exec i s = .next t → i ≠ .gce → i ≠ .decode → i ≠ .commit → t.pend = s.pend

/-! ### Image set-up -/

/-- The bytes of the local color table that a packed byte announces (R103, R108). -/
def localTableBytes (packed : Byte) : Nat := if packed &&& 0x80 = 0 then 0 else 3 * 2 ^ ((packed &&& 0x07).toNat + 1)

/-- The packed byte of the image descriptor at POS (R108). -/
def imagePacked (s : State) : Byte := s.inByte (s.pos.toNat + 8)

/-- The width and the height in the image descriptor at POS (R108). -/
def imageWidth (s : State) : Nat := (s.inByte (s.pos.toNat + 4)).toNat + 256 * (s.inByte (s.pos.toNat + 5)).toNat
def imageHeight (s : State) : Nat := (s.inByte (s.pos.toNat + 6)).toNat + 256 * (s.inByte (s.pos.toNat + 7)).toNat

/-- The address of the byte after the image descriptor at POS and its local table: DATA_SIZE's (R108, R109). -/
def dataSizeAddr (s : State) : Nat := s.pos.toNat + 9 + localTableBytes (imagePacked s)

/-- There is a record and room in OUTBUF for the image at POS (R215). `usedBytes` is OUT_USED, but 2^32 for a full OUTBUF
of that size (log entry 8). -/
def imageFits (s : State) : Prop :=
  s.frameCount.toNat < s.cfg.maxFrames ∧ s.usedBytes + 4 * (imageWidth s * imageHeight s) ≤ s.cfg.outCap

/-- In u the image descriptor at POS of s has been read (R212). -/
def descriptorRead (s u : State) : Prop :=
  u.img.w.toNat = imageWidth s ∧ u.img.h.toNat = imageHeight s ∧ (u.img.il = true ↔ imagePacked s &&& 0x40 ≠ 0)

/-- In u the local table that follows the image descriptor at POS of s has been read, if there is one (R213). -/
def localTableRead (s u : State) : Prop :=
  (u.img.loc = true ↔ imagePacked s &&& 0x80 ≠ 0) ∧
  (imagePacked s &&& 0x80 = 0 → u.lct = s.lct ∧ u.lctSize = s.lctSize) ∧
  (imagePacked s &&& 0x80 ≠ 0 →
    u.lctSize.toNat = 2 ^ ((imagePacked s &&& 0x07).toNat + 1) ∧
    ∀ e, u.lctAt e =
      if e < 2 ^ ((imagePacked s &&& 0x07).toNat + 1) then
        { r := s.inByte (s.pos.toNat + 9 + 3 * e), g := s.inByte (s.pos.toNat + 9 + 3 * e + 1),
          b := s.inByte (s.pos.toNat + 9 + 3 * e + 2) }
      else s.lctAt e)

/-- In u the frame of the image at POS of s has been reserved at OUT_USED and cleared, and placement is at its first
pixel (R216). -/
def frameCleared (s u : State) : Prop :=
  u.img.base = s.outUsed ∧ u.img.total.toNat = imageWidth s * imageHeight s ∧ u.img.anom = .none ∧
  (∀ a, u.outByte a =
    if s.outUsed.toNat ≤ a ∧ a < s.outUsed.toNat + 4 * (imageWidth s * imageHeight s) then 0 else s.outByte a) ∧
  u.place = { pix := 0, x := 0, row := 0, pass := 0 }

/-- R210 to R216, R219, R220: IMG with everything present: the descriptor's fields, the local table, the frame reserved
at OUT_USED and cleared, and the decoder and dictionary of DATA_SIZE d. What `imageFits` asks passes R215's check in either
reading of log entry 8. -/
def Obligations.ImageSetsUp : Prop :=
  ∀ s : State, s.pos.toNat + 9 ≤ s.inLen.toNat → dataSizeAddr s < s.inLen.toNat → imageFits s →
    let d := (s.inByte (dataSizeAddr s)).toNat
    2 ≤ d → d ≤ 8 →
    ∃ t, exec .img s = .next t ∧
      t = { s with
        pos := t.pos, img := t.img, lct := t.lct, lctSize := t.lctSize, outbuf := t.outbuf, place := t.place,
        lzw := t.lzw, prefixTab := t.prefixTab, suffixTab := t.suffixTab, st := .lzw } ∧
      t.pos.toNat = dataSizeAddr s + 1 ∧ descriptorRead s t ∧ localTableRead s t ∧ frameCleared s t ∧
      t.lzw.dataSize.toNat = d ∧ t.lzw.clear.toNat = 2 ^ d ∧ t.lzw.eoi.toNat = 2 ^ d + 1 ∧
      t.lzw.avail.toNat = 2 ^ d + 2 ∧ t.lzw.codeSize.toNat = d + 1 ∧ t.lzw.codeMask.toNat = 2 ^ (d + 1) - 1 ∧
      t.lzw.oldValid = false ∧ t.lzw.oldCode = s.lzw.oldCode ∧ t.lzw.first = 0 ∧ t.lzw.datum = 0 ∧ t.lzw.bits = 0 ∧
      t.lzw.count = 0 ∧ t.lzw.termSeen = false ∧ t.lzw.sp = 0 ∧
      (∀ c, t.prefixOf c = if c < 2 ^ d then 0 else s.prefixOf c) ∧
      (∀ c, t.suffixOf c = if c < 2 ^ d then BitVec.ofNat 8 c else s.suffixOf c)

/-- R211, R213, R215: IMG's fatal errors, in this order: the descriptor cut (nothing is written), the local table cut
(POS at the table, no entry written), no record or no room left (POS after the table). Before the error only the lines
of R210 above it have written: the descriptor's fields, and before the last the table, if there is one. That the table is
loaded by then, where R412 says that LCT entries are never written before the check that fails, is the model's reading of
R210's order (log entry 18); what counts as no room in a full OUTBUF of 2^32 bytes is its reading of R27 (log entry 8). -/
def Obligations.ImageFatalErrors : Prop :=
  ∀ s : State,
    (s.inLen.toNat < s.pos.toNat + 9 → exec .img s = .next (fatal .truncatedStream s)) ∧
    (s.pos.toNat + 9 ≤ s.inLen.toNat → s.inLen.toNat < dataSizeAddr s →
      ∃ u, exec .img s = .next (fatal .truncatedStream u) ∧
        u = { s with pos := u.pos, img := { s.img with w := u.img.w, h := u.img.h, il := u.img.il } } ∧
        u.pos.toNat = s.pos.toNat + 9 ∧ descriptorRead s u) ∧
    (s.pos.toNat + 9 ≤ s.inLen.toNat → dataSizeAddr s ≤ s.inLen.toNat → ¬ imageFits s →
      ∃ u, exec .img s = .next (fatal .capacityExceeded u) ∧
        u = { s with
          pos := u.pos, lct := u.lct, lctSize := u.lctSize,
          img := { s.img with w := u.img.w, h := u.img.h, il := u.img.il, loc := u.img.loc } } ∧
        u.pos.toNat = dataSizeAddr s ∧ descriptorRead s u ∧ localTableRead s u)

/-- R216 to R218: IMG without a DATA_SIZE byte raises the anomaly TruncatedStream with POS at IN_LEN, and with one
outside 2..8 the anomaly CorruptCode with POS past it. By then the descriptor and the local table have been read, the
frame has been reserved and cleared, and the stream's registers are 0, TERM_SEEN among them, so that a drain skips the
stream; no code has been read, and nothing else has changed. -/
def Obligations.DataSizeAnomalies : Prop :=
  ∀ s : State, s.pos.toNat + 9 ≤ s.inLen.toNat → imageFits s →
    let setUp (u : State) : Prop :=
      u = { s with
        pos := u.pos, img := u.img, lct := u.lct, lctSize := u.lctSize, outbuf := u.outbuf, place := u.place,
        lzw := { s.lzw with sp := 0, datum := 0, bits := 0, count := 0, termSeen := false } } ∧
      descriptorRead s u ∧ localTableRead s u ∧ frameCleared s u
    (dataSizeAddr s = s.inLen.toNat →
      ∃ u, exec .img s = .next (anomaly .truncatedStream u) ∧ setUp u ∧ u.pos = s.inLen) ∧
    (dataSizeAddr s < s.inLen.toNat →
      (s.inByte (dataSizeAddr s)).toNat < 2 ∨ 8 < (s.inByte (dataSizeAddr s)).toNat →
      ∃ u, exec .img s = .next (anomaly .corruptCode u) ∧ setUp u ∧ u.pos.toNat = dataSizeAddr s + 1)

/-- R218, R219, R220 by rows: a DATA_SIZE byte of 2 to 8 sets the decoder up and goes to LZW, any other raises the
anomaly CorruptCode; each consumes its byte. -/
def Obligations.DataSizeRows : Prop :=
  ∀ (s : State) (d : Byte), s.pos.toNat < s.inLen.toNat →
    (2 ≤ d.toNat → d.toNat ≤ 8 →
      ∃ t, exec (.dataSizeOk d) s = .next t ∧
        t = { s with
          pos := s.pos + 1, st := .lzw, prefixTab := t.prefixTab, suffixTab := t.suffixTab,
          lzw := { s.lzw with
            dataSize := t.lzw.dataSize, clear := t.lzw.clear, eoi := t.lzw.eoi, avail := t.lzw.avail,
            codeSize := t.lzw.codeSize, codeMask := t.lzw.codeMask, oldValid := false, first := 0 } } ∧
        t.lzw.dataSize.toNat = d.toNat ∧ t.lzw.clear.toNat = 2 ^ d.toNat ∧ t.lzw.eoi.toNat = 2 ^ d.toNat + 1 ∧
        t.lzw.avail.toNat = 2 ^ d.toNat + 2 ∧ t.lzw.codeSize.toNat = d.toNat + 1 ∧
        t.lzw.codeMask.toNat = 2 ^ (d.toNat + 1) - 1 ∧
        (∀ c, t.prefixOf c = if c < 2 ^ d.toNat then 0 else s.prefixOf c) ∧
        (∀ c, t.suffixOf c = if c < 2 ^ d.toNat then BitVec.ofNat 8 c else s.suffixOf c)) ∧
    exec (.dataSizeBad d) s = .next (anomaly .corruptCode { s with pos := s.pos + 1 })

/-! ### Code stream -/

/-- R241: LZW_COMPLETE goes to DRAIN and changes nothing else. -/
def Obligations.LzwCompletes : Prop :=
  ∀ s : State, exec .lzwComplete s = .next { s with st := .drain }

/-- R242, R249: FETCH_LEN reads the length byte L at POS: 0 ends the code data (TERM_SEEN, DRAIN, no anomaly); L with its
bytes there sets COUNT; a missing byte, or L past the end, raises the anomaly TruncatedStream. -/
def Obligations.FetchLenReadsSubBlock : Prop :=
  ∀ s : State,
    (s.inLen.toNat ≤ s.pos.toNat → exec .fetchLen s = .next (anomaly .truncatedStream s)) ∧
    (s.pos.toNat < s.inLen.toNat →
      let len := s.inByte s.pos.toNat
      (len = 0 →
        exec .fetchLen s = .next
          { s with pos := s.pos + 1, lzw := { s.lzw with termSeen := true }, st := .drain }) ∧
      (len ≠ 0 → s.pos.toNat + 1 + len.toNat ≤ s.inLen.toNat →
        exec .fetchLen s = .next { s with pos := s.pos + 1, lzw := { s.lzw with count := len } }) ∧
      (len ≠ 0 → s.inLen.toNat < s.pos.toNat + 1 + len.toNat →
        exec .fetchLen s = .next (anomaly .truncatedStream { s with pos := s.pos + 1 })))

/-- The rows of format SUB, by the state that reads them: in a code stream as FETCH_LEN (R242, R249). In an extension and
in a drain the zero length ends it and another skips its data, as R186, R187 and R298 say of a length byte; that one such
row is one turn of SkipSubBlocks' loop, with a state between the turns, is the model's choice (log entry 12): the engine's
own step runs the loop whole. -/
def Obligations.SubBlockRows : Prop :=
  ∀ s : State, s.pos.toNat < s.inLen.toNat →
    (s.st = .lzw →
      exec .subEnd s = .next { s with pos := s.pos + 1, lzw := { s.lzw with termSeen := true }, st := .drain }) ∧
    (s.st = .ext → exec .subEnd s = .next { s with pos := s.pos + 1, st := .tag }) ∧
    (s.st = .drain →
      exec .subEnd s = .next { s with pos := s.pos + 1, lzw := { s.lzw with termSeen := true }, st := .commit }) ∧
    (∀ len : Byte, len ≠ 0 → s.pos.toNat + 1 + len.toNat ≤ s.inLen.toNat →
      (s.st = .lzw →
        exec (.subData len) s = .next { s with pos := s.pos + 1, lzw := { s.lzw with count := len } }) ∧
      (s.st = .ext ∨ s.st = .drain →
        exec (.subData len) s = .next { s with pos := s.pos + 1 + len.zeroExtend 32 })) ∧
    (∀ len : Byte, len ≠ 0 → s.inLen.toNat < s.pos.toNat + 1 + len.toNat →
      (s.st = .lzw ∨ s.st = .drain →
        exec (.subData len) s = .next (anomaly .truncatedStream { s with pos := s.pos + 1 })) ∧
      (s.st = .ext → exec (.subData len) s = .next (fatal .truncatedStream { s with pos := s.pos + 1 })))

/-- R243, R246: FETCH_BYTE adds the byte at POS above the bits already held; the accumulator bounds are those of R245.
With no byte there its ReadByte raises, which no run reaches. -/
def Obligations.FetchByteFillsAccumulator : Prop :=
  ∀ s : State, (s.inLen.toNat ≤ s.pos.toNat → exec .fetchByte s = .next (anomaly .truncatedStream s)) ∧
    (s.pos.toNat < s.inLen.toNat → s.lzw.bits.toNat ≤ 11 → s.lzw.datum.toNat < 2 ^ s.lzw.bits.toNat →
    s.lzw.count ≠ 0 →
    ∃ t, exec .fetchByte s = .next t ∧
      t = { s with
        pos := s.pos + 1,
        lzw := { s.lzw with datum := t.lzw.datum, bits := t.lzw.bits, count := t.lzw.count } } ∧
      t.lzw.datum = s.lzw.datum ||| ((s.inByte s.pos.toNat).zeroExtend 32 <<< s.lzw.bits.toNat) ∧
      t.lzw.datum.toNat < 2 ^ t.lzw.bits.toNat ∧
      t.lzw.bits.toNat = s.lzw.bits.toNat + 8 ∧ t.lzw.count.toNat = s.lzw.count.toNat - 1)

/-- R244, R260: the DECODE step takes the low CODE_SIZE bits off the accumulator, and is the row of the class that R118
gives them; with the decoder's registers as R274 says and the stack empty it completes. -/
def Obligations.DecodeStepRunsClass : Prop :=
  ∀ s : State, s.lzw.codeMask.toNat = 2 ^ s.lzw.codeSize.toNat - 1 → s.lzw.codeSize.toNat ≤ s.lzw.bits.toNat →
    s.topCode.toNat = s.lzw.datum.toNat % 2 ^ s.lzw.codeSize.toNat ∧
    (∃ datum bits, dropCode s = { s with lzw := { s.lzw with datum := datum, bits := bits } } ∧
      datum.toNat = s.lzw.datum.toNat / 2 ^ s.lzw.codeSize.toNat ∧
      bits.toNat = s.lzw.bits.toNat - s.lzw.codeSize.toNat) ∧
    (s.lzw.avail.toNat ≤ 4096 → ∀ i, i.fitsCode s.codeRegs = true → codeOf i = some s.topCode →
      exec .decodeCode s = exec i s) ∧
    (DictionarySound s → s.lzw.sp = 0 →
      ∃ i t, i.fitsCode s.codeRegs = true ∧ codeOf i = some s.topCode ∧ exec .decodeCode s = .next t ∧
        exec i s = .next t)

/-- R261 to R263, R265, R266: the classes that push nothing. INVALID and FIRST_BAD raise the anomaly CorruptCode, FULL
DictionaryOverflow; EOI goes to DRAIN with no anomaly; CLEAR resets CODE_SIZE, CODE_MASK, AVAIL and OLD_VALID and changes
neither the tables nor FIRST. The code is off the accumulator in each. -/
def Obligations.CodesThatPushNothing : Prop :=
  ∀ (s : State) (c : BitVec 12),
    exec (.invalid c) s = .next (anomaly .corruptCode (dropCode s)) ∧
    exec (.firstBad c) s = .next (anomaly .corruptCode (dropCode s)) ∧
    exec (.full c) s = .next (anomaly .dictionaryOverflow (dropCode s)) ∧
    exec (.eoi c) s = .next { dropCode s with st := .drain } ∧
    (s.lzw.dataSize.toNat ≤ 8 → s.lzw.clear.toNat ≤ 256 →
      ∃ t, exec (.clear c) s = .next t ∧
        t = { dropCode s with
          lzw := { (dropCode s).lzw with
            codeSize := t.lzw.codeSize, codeMask := t.lzw.codeMask, avail := t.lzw.avail, oldValid := false } } ∧
        t.lzw.codeSize.toNat = s.lzw.dataSize.toNat + 1 ∧
        t.lzw.codeMask.toNat = 2 ^ (s.lzw.dataSize.toNat + 1) - 1 ∧
        t.lzw.avail.toNat = s.lzw.clear.toNat + 2)

/-- R264: FIRST pushes SUFFIX[code] on the empty stack and makes the code OLD_CODE and FIRST; no entry is added. -/
def Obligations.FirstCodeIsPushed : Prop :=
  ∀ (s : State) (c : BitVec 12), s.lzw.sp = 0 →
    ∃ t, exec (.first c) s = .next t ∧
      t = { dropCode s with
        stack := t.stack,
        lzw := { (dropCode s).lzw with sp := 1, oldCode := c, oldValid := true, first := c.setWidth 8 } } ∧
      t.stackAt 0 = s.suffixOf c.toNat ∧ ∀ k, k ≠ 0 → t.stackAt k = s.stackAt k

/-- What a DICT or KWKWK code leaves beside the stack (R271 to R273): the new entry, AVAIL, the width, OLD_CODE, FIRST;
everything else but the stack is as after the extraction. -/
def entryAdded (s t : State) (c : BitVec 12) (f : Byte) : Prop :=
  t = { dropCode s with
    stack := t.stack, prefixTab := t.prefixTab, suffixTab := t.suffixTab,
    lzw := { (dropCode s).lzw with
      sp := t.lzw.sp, first := f, avail := t.lzw.avail, codeSize := t.lzw.codeSize, codeMask := t.lzw.codeMask,
      oldCode := c } } ∧
  (∀ x, t.prefixOf x = if x = s.lzw.avail.toNat then s.lzw.oldCode else s.prefixOf x) ∧
  (∀ x, t.suffixOf x = if x = s.lzw.avail.toNat then f else s.suffixOf x) ∧
  t.lzw.avail.toNat = s.lzw.avail.toNat + 1 ∧
  t.lzw.codeSize.toNat =
    (if t.lzw.avail.toNat = 2 ^ s.lzw.codeSize.toNat ∧ t.lzw.avail.toNat < 4096 then s.lzw.codeSize.toNat + 1
    else s.lzw.codeSize.toNat) ∧
  t.lzw.codeMask.toNat = 2 ^ t.lzw.codeSize.toNat - 1

/-- R268, R269, R271 to R273: a DICT code on an empty stack pushes its string, first index on top, and adds the entry
(OLD_CODE, first index of its string). -/
def Obligations.DictCodePushesString : Prop :=
  ∀ (s : State) (c : BitVec 12), DictionarySound s → s.lzw.sp = 0 →
    Instr.fitsCode s.codeRegs (.dict c) = true →
    ∃ t f rest, exec (.dict c) s = .next t ∧ s.stringOf c.toNat = f :: rest ∧
      t.stackTopDown = f :: rest ∧ entryAdded s t c f

/-- R267, R269, R271 to R273: a KWKWK code on an empty stack pushes the string of OLD_CODE followed by FIRST, and adds
the entry (OLD_CODE, first index of that string). -/
def Obligations.KwkwkCodePushesString : Prop :=
  ∀ (s : State) (c : BitVec 12), DictionarySound s → s.lzw.sp = 0 →
    Instr.fitsCode s.codeRegs (.kwkwk c) = true →
    ∃ t f rest, exec (.kwkwk c) s = .next t ∧ s.stringOf s.lzw.oldCode.toNat = f :: rest ∧
      t.stackTopDown = f :: rest ++ [s.lzw.first] ∧ entryAdded s t c f

/-! ### Pixels and the end of an image -/

/-- R290 to R294: EMIT pops the top index, writes its color (black outside the table, with W_IDX) and alpha as the four
bytes R, G, B, A at `PixelAddr()`, counts the pixel and moves to the next column or row; every other byte of OUTBUF, and
every other register, is as before. -/
def Obligations.EmitWritesPixel : Prop :=
  ∀ s : State, s.pixelAddr + 4 ≤ s.cfg.outCap → 0 < s.lzw.sp.toNat →
    s.place.pix.toNat < s.img.total.toNat → s.place.x.toNat < s.img.w.toNat →
    let idx := s.stackAt (s.lzw.sp.toNat - 1)
    let tab := if s.img.loc = true then (s.lctAt, s.lctSize.toNat) else (s.gctAt, s.gctSize.toNat)
    let rgb := if idx.toNat < tab.2 then tab.1 idx.toNat else ⟨0, 0, 0⟩
    let alpha : Byte :=
      if s.ctrl.transpEn = true ∧ s.pend.valid = true ∧ idx = s.pend.idx then 0 else 255
    ∃ t, exec .emit s = .next t ∧
      t = { s with
        lzw := { s.lzw with sp := s.lzw.sp - 1 },
        status := { s.status with wIdx := s.status.wIdx || decide (tab.2 ≤ idx.toNat) },
        outbuf := t.outbuf, place := t.place } ∧
      (∀ a, t.outByte a =
        if a = s.pixelAddr then rgb.r else if a = s.pixelAddr + 1 then rgb.g
        else if a = s.pixelAddr + 2 then rgb.b else if a = s.pixelAddr + 3 then alpha
        else s.outByte a) ∧
      t.place.pix.toNat = s.place.pix.toNat + 1 ∧
      (s.place.x.toNat + 1 < s.img.w.toNat →
        t.place.x.toNat = s.place.x.toNat + 1 ∧ t.place.row = s.place.row ∧ t.place.pass = s.place.pass) ∧
      (s.place.x.toNat + 1 = s.img.w.toNat → t.place.x = 0 ∧
        (s.img.il = false → t.place.row = s.place.row + 1 ∧ t.place.pass = s.place.pass) ∧
        (s.img.il = true →
          (t.place.pass, t.place.row) = nextInterlacedRow s.img.h.toNat s.place.pass s.place.row))

/-- A pixel whose four bytes are not inside OUTBUF stops the machine under a name of its own. R90 says that no run gets
there; that the model then stops is its choice (log entry 11). -/
def Obligations.EmitOutsideOutbufStops : Prop :=
  ∀ s : State, s.cfg.outCap < s.img.base.toNat + 4 * (s.place.row.toNat * s.img.w.toNat + s.place.x.toNat) + 4 →
    exec .emit s = .fault .outsideOutbuf

/-- R297: the k-th row of an interlaced image of height h goes to display row D_H(k), the rows of the four passes in
order; they are the rows 0 to h - 1, each once, and the last leaves PASS = 3 with ROW at or past h. -/
def Obligations.InterlaceSchedule : Prop :=
  ∀ h : Nat, 0 < h → h < 65536 →
    (∀ k, k < h → (displayRows h)[k]? = some (interlacedPlace h k).2.toNat) ∧
    (displayRows h).Perm (List.range h) ∧
    (interlacedPlace h h).1 = 3 ∧ h ≤ (interlacedPlace h h).2.toNat

/-- R298, R299: DRAIN after the terminator only goes to COMMIT; otherwise it skips the rest of the current sub-block
and the others, and leaves POS after the zero-length one; a cut stream raises the anomaly TruncatedStream. -/
def Obligations.DrainSkipsStream : Prop :=
  ∀ (s : State) (groups : List (List Byte)),
    (s.lzw.termSeen = true → exec .drain s = .next { s with st := .commit }) ∧
    (s.lzw.termSeen = false → s.holdsSubBlocks (s.pos.toNat + s.lzw.count.toNat) groups →
      exec .drain s = .next
        { s with
          pos := s.pos + s.lzw.count.zeroExtend 32 + BitVec.ofNat 32 (groups.flatMap subBlock ++ [0]).length,
          lzw := { s.lzw with count := 0, termSeen := true }, st := .commit }) ∧
    (∀ p, s.lzw.termSeen = false → s.cutsSubBlocks (s.pos.toNat + s.lzw.count.toNat) groups p →
      exec .drain s = .next
        (anomaly .truncatedStream { s with pos := BitVec.ofNat 32 p, lzw := { s.lzw with count := 0 } }))

/-- R300 to R303: COMMIT writes the frame's record and counts it and its bytes; with an anomaly under DISCARD it records
nothing; in both cases the pending state is cleared and ST is TAG. STAT is laid out as R32 says. -/
def Obligations.CommitRecordsFrame : Prop :=
  ∀ s : State,
    (s.img.anom ≠ .none → s.ctrl.policy = .discard →
      exec .commit s = .next { s with pend := ⟨false, 0⟩, st := .tag }) ∧
    (s.img.anom = .none ∨ s.ctrl.policy ≠ .discard →
      ∃ t, exec .commit s = .next t ∧
        t = { s with
          ft := t.ft, frameCount := s.frameCount + 1,
          outUsed := s.outUsed + 4 * s.img.total, pend := ⟨false, 0⟩, st := .tag } ∧
        (∀ k, k ≠ s.frameCount.toNat → t.frameAt k = s.frameAt k) ∧
        let f := t.frameAt s.frameCount.toNat
        f.base = s.img.base ∧ f.w = s.img.w ∧ f.h = s.img.h ∧
        (f.stat.extractLsb' 0 4).toNat = s.img.anom.code ∧
        f.stat.getLsbD 4 = decide (s.place.pix.toNat < s.img.total.toNat) ∧
        f.stat.getLsbD 5 = s.img.il ∧ f.stat.getLsbD 6 = s.img.loc ∧ f.stat.getLsbD 7 = s.pend.valid ∧
        f.stat.extractLsb' 8 8 = (if s.pend.valid = true then s.pend.idx else 0) ∧
        f.stat.extractLsb' 16 16 = 0)

/-- R330: FINISH with no frame is the fatal error EmptyResult, otherwise it completes without error; W_IDX and W_ANOM
keep their values. -/
def Obligations.FinishReportsResult : Prop :=
  ∀ s : State,
    (s.frameCount = 0 → exec .finish s = .next (fatal .emptyResult s)) ∧
    (s.frameCount ≠ 0 →
      exec .finish s = .next
        { s with status := { s.status with err := .none, busy := false, done := true }, st := .idle })

/-! ### The whole machine -/

/-- R77, R88: no instruction writes INBUF, IN_LEN, CTRL, FSEL, the parameters, the count of resets or what is the host's. -/
def Obligations.EngineLeavesInputAlone : Prop :=
  ∀ (i : Instr) (s t : State), exec i s = .next t →
    t.inbuf = s.inbuf ∧ t.inLen = s.inLen ∧ t.ctrl = s.ctrl ∧ t.fsel = s.fsel ∧ t.cfg = s.cfg ∧ t.moves = s.moves ∧
    t.readData = s.readData ∧ t.draws = s.draws ∧ t.resets = s.resets

/-- A result with another INBUF in its next state. -/
def withInbuf (m : Memory) : Result → Result
  | .next t => .next { t with inbuf := m }
  | .fault f => .fault f
  | .refused r => .refused r

/-- R71: the engine never reads INBUF at or above IN_LEN: with any other bytes there, every instruction does the same. -/
def Obligations.NoReadBeyondInLen : Prop :=
  ∀ (i : Instr) (s : State) (m : Memory), (∀ a < s.inLen.toNat, { s with inbuf := m }.inByte a = s.inByte a) →
    exec i { s with inbuf := m } = withInbuf m (exec i s)

/-- The frames already committed are not written again: in a state of a run, the engine's step keeps every byte below
OUT_USED and every record below FRAME_COUNT (R26, R82, R85, R303, R333). OUT_USED counts as 2^32 where an OUTBUF of that
size is full (log entry 8). -/
def Obligations.CommittedFramesStay : Prop :=
  ∀ s t : State, Inv s → s.moves = [] → step s = .next t →
    s.frameCount.toNat ≤ t.frameCount.toNat ∧
    (∀ a < s.usedBytes, t.outByte a = s.outByte a) ∧
    (∀ k < s.frameCount.toNat, t.frameAt k = s.frameAt k)

/-- The invariant holds at reset. -/
def Obligations.ResetIsSound : Prop :=
  Inv State.reset ∧ FramesPacked State.reset

/-- From every state that meets the invariant a step goes on, and the next state meets it: no fault, no access outside
OUTBUF (R90), POS within IN_LEN (R37), the dictionary's and accumulator's bounds (R245, R274), whatever the stream and
whatever the host does. -/
def Obligations.StepKeepsInvariant : Prop :=
  ∀ s : State, Inv s → ∃ t, step s = .next t ∧ Inv t

/-- R27, R82: in a state of a run the frames' regions stay packed from address 0 in commit order, without gaps and inside
OUTBUF. OUT_USED is their sum; the 32-bit register holds it modulo 2^32, which is the sum itself but for a full OUTBUF of
2^32 bytes (log entry 8). The BASE of every frame that has bytes is its region's address, for every OUT_CAP. -/
def Obligations.FramesStayPacked : Prop :=
  ∀ s t : State, Inv s → FramesPacked s → step s = .next t →
    FramesPacked t ∧
    (t.bytesBefore t.frameCount.toNat ≠ 2 ^ 32 → t.outUsed.toNat = t.bytesBefore t.frameCount.toNat) ∧
    ∀ k < t.frameCount.toNat, (t.frameAt k).bytes ≠ 0 → (t.frameAt k).base.toNat = t.bytesBefore k

/-- R149: every command reaches its end after finitely many engine steps: from a state of a run with no host move
pending, the engine comes to IDLE. -/
def Obligations.CommandsTerminate : Prop :=
  ∀ s : State, Inv s → s.moves = [] →
    ∃ n t, Host.Core.run Sys2Proof.core n s = .next t ∧ t.st = .idle
end

