-- ==== Sys2Proof/Laws/Cells.lean ====
section
/-!
SUPPORT. The laws of cells: read after write, and that writing and filling keep the canonical form.
-/
namespace Sys2Proof.Laws
open Sys2Proof Sys2Proof.Machine

variable {α : Type} {d : α} {m : Cells α}

@[simp] theorem readCell_nil (a : Nat) : readCell d [] a = d := rfl

theorem readCell_cons (c : Nat × α) (m : Cells α) (a : Nat) :
    readCell d (c :: m) a = if c.1 = a then c.2 else readCell d m a := rfl

theorem writeCell_cons (c : Nat × α) (m : Cells α) (a : Nat) (v : α) :
    writeCell (c :: m) a v =
      if a < c.1 then (a, v) :: c :: m else if a = c.1 then (a, v) :: m else c :: writeCell m a v := rfl

/-- A read after a write. -/
theorem readCell_writeCell (a b : Nat) (v : α) :
    readCell d (writeCell m a v) b = if b = a then v else readCell d m b := by
  induction m with
  | nil => simp [writeCell, readCell_cons, eq_comm]
  | cons c m ih =>
    rw [writeCell_cons]
    split_ifs <;> simp only [readCell_cons, ih] <;> split_ifs <;> first | rfl | omega

theorem readCell_writeCell_self (a : Nat) (v : α) : readCell d (writeCell m a v) a = v := by
  rw [readCell_writeCell, if_pos rfl]

theorem readCell_writeCell_ne {a b : Nat} (hab : b ≠ a) (v : α) :
    readCell d (writeCell m a v) b = readCell d m b := by
  rw [readCell_writeCell, if_neg hab]

/-- The indices listed after a write were listed before, or are the one written. -/
theorem mem_writeCell {a : Nat} {v : α} {c : Nat × α} (h : c ∈ writeCell m a v) : c.1 = a ∨ c ∈ m := by
  induction m with
  | nil => simp_all [writeCell]
  | cons b m ih =>
    rw [writeCell_cons] at h
    split_ifs at h <;> simp only [List.mem_cons] at h ⊢
    · rcases h with rfl | h
      · exact .inl rfl
      · exact .inr h
    · rcases h with rfl | h
      · exact .inl rfl
      · exact .inr (.inr h)
    · rcases h with h | h
      · exact .inr (.inl h)
      · exact (ih h).imp_right .inr

theorem cellsWf_writeCell (h : CellsWf m) (a : Nat) (v : α) : CellsWf (writeCell m a v) := by
  induction m with
  | nil => exact List.pairwise_singleton _ _
  | cons c m ih =>
    obtain ⟨hc, hm⟩ := List.pairwise_cons.1 h
    rw [writeCell_cons]
    split_ifs with h1 h2
    · refine List.pairwise_cons.2 ⟨fun b hb => ?_, h⟩
      rcases List.mem_cons.1 hb with rfl | hb
      · exact h1
      · exact Nat.lt_trans h1 (hc b hb)
    · exact List.pairwise_cons.2 ⟨h2 ▸ hc, hm⟩
    · refine List.pairwise_cons.2 ⟨fun b hb => ?_, ih hm⟩
      rcases mem_writeCell hb with hb | hb
      · omega
      · exact hc b hb

/-! ### Filling a range -/

theorem readCell_append (m n : Cells α) (a : Nat) : readCell d (m ++ n) a = readCell (readCell d n a) m a := by
  induction m with
  | nil => rfl
  | cons c m ih => rw [List.cons_append, readCell_cons, readCell_cons, ih]

theorem readCell_filter (p : Nat → Bool) (m : Cells α) (a : Nat) :
    readCell d (m.filter fun c => p c.1) a = if p a = true then readCell d m a else d := by
  induction m with
  | nil => exact (ite_self _).symm
  | cons c m ih =>
    rw [List.filter_cons, readCell_cons]
    by_cases hc : c.1 = a
    · subst hc; split_ifs at ih ⊢ <;> simp_all [readCell_cons]
    · split_ifs at ih ⊢ <;> simp_all [readCell_cons]

theorem readCell_range (lo n a : Nat) (v : α) :
    readCell d ((List.range n).map fun k => (lo + k, v)) a = if lo ≤ a ∧ a < lo + n then v else d := by
  induction n generalizing d with
  | zero => rw [if_neg (by omega)]; rfl
  | succ n ih =>
    rw [List.range_succ, List.map_append, readCell_append, ih]
    simp only [List.map_cons, List.map_nil, readCell_cons, readCell_nil]
    split_ifs <;> first | rfl | omega

/-- A read after a range was filled. -/
theorem readCell_fillCells (lo n a : Nat) (v : α) :
    readCell d (fillCells lo n v m) a = if lo ≤ a ∧ a < lo + n then v else readCell d m a := by
  simp only [fillCells, readCell_append, readCell_range, readCell_filter fun i => decide (i < lo),
    readCell_filter fun i => decide (lo + n ≤ i), decide_eq_true_eq]
  split_ifs <;> first | rfl | omega

theorem cellsWf_fillCells (h : CellsWf m) (lo n : Nat) (v : α) : CellsWf (fillCells lo n v m) := by
  refine List.pairwise_append.2 ⟨List.pairwise_append.2 ⟨h.filter _, ?_, ?_⟩, h.filter _, ?_⟩
  · exact List.Pairwise.map _ (fun _ _ hab => Nat.add_lt_add_left hab lo) List.pairwise_lt_range
  all_goals
    simp only [List.mem_append, List.mem_filter, List.mem_map, List.mem_range, decide_eq_true_eq]
  · rintro a ⟨_, ha⟩ b ⟨k, _, rfl⟩
    exact Nat.lt_of_lt_of_le ha (Nat.le_add_right lo k)
  · rintro a (⟨_, ha⟩ | ⟨k, hk, rfl⟩) b ⟨_, hb⟩
    · omega
    · exact Nat.lt_of_lt_of_le (Nat.add_lt_add_left hk lo) hb

/-! ### Byte memories -/

theorem memory_wf_write {m : Memory} (h : m.wf) (a : Nat) (v : Byte) : Memory.wf (m.write a v) :=
  cellsWf_writeCell h a v

theorem memory_wf_writeBytes {m : Memory} (h : m.wf) (a n v : Nat) : Memory.wf (m.writeBytes a n v) := by
  induction n generalizing m a v with
  | zero => exact h
  | succ n ih => exact ih (memory_wf_write h _ _) _ _

/-- A read after a write of n bytes, least significant first. -/
theorem readCell_writeBytes {d : Byte} {m : Memory} (a n v b : Nat) :
    readCell d (m.writeBytes a n v) b =
      if a ≤ b ∧ b < a + n then BitVec.ofNat 8 (v / 256 ^ (b - a)) else readCell d m b := by
  induction n generalizing m a v with
  | zero => rw [if_neg (by omega)]; rfl
  | succ n ih =>
    rw [Memory.writeBytes, ih, Memory.write, readCell_writeCell]
    by_cases hb : b = a
    · subst hb; simp
    · by_cases hin : a + 1 ≤ b ∧ b < a + 1 + n
      · rw [if_pos hin, if_pos (by omega), Nat.div_div_eq_div_mul,
          show b - a = (b - (a + 1)) + 1 by omega, pow_succ, Nat.mul_comm]
      · rw [if_neg hin, if_neg hb, if_neg (by omega)]

end Sys2Proof.Laws
end

