-- ==== Sys2Proof/Laws/Flow.lean ====
section
/-!
SUPPORT. The course of a rule: how `andThen` and `result` pass on what a part answers, and `Meets`, which says of every
way a rule can go what holds there, so that a proof follows the rule's own order instead of splitting its definition.
-/
namespace Sys2Proof.Laws
open Sys2Proof Sys2Proof.Machine

variable {α β : Type}

@[simp] theorem andThen_go (a : α) (s : State) (k : α → State → Flow β) : (Flow.go a s).andThen k = k a s := rfl
@[simp] theorem andThen_ended (s : State) (k : α → State → Flow β) : (Flow.ended s).andThen k = .ended s := rfl
@[simp] theorem andThen_stopped (f : Fault) (k : α → State → Flow β) : (Flow.stopped f).andThen k = .stopped f := rfl
@[simp] theorem result_go (s : State) : (Flow.go () s).result = .next s := rfl
@[simp] theorem result_ended (s : State) : (Flow.ended s).result = .next s := rfl
@[simp] theorem result_stopped (f : Fault) : (Flow.stopped f).result = .fault f := rfl

theorem andThen_assoc {γ : Type} (m : Flow α) (k : α → State → Flow β) (l : β → State → Flow γ) :
    (m.andThen k).andThen l = m.andThen fun a s => (k a s).andThen l := by
  cases m <;> rfl

/-- Where the rule goes on, `Q` holds of its value and state; where it has raised, `E` holds; it has not stopped. -/
def Meets (m : Flow α) (Q : α → State → Prop) (E : State → Prop) : Prop :=
  match m with
  | .go a s => Q a s
  | .ended s => E s
  | .stopped _ => False

@[simp] theorem meets_go (a : α) (s : State) (Q : α → State → Prop) (E : State → Prop) :
    Meets (.go a s) Q E = Q a s := rfl

@[simp] theorem meets_ended (s : State) (Q : α → State → Prop) (E : State → Prop) :
    Meets (.ended s) Q E = E s := rfl

theorem meets_andThen {m : Flow α} {k : α → State → Flow β} {Q : β → State → Prop} {E : State → Prop}
    (h : Meets m (fun a s => Meets (k a s) Q E) E) : Meets (m.andThen k) Q E := by
  cases m with
  | go a s => exact h
  | ended s => exact h
  | stopped f => exact h.elim

theorem meets_mono {m : Flow α} {Q Q' : α → State → Prop} {E E' : State → Prop} (h : Meets m Q E)
    (hQ : ∀ a s, Q a s → Q' a s) (hE : ∀ s, E s → E' s) : Meets m Q' E' := by
  cases m with
  | go a s => exact hQ a s h
  | ended s => exact hE s h
  | stopped f => exact h.elim

/-- A rule that never stops answers a next state, of which what held at its end holds. -/
theorem result_of_meets {m : Flow Unit} {P : State → Prop} (h : Meets m (fun _ => P) P) :
    ∃ t, m.result = .next t ∧ P t := by
  cases m with
  | go a s => exact ⟨s, rfl, h⟩
  | ended s => exact ⟨s, rfl, h⟩
  | stopped f => exact h.elim

end Sys2Proof.Laws
end

