-- ==== Sys2Proof/Laws/State.lean ====
section
/-!
SUPPORT. What each named update leaves in each field of State, so that no proof unfolds a record update. An update's
own definition says what it follows.
-/
namespace Sys2Proof.Laws
open Sys2Proof Sys2Proof.Machine

/-! ### What is read depends on the written cells and on the reset they follow -/

theorem inByte_congr {s t : State} (h : t.inbuf = s.inbuf) (hr : t.resets = s.resets) (a : Nat) :
    t.inByte a = s.inByte a := by
  unfold State.inByte State.unwritten; rw [h, hr]

theorem outByte_congr {s t : State} (h : t.outbuf = s.outbuf) (hr : t.resets = s.resets) (a : Nat) :
    t.outByte a = s.outByte a := by
  unfold State.outByte State.unwritten; rw [h, hr]

theorem prefixOf_congr {s t : State} (h : t.prefixTab = s.prefixTab) (hr : t.resets = s.resets) (a : Nat) :
    t.prefixOf a = s.prefixOf a := by
  unfold State.prefixOf State.unwritten; rw [h, hr]

theorem suffixOf_congr {s t : State} (h : t.suffixTab = s.suffixTab) (hr : t.resets = s.resets) (a : Nat) :
    t.suffixOf a = s.suffixOf a := by
  unfold State.suffixOf State.unwritten; rw [h, hr]

theorem stackAt_congr {s t : State} (h : t.stack = s.stack) (hr : t.resets = s.resets) (a : Nat) :
    t.stackAt a = s.stackAt a := by
  unfold State.stackAt State.unwritten; rw [h, hr]

theorem gctAt_congr {s t : State} (h : t.gct = s.gct) (hr : t.resets = s.resets) (a : Nat) :
    t.gctAt a = s.gctAt a := by
  unfold State.gctAt State.unwritten; rw [h, hr]

theorem lctAt_congr {s t : State} (h : t.lct = s.lct) (hr : t.resets = s.resets) (a : Nat) :
    t.lctAt a = s.lctAt a := by
  unfold State.lctAt State.unwritten; rw [h, hr]

theorem frameAt_congr {s t : State} (h : t.ft = s.ft) (hr : t.resets = s.resets) (a : Nat) :
    t.frameAt a = s.frameAt a := by
  unfold State.frameAt State.unwritten; rw [h, hr]

@[simp] theorem bytesBefore_zero (s : State) : s.bytesBefore 0 = 0 := rfl
@[simp] theorem bytesBefore_succ (s : State) (n : Nat) :
    s.bytesBefore (n + 1) = s.bytesBefore n + (s.frameAt n).bytes := rfl

theorem bytesBefore_congr {s t : State} (h : t.ft = s.ft) (hr : t.resets = s.resets) (n : Nat) :
    t.bytesBefore n = s.bytesBefore n := by
  unfold State.bytesBefore; rw [funext (frameAt_congr h hr)]

/-! ### `POS <- POS + n` -/

@[simp] theorem advance_cfg (s : State) (n : Nat) : (s.advance n).cfg = s.cfg := rfl
@[simp] theorem advance_ctrl (s : State) (n : Nat) : (s.advance n).ctrl = s.ctrl := rfl
@[simp] theorem advance_status (s : State) (n : Nat) : (s.advance n).status = s.status := rfl
@[simp] theorem advance_inLen (s : State) (n : Nat) : (s.advance n).inLen = s.inLen := rfl
@[simp] theorem advance_frameCount (s : State) (n : Nat) : (s.advance n).frameCount = s.frameCount := rfl
@[simp] theorem advance_outUsed (s : State) (n : Nat) : (s.advance n).outUsed = s.outUsed := rfl
@[simp] theorem advance_errPos (s : State) (n : Nat) : (s.advance n).errPos = s.errPos := rfl
@[simp] theorem advance_fsel (s : State) (n : Nat) : (s.advance n).fsel = s.fsel := rfl
@[simp] theorem advance_st (s : State) (n : Nat) : (s.advance n).st = s.st := rfl
@[simp] theorem advance_pos (s : State) (n : Nat) : (s.advance n).pos = BitVec.ofNat 32 (s.pos.toNat + n) := rfl
@[simp] theorem advance_lzw (s : State) (n : Nat) : (s.advance n).lzw = s.lzw := rfl
@[simp] theorem advance_img (s : State) (n : Nat) : (s.advance n).img = s.img := rfl
@[simp] theorem advance_place (s : State) (n : Nat) : (s.advance n).place = s.place := rfl
@[simp] theorem advance_pend (s : State) (n : Nat) : (s.advance n).pend = s.pend := rfl
@[simp] theorem advance_extLabel (s : State) (n : Nat) : (s.advance n).extLabel = s.extLabel := rfl
@[simp] theorem advance_prefixTab (s : State) (n : Nat) : (s.advance n).prefixTab = s.prefixTab := rfl
@[simp] theorem advance_suffixTab (s : State) (n : Nat) : (s.advance n).suffixTab = s.suffixTab := rfl
@[simp] theorem advance_stack (s : State) (n : Nat) : (s.advance n).stack = s.stack := rfl
@[simp] theorem advance_gct (s : State) (n : Nat) : (s.advance n).gct = s.gct := rfl
@[simp] theorem advance_gctSize (s : State) (n : Nat) : (s.advance n).gctSize = s.gctSize := rfl
@[simp] theorem advance_lct (s : State) (n : Nat) : (s.advance n).lct = s.lct := rfl
@[simp] theorem advance_lctSize (s : State) (n : Nat) : (s.advance n).lctSize = s.lctSize := rfl
@[simp] theorem advance_ft (s : State) (n : Nat) : (s.advance n).ft = s.ft := rfl
@[simp] theorem advance_inbuf (s : State) (n : Nat) : (s.advance n).inbuf = s.inbuf := rfl
@[simp] theorem advance_outbuf (s : State) (n : Nat) : (s.advance n).outbuf = s.outbuf := rfl
@[simp] theorem advance_moves (s : State) (n : Nat) : (s.advance n).moves = s.moves := rfl
@[simp] theorem advance_readData (s : State) (n : Nat) : (s.advance n).readData = s.readData := rfl
@[simp] theorem advance_draws (s : State) (n : Nat) : (s.advance n).draws = s.draws := rfl
@[simp] theorem advance_resets (s : State) (n : Nat) : (s.advance n).resets = s.resets := rfl

/-! ### a write to PREFIX -/

@[simp] theorem setPrefix_cfg (s : State) (c : Nat) (v : BitVec 12) : (s.setPrefix c v).cfg = s.cfg := rfl
@[simp] theorem setPrefix_ctrl (s : State) (c : Nat) (v : BitVec 12) : (s.setPrefix c v).ctrl = s.ctrl := rfl
@[simp] theorem setPrefix_status (s : State) (c : Nat) (v : BitVec 12) : (s.setPrefix c v).status = s.status := rfl
@[simp] theorem setPrefix_inLen (s : State) (c : Nat) (v : BitVec 12) : (s.setPrefix c v).inLen = s.inLen := rfl
@[simp] theorem setPrefix_frameCount (s : State) (c : Nat) (v : BitVec 12) :
    (s.setPrefix c v).frameCount = s.frameCount := rfl
@[simp] theorem setPrefix_outUsed (s : State) (c : Nat) (v : BitVec 12) : (s.setPrefix c v).outUsed = s.outUsed := rfl
@[simp] theorem setPrefix_errPos (s : State) (c : Nat) (v : BitVec 12) : (s.setPrefix c v).errPos = s.errPos := rfl
@[simp] theorem setPrefix_fsel (s : State) (c : Nat) (v : BitVec 12) : (s.setPrefix c v).fsel = s.fsel := rfl
@[simp] theorem setPrefix_st (s : State) (c : Nat) (v : BitVec 12) : (s.setPrefix c v).st = s.st := rfl
@[simp] theorem setPrefix_pos (s : State) (c : Nat) (v : BitVec 12) : (s.setPrefix c v).pos = s.pos := rfl
@[simp] theorem setPrefix_lzw (s : State) (c : Nat) (v : BitVec 12) : (s.setPrefix c v).lzw = s.lzw := rfl
@[simp] theorem setPrefix_img (s : State) (c : Nat) (v : BitVec 12) : (s.setPrefix c v).img = s.img := rfl
@[simp] theorem setPrefix_place (s : State) (c : Nat) (v : BitVec 12) : (s.setPrefix c v).place = s.place := rfl
@[simp] theorem setPrefix_pend (s : State) (c : Nat) (v : BitVec 12) : (s.setPrefix c v).pend = s.pend := rfl
@[simp] theorem setPrefix_extLabel (s : State) (c : Nat) (v : BitVec 12) :
    (s.setPrefix c v).extLabel = s.extLabel := rfl
@[simp] theorem setPrefix_prefixTab (s : State) (c : Nat) (v : BitVec 12) :
    (s.setPrefix c v).prefixTab = writeCell s.prefixTab c v := rfl
@[simp] theorem setPrefix_suffixTab (s : State) (c : Nat) (v : BitVec 12) :
    (s.setPrefix c v).suffixTab = s.suffixTab := rfl
@[simp] theorem setPrefix_stack (s : State) (c : Nat) (v : BitVec 12) : (s.setPrefix c v).stack = s.stack := rfl
@[simp] theorem setPrefix_gct (s : State) (c : Nat) (v : BitVec 12) : (s.setPrefix c v).gct = s.gct := rfl
@[simp] theorem setPrefix_gctSize (s : State) (c : Nat) (v : BitVec 12) : (s.setPrefix c v).gctSize = s.gctSize := rfl
@[simp] theorem setPrefix_lct (s : State) (c : Nat) (v : BitVec 12) : (s.setPrefix c v).lct = s.lct := rfl
@[simp] theorem setPrefix_lctSize (s : State) (c : Nat) (v : BitVec 12) : (s.setPrefix c v).lctSize = s.lctSize := rfl
@[simp] theorem setPrefix_ft (s : State) (c : Nat) (v : BitVec 12) : (s.setPrefix c v).ft = s.ft := rfl
@[simp] theorem setPrefix_inbuf (s : State) (c : Nat) (v : BitVec 12) : (s.setPrefix c v).inbuf = s.inbuf := rfl
@[simp] theorem setPrefix_outbuf (s : State) (c : Nat) (v : BitVec 12) : (s.setPrefix c v).outbuf = s.outbuf := rfl
@[simp] theorem setPrefix_moves (s : State) (c : Nat) (v : BitVec 12) : (s.setPrefix c v).moves = s.moves := rfl
@[simp] theorem setPrefix_readData (s : State) (c : Nat) (v : BitVec 12) :
    (s.setPrefix c v).readData = s.readData := rfl
@[simp] theorem setPrefix_draws (s : State) (c : Nat) (v : BitVec 12) : (s.setPrefix c v).draws = s.draws := rfl
@[simp] theorem setPrefix_resets (s : State) (c : Nat) (v : BitVec 12) : (s.setPrefix c v).resets = s.resets := rfl

/-! ### a write to SUFFIX -/

@[simp] theorem setSuffix_cfg (s : State) (c : Nat) (v : Byte) : (s.setSuffix c v).cfg = s.cfg := rfl
@[simp] theorem setSuffix_ctrl (s : State) (c : Nat) (v : Byte) : (s.setSuffix c v).ctrl = s.ctrl := rfl
@[simp] theorem setSuffix_status (s : State) (c : Nat) (v : Byte) : (s.setSuffix c v).status = s.status := rfl
@[simp] theorem setSuffix_inLen (s : State) (c : Nat) (v : Byte) : (s.setSuffix c v).inLen = s.inLen := rfl
@[simp] theorem setSuffix_frameCount (s : State) (c : Nat) (v : Byte) :
    (s.setSuffix c v).frameCount = s.frameCount := rfl
@[simp] theorem setSuffix_outUsed (s : State) (c : Nat) (v : Byte) : (s.setSuffix c v).outUsed = s.outUsed := rfl
@[simp] theorem setSuffix_errPos (s : State) (c : Nat) (v : Byte) : (s.setSuffix c v).errPos = s.errPos := rfl
@[simp] theorem setSuffix_fsel (s : State) (c : Nat) (v : Byte) : (s.setSuffix c v).fsel = s.fsel := rfl
@[simp] theorem setSuffix_st (s : State) (c : Nat) (v : Byte) : (s.setSuffix c v).st = s.st := rfl
@[simp] theorem setSuffix_pos (s : State) (c : Nat) (v : Byte) : (s.setSuffix c v).pos = s.pos := rfl
@[simp] theorem setSuffix_lzw (s : State) (c : Nat) (v : Byte) : (s.setSuffix c v).lzw = s.lzw := rfl
@[simp] theorem setSuffix_img (s : State) (c : Nat) (v : Byte) : (s.setSuffix c v).img = s.img := rfl
@[simp] theorem setSuffix_place (s : State) (c : Nat) (v : Byte) : (s.setSuffix c v).place = s.place := rfl
@[simp] theorem setSuffix_pend (s : State) (c : Nat) (v : Byte) : (s.setSuffix c v).pend = s.pend := rfl
@[simp] theorem setSuffix_extLabel (s : State) (c : Nat) (v : Byte) : (s.setSuffix c v).extLabel = s.extLabel := rfl
@[simp] theorem setSuffix_prefixTab (s : State) (c : Nat) (v : Byte) :
    (s.setSuffix c v).prefixTab = s.prefixTab := rfl
@[simp] theorem setSuffix_suffixTab (s : State) (c : Nat) (v : Byte) :
    (s.setSuffix c v).suffixTab = writeCell s.suffixTab c v := rfl
@[simp] theorem setSuffix_stack (s : State) (c : Nat) (v : Byte) : (s.setSuffix c v).stack = s.stack := rfl
@[simp] theorem setSuffix_gct (s : State) (c : Nat) (v : Byte) : (s.setSuffix c v).gct = s.gct := rfl
@[simp] theorem setSuffix_gctSize (s : State) (c : Nat) (v : Byte) : (s.setSuffix c v).gctSize = s.gctSize := rfl
@[simp] theorem setSuffix_lct (s : State) (c : Nat) (v : Byte) : (s.setSuffix c v).lct = s.lct := rfl
@[simp] theorem setSuffix_lctSize (s : State) (c : Nat) (v : Byte) : (s.setSuffix c v).lctSize = s.lctSize := rfl
@[simp] theorem setSuffix_ft (s : State) (c : Nat) (v : Byte) : (s.setSuffix c v).ft = s.ft := rfl
@[simp] theorem setSuffix_inbuf (s : State) (c : Nat) (v : Byte) : (s.setSuffix c v).inbuf = s.inbuf := rfl
@[simp] theorem setSuffix_outbuf (s : State) (c : Nat) (v : Byte) : (s.setSuffix c v).outbuf = s.outbuf := rfl
@[simp] theorem setSuffix_moves (s : State) (c : Nat) (v : Byte) : (s.setSuffix c v).moves = s.moves := rfl
@[simp] theorem setSuffix_readData (s : State) (c : Nat) (v : Byte) : (s.setSuffix c v).readData = s.readData := rfl
@[simp] theorem setSuffix_draws (s : State) (c : Nat) (v : Byte) : (s.setSuffix c v).draws = s.draws := rfl
@[simp] theorem setSuffix_resets (s : State) (c : Nat) (v : Byte) : (s.setSuffix c v).resets = s.resets := rfl

/-! ### a write to STACK -/

@[simp] theorem setStack_cfg (s : State) (i : Nat) (v : Byte) : (s.setStack i v).cfg = s.cfg := rfl
@[simp] theorem setStack_ctrl (s : State) (i : Nat) (v : Byte) : (s.setStack i v).ctrl = s.ctrl := rfl
@[simp] theorem setStack_status (s : State) (i : Nat) (v : Byte) : (s.setStack i v).status = s.status := rfl
@[simp] theorem setStack_inLen (s : State) (i : Nat) (v : Byte) : (s.setStack i v).inLen = s.inLen := rfl
@[simp] theorem setStack_frameCount (s : State) (i : Nat) (v : Byte) :
    (s.setStack i v).frameCount = s.frameCount := rfl
@[simp] theorem setStack_outUsed (s : State) (i : Nat) (v : Byte) : (s.setStack i v).outUsed = s.outUsed := rfl
@[simp] theorem setStack_errPos (s : State) (i : Nat) (v : Byte) : (s.setStack i v).errPos = s.errPos := rfl
@[simp] theorem setStack_fsel (s : State) (i : Nat) (v : Byte) : (s.setStack i v).fsel = s.fsel := rfl
@[simp] theorem setStack_st (s : State) (i : Nat) (v : Byte) : (s.setStack i v).st = s.st := rfl
@[simp] theorem setStack_pos (s : State) (i : Nat) (v : Byte) : (s.setStack i v).pos = s.pos := rfl
@[simp] theorem setStack_lzw (s : State) (i : Nat) (v : Byte) : (s.setStack i v).lzw = s.lzw := rfl
@[simp] theorem setStack_img (s : State) (i : Nat) (v : Byte) : (s.setStack i v).img = s.img := rfl
@[simp] theorem setStack_place (s : State) (i : Nat) (v : Byte) : (s.setStack i v).place = s.place := rfl
@[simp] theorem setStack_pend (s : State) (i : Nat) (v : Byte) : (s.setStack i v).pend = s.pend := rfl
@[simp] theorem setStack_extLabel (s : State) (i : Nat) (v : Byte) : (s.setStack i v).extLabel = s.extLabel := rfl
@[simp] theorem setStack_prefixTab (s : State) (i : Nat) (v : Byte) : (s.setStack i v).prefixTab = s.prefixTab := rfl
@[simp] theorem setStack_suffixTab (s : State) (i : Nat) (v : Byte) : (s.setStack i v).suffixTab = s.suffixTab := rfl
@[simp] theorem setStack_stack (s : State) (i : Nat) (v : Byte) :
    (s.setStack i v).stack = writeCell s.stack i v := rfl
@[simp] theorem setStack_gct (s : State) (i : Nat) (v : Byte) : (s.setStack i v).gct = s.gct := rfl
@[simp] theorem setStack_gctSize (s : State) (i : Nat) (v : Byte) : (s.setStack i v).gctSize = s.gctSize := rfl
@[simp] theorem setStack_lct (s : State) (i : Nat) (v : Byte) : (s.setStack i v).lct = s.lct := rfl
@[simp] theorem setStack_lctSize (s : State) (i : Nat) (v : Byte) : (s.setStack i v).lctSize = s.lctSize := rfl
@[simp] theorem setStack_ft (s : State) (i : Nat) (v : Byte) : (s.setStack i v).ft = s.ft := rfl
@[simp] theorem setStack_inbuf (s : State) (i : Nat) (v : Byte) : (s.setStack i v).inbuf = s.inbuf := rfl
@[simp] theorem setStack_outbuf (s : State) (i : Nat) (v : Byte) : (s.setStack i v).outbuf = s.outbuf := rfl
@[simp] theorem setStack_moves (s : State) (i : Nat) (v : Byte) : (s.setStack i v).moves = s.moves := rfl
@[simp] theorem setStack_readData (s : State) (i : Nat) (v : Byte) : (s.setStack i v).readData = s.readData := rfl
@[simp] theorem setStack_draws (s : State) (i : Nat) (v : Byte) : (s.setStack i v).draws = s.draws := rfl
@[simp] theorem setStack_resets (s : State) (i : Nat) (v : Byte) : (s.setStack i v).resets = s.resets := rfl

/-! ### a write to FT -/

@[simp] theorem setFrame_cfg (s : State) (i : Nat) (v : FrameRecord) : (s.setFrame i v).cfg = s.cfg := rfl
@[simp] theorem setFrame_ctrl (s : State) (i : Nat) (v : FrameRecord) : (s.setFrame i v).ctrl = s.ctrl := rfl
@[simp] theorem setFrame_status (s : State) (i : Nat) (v : FrameRecord) : (s.setFrame i v).status = s.status := rfl
@[simp] theorem setFrame_inLen (s : State) (i : Nat) (v : FrameRecord) : (s.setFrame i v).inLen = s.inLen := rfl
@[simp] theorem setFrame_frameCount (s : State) (i : Nat) (v : FrameRecord) :
    (s.setFrame i v).frameCount = s.frameCount := rfl
@[simp] theorem setFrame_outUsed (s : State) (i : Nat) (v : FrameRecord) : (s.setFrame i v).outUsed = s.outUsed := rfl
@[simp] theorem setFrame_errPos (s : State) (i : Nat) (v : FrameRecord) : (s.setFrame i v).errPos = s.errPos := rfl
@[simp] theorem setFrame_fsel (s : State) (i : Nat) (v : FrameRecord) : (s.setFrame i v).fsel = s.fsel := rfl
@[simp] theorem setFrame_st (s : State) (i : Nat) (v : FrameRecord) : (s.setFrame i v).st = s.st := rfl
@[simp] theorem setFrame_pos (s : State) (i : Nat) (v : FrameRecord) : (s.setFrame i v).pos = s.pos := rfl
@[simp] theorem setFrame_lzw (s : State) (i : Nat) (v : FrameRecord) : (s.setFrame i v).lzw = s.lzw := rfl
@[simp] theorem setFrame_img (s : State) (i : Nat) (v : FrameRecord) : (s.setFrame i v).img = s.img := rfl
@[simp] theorem setFrame_place (s : State) (i : Nat) (v : FrameRecord) : (s.setFrame i v).place = s.place := rfl
@[simp] theorem setFrame_pend (s : State) (i : Nat) (v : FrameRecord) : (s.setFrame i v).pend = s.pend := rfl
@[simp] theorem setFrame_extLabel (s : State) (i : Nat) (v : FrameRecord) :
    (s.setFrame i v).extLabel = s.extLabel := rfl
@[simp] theorem setFrame_prefixTab (s : State) (i : Nat) (v : FrameRecord) :
    (s.setFrame i v).prefixTab = s.prefixTab := rfl
@[simp] theorem setFrame_suffixTab (s : State) (i : Nat) (v : FrameRecord) :
    (s.setFrame i v).suffixTab = s.suffixTab := rfl
@[simp] theorem setFrame_stack (s : State) (i : Nat) (v : FrameRecord) : (s.setFrame i v).stack = s.stack := rfl
@[simp] theorem setFrame_gct (s : State) (i : Nat) (v : FrameRecord) : (s.setFrame i v).gct = s.gct := rfl
@[simp] theorem setFrame_gctSize (s : State) (i : Nat) (v : FrameRecord) : (s.setFrame i v).gctSize = s.gctSize := rfl
@[simp] theorem setFrame_lct (s : State) (i : Nat) (v : FrameRecord) : (s.setFrame i v).lct = s.lct := rfl
@[simp] theorem setFrame_lctSize (s : State) (i : Nat) (v : FrameRecord) : (s.setFrame i v).lctSize = s.lctSize := rfl
@[simp] theorem setFrame_ft (s : State) (i : Nat) (v : FrameRecord) :
    (s.setFrame i v).ft = writeCell s.ft i v := rfl
@[simp] theorem setFrame_inbuf (s : State) (i : Nat) (v : FrameRecord) : (s.setFrame i v).inbuf = s.inbuf := rfl
@[simp] theorem setFrame_outbuf (s : State) (i : Nat) (v : FrameRecord) : (s.setFrame i v).outbuf = s.outbuf := rfl
@[simp] theorem setFrame_moves (s : State) (i : Nat) (v : FrameRecord) : (s.setFrame i v).moves = s.moves := rfl
@[simp] theorem setFrame_readData (s : State) (i : Nat) (v : FrameRecord) :
    (s.setFrame i v).readData = s.readData := rfl
@[simp] theorem setFrame_draws (s : State) (i : Nat) (v : FrameRecord) : (s.setFrame i v).draws = s.draws := rfl
@[simp] theorem setFrame_resets (s : State) (i : Nat) (v : FrameRecord) : (s.setFrame i v).resets = s.resets := rfl

/-! ### `StartCommand()` -/

@[simp] theorem startCommand_cfg (s : State) : (startCommand s).cfg = s.cfg := rfl
@[simp] theorem startCommand_ctrl (s : State) : (startCommand s).ctrl = s.ctrl := rfl
@[simp] theorem startCommand_status (s : State) :
    (startCommand s).status =
      { busy := true, done := false, idMatch := false, err := .none, wIdx := false, wAnom := false } := rfl
@[simp] theorem startCommand_inLen (s : State) : (startCommand s).inLen = s.inLen := rfl
@[simp] theorem startCommand_frameCount (s : State) : (startCommand s).frameCount = s.frameCount := rfl
@[simp] theorem startCommand_outUsed (s : State) : (startCommand s).outUsed = s.outUsed := rfl
@[simp] theorem startCommand_errPos (s : State) : (startCommand s).errPos = 0 := rfl
@[simp] theorem startCommand_fsel (s : State) : (startCommand s).fsel = s.fsel := rfl
@[simp] theorem startCommand_st (s : State) : (startCommand s).st = s.st := rfl
@[simp] theorem startCommand_pos (s : State) : (startCommand s).pos = s.pos := rfl
@[simp] theorem startCommand_lzw (s : State) : (startCommand s).lzw = s.lzw := rfl
@[simp] theorem startCommand_img (s : State) : (startCommand s).img = s.img := rfl
@[simp] theorem startCommand_place (s : State) : (startCommand s).place = s.place := rfl
@[simp] theorem startCommand_pend (s : State) : (startCommand s).pend = s.pend := rfl
@[simp] theorem startCommand_extLabel (s : State) : (startCommand s).extLabel = s.extLabel := rfl
@[simp] theorem startCommand_prefixTab (s : State) : (startCommand s).prefixTab = s.prefixTab := rfl
@[simp] theorem startCommand_suffixTab (s : State) : (startCommand s).suffixTab = s.suffixTab := rfl
@[simp] theorem startCommand_stack (s : State) : (startCommand s).stack = s.stack := rfl
@[simp] theorem startCommand_gct (s : State) : (startCommand s).gct = s.gct := rfl
@[simp] theorem startCommand_gctSize (s : State) : (startCommand s).gctSize = s.gctSize := rfl
@[simp] theorem startCommand_lct (s : State) : (startCommand s).lct = s.lct := rfl
@[simp] theorem startCommand_lctSize (s : State) : (startCommand s).lctSize = s.lctSize := rfl
@[simp] theorem startCommand_ft (s : State) : (startCommand s).ft = s.ft := rfl
@[simp] theorem startCommand_inbuf (s : State) : (startCommand s).inbuf = s.inbuf := rfl
@[simp] theorem startCommand_outbuf (s : State) : (startCommand s).outbuf = s.outbuf := rfl
@[simp] theorem startCommand_moves (s : State) : (startCommand s).moves = s.moves := rfl
@[simp] theorem startCommand_readData (s : State) : (startCommand s).readData = s.readData := rfl
@[simp] theorem startCommand_draws (s : State) : (startCommand s).draws = s.draws := rfl
@[simp] theorem startCommand_resets (s : State) : (startCommand s).resets = s.resets := rfl

/-! ### `Complete(e)` -/

@[simp] theorem complete_cfg (e : ErrKind) (s : State) : (complete e s).cfg = s.cfg := rfl
@[simp] theorem complete_ctrl (e : ErrKind) (s : State) : (complete e s).ctrl = s.ctrl := rfl
@[simp] theorem complete_status (e : ErrKind) (s : State) :
    (complete e s).status = { s.status with err := e, busy := false, done := true } := rfl
@[simp] theorem complete_inLen (e : ErrKind) (s : State) : (complete e s).inLen = s.inLen := rfl
@[simp] theorem complete_frameCount (e : ErrKind) (s : State) : (complete e s).frameCount = s.frameCount := rfl
@[simp] theorem complete_outUsed (e : ErrKind) (s : State) : (complete e s).outUsed = s.outUsed := rfl
@[simp] theorem complete_errPos (e : ErrKind) (s : State) : (complete e s).errPos = s.errPos := rfl
@[simp] theorem complete_fsel (e : ErrKind) (s : State) : (complete e s).fsel = s.fsel := rfl
@[simp] theorem complete_st (e : ErrKind) (s : State) : (complete e s).st = .idle := rfl
@[simp] theorem complete_pos (e : ErrKind) (s : State) : (complete e s).pos = s.pos := rfl
@[simp] theorem complete_lzw (e : ErrKind) (s : State) : (complete e s).lzw = s.lzw := rfl
@[simp] theorem complete_img (e : ErrKind) (s : State) : (complete e s).img = s.img := rfl
@[simp] theorem complete_place (e : ErrKind) (s : State) : (complete e s).place = s.place := rfl
@[simp] theorem complete_pend (e : ErrKind) (s : State) : (complete e s).pend = s.pend := rfl
@[simp] theorem complete_extLabel (e : ErrKind) (s : State) : (complete e s).extLabel = s.extLabel := rfl
@[simp] theorem complete_prefixTab (e : ErrKind) (s : State) : (complete e s).prefixTab = s.prefixTab := rfl
@[simp] theorem complete_suffixTab (e : ErrKind) (s : State) : (complete e s).suffixTab = s.suffixTab := rfl
@[simp] theorem complete_stack (e : ErrKind) (s : State) : (complete e s).stack = s.stack := rfl
@[simp] theorem complete_gct (e : ErrKind) (s : State) : (complete e s).gct = s.gct := rfl
@[simp] theorem complete_gctSize (e : ErrKind) (s : State) : (complete e s).gctSize = s.gctSize := rfl
@[simp] theorem complete_lct (e : ErrKind) (s : State) : (complete e s).lct = s.lct := rfl
@[simp] theorem complete_lctSize (e : ErrKind) (s : State) : (complete e s).lctSize = s.lctSize := rfl
@[simp] theorem complete_ft (e : ErrKind) (s : State) : (complete e s).ft = s.ft := rfl
@[simp] theorem complete_inbuf (e : ErrKind) (s : State) : (complete e s).inbuf = s.inbuf := rfl
@[simp] theorem complete_outbuf (e : ErrKind) (s : State) : (complete e s).outbuf = s.outbuf := rfl
@[simp] theorem complete_moves (e : ErrKind) (s : State) : (complete e s).moves = s.moves := rfl
@[simp] theorem complete_readData (e : ErrKind) (s : State) : (complete e s).readData = s.readData := rfl
@[simp] theorem complete_draws (e : ErrKind) (s : State) : (complete e s).draws = s.draws := rfl
@[simp] theorem complete_resets (e : ErrKind) (s : State) : (complete e s).resets = s.resets := rfl

/-! ### `Fatal(k)` -/

@[simp] theorem fatal_cfg (k : ErrKind) (s : State) : (fatal k s).cfg = s.cfg := rfl
@[simp] theorem fatal_ctrl (k : ErrKind) (s : State) : (fatal k s).ctrl = s.ctrl := rfl
@[simp] theorem fatal_status (k : ErrKind) (s : State) :
    (fatal k s).status = { s.status with err := k, busy := false, done := true } := rfl
@[simp] theorem fatal_inLen (k : ErrKind) (s : State) : (fatal k s).inLen = s.inLen := rfl
@[simp] theorem fatal_frameCount (k : ErrKind) (s : State) : (fatal k s).frameCount = s.frameCount := rfl
@[simp] theorem fatal_outUsed (k : ErrKind) (s : State) : (fatal k s).outUsed = s.outUsed := rfl
@[simp] theorem fatal_errPos (k : ErrKind) (s : State) : (fatal k s).errPos = s.pos := rfl
@[simp] theorem fatal_fsel (k : ErrKind) (s : State) : (fatal k s).fsel = s.fsel := rfl
@[simp] theorem fatal_st (k : ErrKind) (s : State) : (fatal k s).st = .idle := rfl
@[simp] theorem fatal_pos (k : ErrKind) (s : State) : (fatal k s).pos = s.pos := rfl
@[simp] theorem fatal_lzw (k : ErrKind) (s : State) : (fatal k s).lzw = s.lzw := rfl
@[simp] theorem fatal_img (k : ErrKind) (s : State) : (fatal k s).img = s.img := rfl
@[simp] theorem fatal_place (k : ErrKind) (s : State) : (fatal k s).place = s.place := rfl
@[simp] theorem fatal_pend (k : ErrKind) (s : State) : (fatal k s).pend = s.pend := rfl
@[simp] theorem fatal_extLabel (k : ErrKind) (s : State) : (fatal k s).extLabel = s.extLabel := rfl
@[simp] theorem fatal_prefixTab (k : ErrKind) (s : State) : (fatal k s).prefixTab = s.prefixTab := rfl
@[simp] theorem fatal_suffixTab (k : ErrKind) (s : State) : (fatal k s).suffixTab = s.suffixTab := rfl
@[simp] theorem fatal_stack (k : ErrKind) (s : State) : (fatal k s).stack = s.stack := rfl
@[simp] theorem fatal_gct (k : ErrKind) (s : State) : (fatal k s).gct = s.gct := rfl
@[simp] theorem fatal_gctSize (k : ErrKind) (s : State) : (fatal k s).gctSize = s.gctSize := rfl
@[simp] theorem fatal_lct (k : ErrKind) (s : State) : (fatal k s).lct = s.lct := rfl
@[simp] theorem fatal_lctSize (k : ErrKind) (s : State) : (fatal k s).lctSize = s.lctSize := rfl
@[simp] theorem fatal_ft (k : ErrKind) (s : State) : (fatal k s).ft = s.ft := rfl
@[simp] theorem fatal_inbuf (k : ErrKind) (s : State) : (fatal k s).inbuf = s.inbuf := rfl
@[simp] theorem fatal_outbuf (k : ErrKind) (s : State) : (fatal k s).outbuf = s.outbuf := rfl
@[simp] theorem fatal_moves (k : ErrKind) (s : State) : (fatal k s).moves = s.moves := rfl
@[simp] theorem fatal_readData (k : ErrKind) (s : State) : (fatal k s).readData = s.readData := rfl
@[simp] theorem fatal_draws (k : ErrKind) (s : State) : (fatal k s).draws = s.draws := rfl
@[simp] theorem fatal_resets (k : ErrKind) (s : State) : (fatal k s).resets = s.resets := rfl

/-! ### `Anomaly(k)` under KEEP or DISCARD -/

@[simp] theorem endImage_cfg (k : ErrKind) (s : State) : (endImage k s).cfg = s.cfg := rfl
@[simp] theorem endImage_ctrl (k : ErrKind) (s : State) : (endImage k s).ctrl = s.ctrl := rfl
@[simp] theorem endImage_status (k : ErrKind) (s : State) :
    (endImage k s).status = { s.status with wAnom := true } := rfl
@[simp] theorem endImage_inLen (k : ErrKind) (s : State) : (endImage k s).inLen = s.inLen := rfl
@[simp] theorem endImage_frameCount (k : ErrKind) (s : State) : (endImage k s).frameCount = s.frameCount := rfl
@[simp] theorem endImage_outUsed (k : ErrKind) (s : State) : (endImage k s).outUsed = s.outUsed := rfl
@[simp] theorem endImage_errPos (k : ErrKind) (s : State) :
    (endImage k s).errPos = if s.status.wAnom then s.errPos else s.pos := rfl
@[simp] theorem endImage_fsel (k : ErrKind) (s : State) : (endImage k s).fsel = s.fsel := rfl
@[simp] theorem endImage_st (k : ErrKind) (s : State) :
    (endImage k s).st = if k = .truncatedStream then .commit else .drain := rfl
@[simp] theorem endImage_pos (k : ErrKind) (s : State) :
    (endImage k s).pos = if k = .truncatedStream then s.inLen else s.pos := rfl
@[simp] theorem endImage_lzw (k : ErrKind) (s : State) :
    (endImage k s).lzw = { s.lzw with
      sp := 0, termSeen := if k = .truncatedStream then true else s.lzw.termSeen } := rfl
@[simp] theorem endImage_img (k : ErrKind) (s : State) :
    (endImage k s).img = { s.img with anom := if s.img.anom = .none then k else s.img.anom } := rfl
@[simp] theorem endImage_place (k : ErrKind) (s : State) : (endImage k s).place = s.place := rfl
@[simp] theorem endImage_pend (k : ErrKind) (s : State) : (endImage k s).pend = s.pend := rfl
@[simp] theorem endImage_extLabel (k : ErrKind) (s : State) : (endImage k s).extLabel = s.extLabel := rfl
@[simp] theorem endImage_prefixTab (k : ErrKind) (s : State) : (endImage k s).prefixTab = s.prefixTab := rfl
@[simp] theorem endImage_suffixTab (k : ErrKind) (s : State) : (endImage k s).suffixTab = s.suffixTab := rfl
@[simp] theorem endImage_stack (k : ErrKind) (s : State) : (endImage k s).stack = s.stack := rfl
@[simp] theorem endImage_gct (k : ErrKind) (s : State) : (endImage k s).gct = s.gct := rfl
@[simp] theorem endImage_gctSize (k : ErrKind) (s : State) : (endImage k s).gctSize = s.gctSize := rfl
@[simp] theorem endImage_lct (k : ErrKind) (s : State) : (endImage k s).lct = s.lct := rfl
@[simp] theorem endImage_lctSize (k : ErrKind) (s : State) : (endImage k s).lctSize = s.lctSize := rfl
@[simp] theorem endImage_ft (k : ErrKind) (s : State) : (endImage k s).ft = s.ft := rfl
@[simp] theorem endImage_inbuf (k : ErrKind) (s : State) : (endImage k s).inbuf = s.inbuf := rfl
@[simp] theorem endImage_outbuf (k : ErrKind) (s : State) : (endImage k s).outbuf = s.outbuf := rfl
@[simp] theorem endImage_moves (k : ErrKind) (s : State) : (endImage k s).moves = s.moves := rfl
@[simp] theorem endImage_readData (k : ErrKind) (s : State) : (endImage k s).readData = s.readData := rfl
@[simp] theorem endImage_draws (k : ErrKind) (s : State) : (endImage k s).draws = s.draws := rfl
@[simp] theorem endImage_resets (k : ErrKind) (s : State) : (endImage k s).resets = s.resets := rfl

/-! ### the code's extraction (R244) -/

@[simp] theorem dropCode_cfg (s : State) : (dropCode s).cfg = s.cfg := rfl
@[simp] theorem dropCode_ctrl (s : State) : (dropCode s).ctrl = s.ctrl := rfl
@[simp] theorem dropCode_status (s : State) : (dropCode s).status = s.status := rfl
@[simp] theorem dropCode_inLen (s : State) : (dropCode s).inLen = s.inLen := rfl
@[simp] theorem dropCode_frameCount (s : State) : (dropCode s).frameCount = s.frameCount := rfl
@[simp] theorem dropCode_outUsed (s : State) : (dropCode s).outUsed = s.outUsed := rfl
@[simp] theorem dropCode_errPos (s : State) : (dropCode s).errPos = s.errPos := rfl
@[simp] theorem dropCode_fsel (s : State) : (dropCode s).fsel = s.fsel := rfl
@[simp] theorem dropCode_st (s : State) : (dropCode s).st = s.st := rfl
@[simp] theorem dropCode_pos (s : State) : (dropCode s).pos = s.pos := rfl
@[simp] theorem dropCode_lzw (s : State) :
    (dropCode s).lzw = { s.lzw with
      datum := BitVec.ofNat 32 (s.lzw.datum.toNat / 2 ^ s.lzw.codeSize.toNat),
      bits := BitVec.ofNat 5 (s.lzw.bits.toNat - s.lzw.codeSize.toNat) } := rfl
@[simp] theorem dropCode_img (s : State) : (dropCode s).img = s.img := rfl
@[simp] theorem dropCode_place (s : State) : (dropCode s).place = s.place := rfl
@[simp] theorem dropCode_pend (s : State) : (dropCode s).pend = s.pend := rfl
@[simp] theorem dropCode_extLabel (s : State) : (dropCode s).extLabel = s.extLabel := rfl
@[simp] theorem dropCode_prefixTab (s : State) : (dropCode s).prefixTab = s.prefixTab := rfl
@[simp] theorem dropCode_suffixTab (s : State) : (dropCode s).suffixTab = s.suffixTab := rfl
@[simp] theorem dropCode_stack (s : State) : (dropCode s).stack = s.stack := rfl
@[simp] theorem dropCode_gct (s : State) : (dropCode s).gct = s.gct := rfl
@[simp] theorem dropCode_gctSize (s : State) : (dropCode s).gctSize = s.gctSize := rfl
@[simp] theorem dropCode_lct (s : State) : (dropCode s).lct = s.lct := rfl
@[simp] theorem dropCode_lctSize (s : State) : (dropCode s).lctSize = s.lctSize := rfl
@[simp] theorem dropCode_ft (s : State) : (dropCode s).ft = s.ft := rfl
@[simp] theorem dropCode_inbuf (s : State) : (dropCode s).inbuf = s.inbuf := rfl
@[simp] theorem dropCode_outbuf (s : State) : (dropCode s).outbuf = s.outbuf := rfl
@[simp] theorem dropCode_moves (s : State) : (dropCode s).moves = s.moves := rfl
@[simp] theorem dropCode_readData (s : State) : (dropCode s).readData = s.readData := rfl
@[simp] theorem dropCode_draws (s : State) : (dropCode s).draws = s.draws := rfl
@[simp] theorem dropCode_resets (s : State) : (dropCode s).resets = s.resets := rfl

/-! ### FETCH_BYTE -/

@[simp] theorem takeByte_cfg (b : Byte) (s : State) : (takeByte b s).cfg = s.cfg := rfl
@[simp] theorem takeByte_ctrl (b : Byte) (s : State) : (takeByte b s).ctrl = s.ctrl := rfl
@[simp] theorem takeByte_status (b : Byte) (s : State) : (takeByte b s).status = s.status := rfl
@[simp] theorem takeByte_inLen (b : Byte) (s : State) : (takeByte b s).inLen = s.inLen := rfl
@[simp] theorem takeByte_frameCount (b : Byte) (s : State) : (takeByte b s).frameCount = s.frameCount := rfl
@[simp] theorem takeByte_outUsed (b : Byte) (s : State) : (takeByte b s).outUsed = s.outUsed := rfl
@[simp] theorem takeByte_errPos (b : Byte) (s : State) : (takeByte b s).errPos = s.errPos := rfl
@[simp] theorem takeByte_fsel (b : Byte) (s : State) : (takeByte b s).fsel = s.fsel := rfl
@[simp] theorem takeByte_st (b : Byte) (s : State) : (takeByte b s).st = s.st := rfl
@[simp] theorem takeByte_pos (b : Byte) (s : State) : (takeByte b s).pos = s.pos := rfl
@[simp] theorem takeByte_lzw (b : Byte) (s : State) :
    (takeByte b s).lzw = { s.lzw with
      datum := BitVec.ofNat 32 (s.lzw.datum.toNat + b.toNat * 2 ^ s.lzw.bits.toNat),
      bits := BitVec.ofNat 5 (s.lzw.bits.toNat + 8), count := BitVec.ofNat 8 (s.lzw.count.toNat - 1) } := rfl
@[simp] theorem takeByte_img (b : Byte) (s : State) : (takeByte b s).img = s.img := rfl
@[simp] theorem takeByte_place (b : Byte) (s : State) : (takeByte b s).place = s.place := rfl
@[simp] theorem takeByte_pend (b : Byte) (s : State) : (takeByte b s).pend = s.pend := rfl
@[simp] theorem takeByte_extLabel (b : Byte) (s : State) : (takeByte b s).extLabel = s.extLabel := rfl
@[simp] theorem takeByte_prefixTab (b : Byte) (s : State) : (takeByte b s).prefixTab = s.prefixTab := rfl
@[simp] theorem takeByte_suffixTab (b : Byte) (s : State) : (takeByte b s).suffixTab = s.suffixTab := rfl
@[simp] theorem takeByte_stack (b : Byte) (s : State) : (takeByte b s).stack = s.stack := rfl
@[simp] theorem takeByte_gct (b : Byte) (s : State) : (takeByte b s).gct = s.gct := rfl
@[simp] theorem takeByte_gctSize (b : Byte) (s : State) : (takeByte b s).gctSize = s.gctSize := rfl
@[simp] theorem takeByte_lct (b : Byte) (s : State) : (takeByte b s).lct = s.lct := rfl
@[simp] theorem takeByte_lctSize (b : Byte) (s : State) : (takeByte b s).lctSize = s.lctSize := rfl
@[simp] theorem takeByte_ft (b : Byte) (s : State) : (takeByte b s).ft = s.ft := rfl
@[simp] theorem takeByte_inbuf (b : Byte) (s : State) : (takeByte b s).inbuf = s.inbuf := rfl
@[simp] theorem takeByte_outbuf (b : Byte) (s : State) : (takeByte b s).outbuf = s.outbuf := rfl
@[simp] theorem takeByte_moves (b : Byte) (s : State) : (takeByte b s).moves = s.moves := rfl
@[simp] theorem takeByte_readData (b : Byte) (s : State) : (takeByte b s).readData = s.readData := rfl
@[simp] theorem takeByte_draws (b : Byte) (s : State) : (takeByte b s).draws = s.draws := rfl
@[simp] theorem takeByte_resets (b : Byte) (s : State) : (takeByte b s).resets = s.resets := rfl

/-! ### `ClearCode()` -/

@[simp] theorem clearCode_cfg (s : State) : (clearCode s).cfg = s.cfg := rfl
@[simp] theorem clearCode_ctrl (s : State) : (clearCode s).ctrl = s.ctrl := rfl
@[simp] theorem clearCode_status (s : State) : (clearCode s).status = s.status := rfl
@[simp] theorem clearCode_inLen (s : State) : (clearCode s).inLen = s.inLen := rfl
@[simp] theorem clearCode_frameCount (s : State) : (clearCode s).frameCount = s.frameCount := rfl
@[simp] theorem clearCode_outUsed (s : State) : (clearCode s).outUsed = s.outUsed := rfl
@[simp] theorem clearCode_errPos (s : State) : (clearCode s).errPos = s.errPos := rfl
@[simp] theorem clearCode_fsel (s : State) : (clearCode s).fsel = s.fsel := rfl
@[simp] theorem clearCode_st (s : State) : (clearCode s).st = s.st := rfl
@[simp] theorem clearCode_pos (s : State) : (clearCode s).pos = s.pos := rfl
@[simp] theorem clearCode_lzw (s : State) :
    (clearCode s).lzw = { s.lzw with
      codeSize := BitVec.ofNat 4 (s.lzw.dataSize.toNat + 1),
      codeMask := maskOf (s.lzw.dataSize.toNat + 1), avail := BitVec.ofNat 13 (s.lzw.clear.toNat + 2),
      oldValid := false } := rfl
@[simp] theorem clearCode_img (s : State) : (clearCode s).img = s.img := rfl
@[simp] theorem clearCode_place (s : State) : (clearCode s).place = s.place := rfl
@[simp] theorem clearCode_pend (s : State) : (clearCode s).pend = s.pend := rfl
@[simp] theorem clearCode_extLabel (s : State) : (clearCode s).extLabel = s.extLabel := rfl
@[simp] theorem clearCode_prefixTab (s : State) : (clearCode s).prefixTab = s.prefixTab := rfl
@[simp] theorem clearCode_suffixTab (s : State) : (clearCode s).suffixTab = s.suffixTab := rfl
@[simp] theorem clearCode_stack (s : State) : (clearCode s).stack = s.stack := rfl
@[simp] theorem clearCode_gct (s : State) : (clearCode s).gct = s.gct := rfl
@[simp] theorem clearCode_gctSize (s : State) : (clearCode s).gctSize = s.gctSize := rfl
@[simp] theorem clearCode_lct (s : State) : (clearCode s).lct = s.lct := rfl
@[simp] theorem clearCode_lctSize (s : State) : (clearCode s).lctSize = s.lctSize := rfl
@[simp] theorem clearCode_ft (s : State) : (clearCode s).ft = s.ft := rfl
@[simp] theorem clearCode_inbuf (s : State) : (clearCode s).inbuf = s.inbuf := rfl
@[simp] theorem clearCode_outbuf (s : State) : (clearCode s).outbuf = s.outbuf := rfl
@[simp] theorem clearCode_moves (s : State) : (clearCode s).moves = s.moves := rfl
@[simp] theorem clearCode_readData (s : State) : (clearCode s).readData = s.readData := rfl
@[simp] theorem clearCode_draws (s : State) : (clearCode s).draws = s.draws := rfl
@[simp] theorem clearCode_resets (s : State) : (clearCode s).resets = s.resets := rfl

/-! ### `AddEntry()` -/

@[simp] theorem addEntry_cfg (s : State) : (addEntry s).cfg = s.cfg := rfl
@[simp] theorem addEntry_ctrl (s : State) : (addEntry s).ctrl = s.ctrl := rfl
@[simp] theorem addEntry_status (s : State) : (addEntry s).status = s.status := rfl
@[simp] theorem addEntry_inLen (s : State) : (addEntry s).inLen = s.inLen := rfl
@[simp] theorem addEntry_frameCount (s : State) : (addEntry s).frameCount = s.frameCount := rfl
@[simp] theorem addEntry_outUsed (s : State) : (addEntry s).outUsed = s.outUsed := rfl
@[simp] theorem addEntry_errPos (s : State) : (addEntry s).errPos = s.errPos := rfl
@[simp] theorem addEntry_fsel (s : State) : (addEntry s).fsel = s.fsel := rfl
@[simp] theorem addEntry_st (s : State) : (addEntry s).st = s.st := rfl
@[simp] theorem addEntry_pos (s : State) : (addEntry s).pos = s.pos := rfl
@[simp] theorem addEntry_lzw (s : State) :
    (addEntry s).lzw = { s.lzw with avail := BitVec.ofNat 13 (s.lzw.avail.toNat + 1) } := rfl
@[simp] theorem addEntry_img (s : State) : (addEntry s).img = s.img := rfl
@[simp] theorem addEntry_place (s : State) : (addEntry s).place = s.place := rfl
@[simp] theorem addEntry_pend (s : State) : (addEntry s).pend = s.pend := rfl
@[simp] theorem addEntry_extLabel (s : State) : (addEntry s).extLabel = s.extLabel := rfl
@[simp] theorem addEntry_prefixTab (s : State) :
    (addEntry s).prefixTab = writeCell s.prefixTab s.lzw.avail.toNat s.lzw.oldCode := rfl
@[simp] theorem addEntry_suffixTab (s : State) :
    (addEntry s).suffixTab = writeCell s.suffixTab s.lzw.avail.toNat s.lzw.first := rfl
@[simp] theorem addEntry_stack (s : State) : (addEntry s).stack = s.stack := rfl
@[simp] theorem addEntry_gct (s : State) : (addEntry s).gct = s.gct := rfl
@[simp] theorem addEntry_gctSize (s : State) : (addEntry s).gctSize = s.gctSize := rfl
@[simp] theorem addEntry_lct (s : State) : (addEntry s).lct = s.lct := rfl
@[simp] theorem addEntry_lctSize (s : State) : (addEntry s).lctSize = s.lctSize := rfl
@[simp] theorem addEntry_ft (s : State) : (addEntry s).ft = s.ft := rfl
@[simp] theorem addEntry_inbuf (s : State) : (addEntry s).inbuf = s.inbuf := rfl
@[simp] theorem addEntry_outbuf (s : State) : (addEntry s).outbuf = s.outbuf := rfl
@[simp] theorem addEntry_moves (s : State) : (addEntry s).moves = s.moves := rfl
@[simp] theorem addEntry_readData (s : State) : (addEntry s).readData = s.readData := rfl
@[simp] theorem addEntry_draws (s : State) : (addEntry s).draws = s.draws := rfl
@[simp] theorem addEntry_resets (s : State) : (addEntry s).resets = s.resets := rfl

/-! ### the image descriptor (R212) -/

@[simp] theorem readDescriptor_cfg (s : State) : (readDescriptor s).cfg = s.cfg := rfl
@[simp] theorem readDescriptor_ctrl (s : State) : (readDescriptor s).ctrl = s.ctrl := rfl
@[simp] theorem readDescriptor_status (s : State) : (readDescriptor s).status = s.status := rfl
@[simp] theorem readDescriptor_inLen (s : State) : (readDescriptor s).inLen = s.inLen := rfl
@[simp] theorem readDescriptor_frameCount (s : State) : (readDescriptor s).frameCount = s.frameCount := rfl
@[simp] theorem readDescriptor_outUsed (s : State) : (readDescriptor s).outUsed = s.outUsed := rfl
@[simp] theorem readDescriptor_errPos (s : State) : (readDescriptor s).errPos = s.errPos := rfl
@[simp] theorem readDescriptor_fsel (s : State) : (readDescriptor s).fsel = s.fsel := rfl
@[simp] theorem readDescriptor_st (s : State) : (readDescriptor s).st = s.st := rfl
@[simp] theorem readDescriptor_pos (s : State) : (readDescriptor s).pos = BitVec.ofNat 32 (s.pos.toNat + 9) := rfl
@[simp] theorem readDescriptor_lzw (s : State) : (readDescriptor s).lzw = s.lzw := rfl
@[simp] theorem readDescriptor_img (s : State) :
    (readDescriptor s).img = { s.img with
      w := s.le16 (s.pos.toNat + 4), h := s.le16 (s.pos.toNat + 6),
      il := packedInterlaced (s.inByte (s.pos.toNat + 8)) } := rfl
@[simp] theorem readDescriptor_place (s : State) : (readDescriptor s).place = s.place := rfl
@[simp] theorem readDescriptor_pend (s : State) : (readDescriptor s).pend = s.pend := rfl
@[simp] theorem readDescriptor_extLabel (s : State) : (readDescriptor s).extLabel = s.extLabel := rfl
@[simp] theorem readDescriptor_prefixTab (s : State) : (readDescriptor s).prefixTab = s.prefixTab := rfl
@[simp] theorem readDescriptor_suffixTab (s : State) : (readDescriptor s).suffixTab = s.suffixTab := rfl
@[simp] theorem readDescriptor_stack (s : State) : (readDescriptor s).stack = s.stack := rfl
@[simp] theorem readDescriptor_gct (s : State) : (readDescriptor s).gct = s.gct := rfl
@[simp] theorem readDescriptor_gctSize (s : State) : (readDescriptor s).gctSize = s.gctSize := rfl
@[simp] theorem readDescriptor_lct (s : State) : (readDescriptor s).lct = s.lct := rfl
@[simp] theorem readDescriptor_lctSize (s : State) : (readDescriptor s).lctSize = s.lctSize := rfl
@[simp] theorem readDescriptor_ft (s : State) : (readDescriptor s).ft = s.ft := rfl
@[simp] theorem readDescriptor_inbuf (s : State) : (readDescriptor s).inbuf = s.inbuf := rfl
@[simp] theorem readDescriptor_outbuf (s : State) : (readDescriptor s).outbuf = s.outbuf := rfl
@[simp] theorem readDescriptor_moves (s : State) : (readDescriptor s).moves = s.moves := rfl
@[simp] theorem readDescriptor_readData (s : State) : (readDescriptor s).readData = s.readData := rfl
@[simp] theorem readDescriptor_draws (s : State) : (readDescriptor s).draws = s.draws := rfl
@[simp] theorem readDescriptor_resets (s : State) : (readDescriptor s).resets = s.resets := rfl

/-! ### `SetUpFrame()` -/

@[simp] theorem setUpFrame_cfg (s : State) : (setUpFrame s).cfg = s.cfg := rfl
@[simp] theorem setUpFrame_ctrl (s : State) : (setUpFrame s).ctrl = s.ctrl := rfl
@[simp] theorem setUpFrame_status (s : State) : (setUpFrame s).status = s.status := rfl
@[simp] theorem setUpFrame_inLen (s : State) : (setUpFrame s).inLen = s.inLen := rfl
@[simp] theorem setUpFrame_frameCount (s : State) : (setUpFrame s).frameCount = s.frameCount := rfl
@[simp] theorem setUpFrame_outUsed (s : State) : (setUpFrame s).outUsed = s.outUsed := rfl
@[simp] theorem setUpFrame_errPos (s : State) : (setUpFrame s).errPos = s.errPos := rfl
@[simp] theorem setUpFrame_fsel (s : State) : (setUpFrame s).fsel = s.fsel := rfl
@[simp] theorem setUpFrame_st (s : State) : (setUpFrame s).st = s.st := rfl
@[simp] theorem setUpFrame_pos (s : State) : (setUpFrame s).pos = s.pos := rfl
@[simp] theorem setUpFrame_lzw (s : State) :
    (setUpFrame s).lzw = { s.lzw with sp := 0, datum := 0, bits := 0, count := 0, termSeen := false } := rfl
@[simp] theorem setUpFrame_img (s : State) :
    (setUpFrame s).img = { s.img with
      base := s.outUsed,
      total := BitVec.ofNat 32 (s.img.w.toNat * s.img.h.toNat), anom := .none } := rfl
@[simp] theorem setUpFrame_place (s : State) : (setUpFrame s).place = { pix := 0, x := 0, row := 0, pass := 0 } := rfl
@[simp] theorem setUpFrame_pend (s : State) : (setUpFrame s).pend = s.pend := rfl
@[simp] theorem setUpFrame_extLabel (s : State) : (setUpFrame s).extLabel = s.extLabel := rfl
@[simp] theorem setUpFrame_prefixTab (s : State) : (setUpFrame s).prefixTab = s.prefixTab := rfl
@[simp] theorem setUpFrame_suffixTab (s : State) : (setUpFrame s).suffixTab = s.suffixTab := rfl
@[simp] theorem setUpFrame_stack (s : State) : (setUpFrame s).stack = s.stack := rfl
@[simp] theorem setUpFrame_gct (s : State) : (setUpFrame s).gct = s.gct := rfl
@[simp] theorem setUpFrame_gctSize (s : State) : (setUpFrame s).gctSize = s.gctSize := rfl
@[simp] theorem setUpFrame_lct (s : State) : (setUpFrame s).lct = s.lct := rfl
@[simp] theorem setUpFrame_lctSize (s : State) : (setUpFrame s).lctSize = s.lctSize := rfl
@[simp] theorem setUpFrame_ft (s : State) : (setUpFrame s).ft = s.ft := rfl
@[simp] theorem setUpFrame_inbuf (s : State) : (setUpFrame s).inbuf = s.inbuf := rfl
@[simp] theorem setUpFrame_outbuf (s : State) :
    (setUpFrame s).outbuf = fillCells s.outUsed.toNat s.frameBytes 0 s.outbuf := rfl
@[simp] theorem setUpFrame_moves (s : State) : (setUpFrame s).moves = s.moves := rfl
@[simp] theorem setUpFrame_readData (s : State) : (setUpFrame s).readData = s.readData := rfl
@[simp] theorem setUpFrame_draws (s : State) : (setUpFrame s).draws = s.draws := rfl
@[simp] theorem setUpFrame_resets (s : State) : (setUpFrame s).resets = s.resets := rfl

/-! ### a host read -/

@[simp] theorem returned_cfg (s : State) (v : Word) : (s.returned v).cfg = s.cfg := rfl
@[simp] theorem returned_ctrl (s : State) (v : Word) : (s.returned v).ctrl = s.ctrl := rfl
@[simp] theorem returned_status (s : State) (v : Word) : (s.returned v).status = s.status := rfl
@[simp] theorem returned_inLen (s : State) (v : Word) : (s.returned v).inLen = s.inLen := rfl
@[simp] theorem returned_frameCount (s : State) (v : Word) : (s.returned v).frameCount = s.frameCount := rfl
@[simp] theorem returned_outUsed (s : State) (v : Word) : (s.returned v).outUsed = s.outUsed := rfl
@[simp] theorem returned_errPos (s : State) (v : Word) : (s.returned v).errPos = s.errPos := rfl
@[simp] theorem returned_fsel (s : State) (v : Word) : (s.returned v).fsel = s.fsel := rfl
@[simp] theorem returned_st (s : State) (v : Word) : (s.returned v).st = s.st := rfl
@[simp] theorem returned_pos (s : State) (v : Word) : (s.returned v).pos = s.pos := rfl
@[simp] theorem returned_lzw (s : State) (v : Word) : (s.returned v).lzw = s.lzw := rfl
@[simp] theorem returned_img (s : State) (v : Word) : (s.returned v).img = s.img := rfl
@[simp] theorem returned_place (s : State) (v : Word) : (s.returned v).place = s.place := rfl
@[simp] theorem returned_pend (s : State) (v : Word) : (s.returned v).pend = s.pend := rfl
@[simp] theorem returned_extLabel (s : State) (v : Word) : (s.returned v).extLabel = s.extLabel := rfl
@[simp] theorem returned_prefixTab (s : State) (v : Word) : (s.returned v).prefixTab = s.prefixTab := rfl
@[simp] theorem returned_suffixTab (s : State) (v : Word) : (s.returned v).suffixTab = s.suffixTab := rfl
@[simp] theorem returned_stack (s : State) (v : Word) : (s.returned v).stack = s.stack := rfl
@[simp] theorem returned_gct (s : State) (v : Word) : (s.returned v).gct = s.gct := rfl
@[simp] theorem returned_gctSize (s : State) (v : Word) : (s.returned v).gctSize = s.gctSize := rfl
@[simp] theorem returned_lct (s : State) (v : Word) : (s.returned v).lct = s.lct := rfl
@[simp] theorem returned_lctSize (s : State) (v : Word) : (s.returned v).lctSize = s.lctSize := rfl
@[simp] theorem returned_ft (s : State) (v : Word) : (s.returned v).ft = s.ft := rfl
@[simp] theorem returned_inbuf (s : State) (v : Word) : (s.returned v).inbuf = s.inbuf := rfl
@[simp] theorem returned_outbuf (s : State) (v : Word) : (s.returned v).outbuf = s.outbuf := rfl
@[simp] theorem returned_moves (s : State) (v : Word) : (s.returned v).moves = s.moves := rfl
@[simp] theorem returned_readData (s : State) (v : Word) : (s.returned v).readData = v := rfl
@[simp] theorem returned_draws (s : State) (v : Word) : (s.returned v).draws = s.draws + 1 := rfl
@[simp] theorem returned_resets (s : State) (v : Word) : (s.returned v).resets = s.resets := rfl

end Sys2Proof.Laws
end

