-- ==== Sys2Proof/Laws/Tables.lean ====
section
/-!
SUPPORT. The laws of the tables' bulk writes: a color table loaded from the stream, and the seeded dictionary.
-/
namespace Sys2Proof.Laws
open Sys2Proof Sys2Proof.Machine

theorem cellsWf_loadTable {s : State} {a n : Nat} {t : Cells Rgb} (h : CellsWf t) : CellsWf (s.loadTable a n t) := by
  induction n with
  | zero => exact h
  | succ n ih => exact cellsWf_writeCell ih _ _

theorem readCell_loadTable {d : Rgb} {s : State} {a n : Nat} {t : Cells Rgb} (e : Nat) :
    readCell d (s.loadTable a n t) e = if e < n then s.rgbAt a e else readCell d t e := by
  induction n with
  | zero => rfl
  | succ n ih =>
    rw [State.loadTable, readCell_writeCell, ih]
    split_ifs <;> first | rfl | omega | simp_all

/-- Seeding writes PREFIX and SUFFIX only. -/
theorem seedDictionary_frame (n : Nat) (s : State) :
    seedDictionary n s =
      { s with prefixTab := (seedDictionary n s).prefixTab, suffixTab := (seedDictionary n s).suffixTab } := by
  induction n with
  | zero => rfl
  | succ n ih =>
    rw [seedDictionary, State.setSuffix, State.setPrefix]
    generalize seedDictionary n s = t at ih ⊢
    rw [ih]

theorem seedDictionary_wf {s : State} (hp : CellsWf s.prefixTab) (hs : CellsWf s.suffixTab) (n : Nat) :
    CellsWf (seedDictionary n s).prefixTab ∧ CellsWf (seedDictionary n s).suffixTab := by
  induction n with
  | zero => exact ⟨hp, hs⟩
  | succ n ih => exact ⟨cellsWf_writeCell ih.1 _ _, cellsWf_writeCell ih.2 _ _⟩

theorem seedDictionary_prefixOf (s : State) (n c : Nat) :
    (seedDictionary n s).prefixOf c = if c < n then 0 else s.prefixOf c := by
  induction n with
  | zero => rfl
  | succ n ih =>
    have : (seedDictionary (n + 1) s).prefixOf c = if c = n then 0 else (seedDictionary n s).prefixOf c :=
      readCell_writeCell n c 0
    rw [this, ih]
    split_ifs <;> first | rfl | omega

theorem seedDictionary_suffixOf (s : State) (n c : Nat) :
    (seedDictionary n s).suffixOf c = if c < n then BitVec.ofNat 8 c else s.suffixOf c := by
  induction n with
  | zero => rfl
  | succ n ih =>
    have : (seedDictionary (n + 1) s).suffixOf c =
        if c = n then BitVec.ofNat 8 n else (seedDictionary n s).suffixOf c := readCell_writeCell n c _
    rw [this, ih]
    split_ifs <;> first | rfl | omega | simp_all

end Sys2Proof.Laws
end

