-- ==== Sys2Proof/Laws/Unwind.lean ====
section
/-!
SUPPORT. The laws of the pixel stack: a push, and an unwind as the string it pushes.
-/
namespace Sys2Proof.Laws
open Sys2Proof Sys2Proof.Machine

/-- A push below the capacity. -/
theorem push_of_lt {v : Byte} {s : State} (h : s.lzw.sp.toNat < 4096) :
    push v s = .go ()
      { s with
        stack := writeCell s.stack s.lzw.sp.toNat v,
        lzw := { s.lzw with sp := BitVec.ofNat 13 (s.lzw.sp.toNat + 1) } } := if_neg (by simp; omega)

/-- The codes an unwind goes through: each above CLEAR has its predecessor among them, and below it. -/
def Closed (s : State) (good : Nat → Prop) : Prop :=
  ∀ x, good x → s.lzw.clear.toNat < x → (s.prefixOf x).toNat < x ∧ good (s.prefixOf x).toNat

theorem codeString_succ (s : State) (fuel c : Nat) :
    s.codeString (fuel + 1) c =
      if s.lzw.clear.toNat < c then s.codeString fuel (s.prefixOf c).toNat ++ [s.suffixOf c] else [s.suffixOf c] := rfl

/-- The string of a code does not depend on the bound, once it is past the code. -/
theorem codeString_fuel {s : State} {good : Nat → Prop} (hc : Closed s good) {m n c : Nat} (hg : good c) (hm : c < m)
    (hn : c < n) : s.codeString m c = s.codeString n c := by
  induction m generalizing n c with
  | zero => omega
  | succ m ih =>
    obtain ⟨n, rfl⟩ : ∃ k, n = k + 1 := ⟨n - 1, by omega⟩
    rw [codeString_succ, codeString_succ]
    split
    · rename_i h
      obtain ⟨hlt, hg'⟩ := hc c hg h
      rw [ih (n := n) hg' (by omega) (by omega)]
    · rfl

/-- The string of a code depends on CLEAR, PREFIX and SUFFIX only, and the reset their unwritten entries follow. -/
theorem codeString_congr {s t : State} (h1 : t.lzw.clear = s.lzw.clear) (h2 : t.prefixTab = s.prefixTab)
    (h3 : t.suffixTab = s.suffixTab) (h4 : t.resets = s.resets) (fuel c : Nat) : t.codeString fuel c = s.codeString fuel c := by
  induction fuel generalizing c with
  | zero => rfl
  | succ fuel ih => simp only [codeString_succ, prefixOf_congr h2 h4, suffixOf_congr h3 h4, h1, ih]

theorem stringOf_congr {s t : State} (h1 : t.lzw.clear = s.lzw.clear) (h2 : t.prefixTab = s.prefixTab)
    (h3 : t.suffixTab = s.suffixTab) (h4 : t.resets = s.resets) (c : Nat) : t.stringOf c = s.stringOf c := by
  unfold State.stringOf; exact codeString_congr h1 h2 h3 h4 _ c

theorem codeString_ne_nil (s : State) (fuel c : Nat) : s.codeString (fuel + 1) c ≠ [] := by
  rw [codeString_succ]; split <;> simp

/-- What an unwind of code c leaves: its string on the stack, first index on top, and that index in FIRST. -/
theorem unwindLoop_string {good : Nat → Prop} {fuel c : Nat} {s : State} (hc : Closed s good) (hg : good c)
    (hfuel : c < fuel) (hroom : s.lzw.sp.toNat + (s.codeString fuel c).length ≤ 4096) :
    ∃ t f rest, unwindLoop fuel c s = .go () t ∧ s.codeString fuel c = f :: rest ∧ (CellsWf s.stack → CellsWf t.stack) ∧
      t = { s with stack := t.stack, lzw := { s.lzw with sp := t.lzw.sp, first := f } } ∧
      t.lzw.sp.toNat = s.lzw.sp.toNat + (f :: rest).length ∧
      (∀ k, (h : k < (f :: rest).length) → t.stackAt (t.lzw.sp.toNat - 1 - k) = (f :: rest)[k]) ∧
      ∀ i < s.lzw.sp.toNat, t.stackAt i = s.stackAt i := by
  induction fuel generalizing c s with
  | zero => omega
  | succ fuel ih =>
    rw [codeString_succ] at hroom ⊢
    rw [unwindLoop]
    split at hroom
    · rename_i h
      rw [if_pos h, if_pos h]
      obtain ⟨hlt, hg'⟩ := hc c hg h
      simp only [List.length_append, List.length_singleton] at hroom
      rw [push_of_lt (by omega), andThen_go]
      let u : State :=
        { s with
          stack := writeCell s.stack s.lzw.sp.toNat (s.suffixOf c),
          lzw := { s.lzw with sp := BitVec.ofNat 13 (s.lzw.sp.toNat + 1) } }
      have hsp : u.lzw.sp.toNat = s.lzw.sp.toNat + 1 := by
        show (BitVec.ofNat 13 _).toNat = _
        rw [BitVec.toNat_ofNat, Nat.mod_eq_of_lt (by omega)]
      have hstr : ∀ k x, u.codeString k x = s.codeString k x := codeString_congr (t := u) rfl rfl rfl rfl
      obtain ⟨t, f, rest, h1, h2, h3, h4, h5, h6, h7⟩ :=
        ih (s := u) (c := (s.prefixOf c).toNat) hc hg' (by omega)
          (by rw [hstr, hsp]; omega)
      rw [hstr] at h2
      refine ⟨t, f, rest ++ [s.suffixOf c], h1, by rw [h2]; rfl, fun hw => h3 (cellsWf_writeCell hw _ _), by rw [h4], ?_, ?_, ?_⟩
      · rw [h5, hsp]; simp; omega
      · intro k hk
        by_cases hkl : k < (f :: rest).length
        · rw [h6 k hkl]
          exact (List.getElem_append_left (as := f :: rest) (bs := [s.suffixOf c]) hkl).symm
        · have hk' : k = (f :: rest).length := by simp at hk hkl ⊢; omega
          subst hk'
          rw [show t.lzw.sp.toNat - 1 - (f :: rest).length = s.lzw.sp.toNat by rw [h5, hsp]; omega,
            h7 _ (by omega)]
          exact (readCell_writeCell_self _ _).trans
            (List.getElem_concat_length (l := f :: rest) (i := (f :: rest).length) rfl (by simp)).symm
      · intro i hi
        rw [h7 i (by omega)]
        exact readCell_writeCell_ne (by omega) _
    · rename_i h
      rw [if_neg h, if_neg h]
      simp only [List.length_singleton] at hroom
      have hlt : s.lzw.sp.toNat < 4096 := by omega
      have hpush := push_of_lt (v := s.suffixOf c) (s := { s with lzw := { s.lzw with first := s.suffixOf c } }) hlt
      refine ⟨_, s.suffixOf c, [], hpush, rfl, fun hw => cellsWf_writeCell hw _ _, rfl, ?_, ?_, ?_⟩
      · show (BitVec.ofNat 13 (s.lzw.sp.toNat + 1)).toNat = _
        rw [BitVec.toNat_ofNat, Nat.mod_eq_of_lt (by omega)]; rfl
      · intro k hk
        obtain rfl : k = 0 := by simp at hk; exact hk
        have : (BitVec.ofNat 13 (s.lzw.sp.toNat + 1)).toNat = s.lzw.sp.toNat + 1 := by
          rw [BitVec.toNat_ofNat, Nat.mod_eq_of_lt (by omega)]
        show readCell (s.unwritten .stack 8 _) (writeCell s.stack s.lzw.sp.toNat (s.suffixOf c))
          ((BitVec.ofNat 13 (s.lzw.sp.toNat + 1)).toNat - 1 - 0) = _
        rw [this]
        exact readCell_writeCell_self _ _
      · intro i hi
        exact readCell_writeCell_ne (Nat.ne_of_lt hi) _

/-- An unwind of a 12-bit code, as the string `stringOf` gives it. -/
theorem unwind_string {good : Nat → Prop} {c : Nat} {s : State} (hc : Closed s good) (hg : good c) (hlt : c < 4096)
    (hroom : s.lzw.sp.toNat + (s.stringOf c).length ≤ 4096) :
    ∃ t f rest, unwind c s = .go () t ∧ s.stringOf c = f :: rest ∧ (CellsWf s.stack → CellsWf t.stack) ∧
      t = { s with stack := t.stack, lzw := { s.lzw with sp := t.lzw.sp, first := f } } ∧
      t.lzw.sp.toNat = s.lzw.sp.toNat + (f :: rest).length ∧
      (∀ k, (h : k < (f :: rest).length) → t.stackAt (t.lzw.sp.toNat - 1 - k) = (f :: rest)[k]) ∧
      ∀ i < s.lzw.sp.toNat, t.stackAt i = s.stackAt i := by
  have heq : s.codeString 4097 c = s.stringOf c := codeString_fuel hc hg (by omega) hlt
  have := unwindLoop_string (fuel := 4097) hc hg (by omega) (by rw [heq]; exact hroom)
  rw [heq] at this
  exact this

/-! ### The strings of a sound dictionary -/

/-- The codes an image's dictionary has a string for. -/
def Known (s : State) (x : Nat) : Prop :=
  x < s.lzw.avail.toNat ∧ x ≠ s.lzw.clear.toNat ∧ x ≠ s.lzw.eoi.toNat

theorem closed_known {s : State} (h : DictionarySound s) : Closed s (Known s) := by
  intro x ⟨hlt, hclear, heoi⟩ hx
  have := h.eoi
  obtain ⟨h1, h2, h3, -⟩ := h.entries x hlt (by omega)
  exact ⟨h1, by omega, h2, h3⟩

/-- R274 (c): the string of a code x has at most max(1, x - CLEAR) indices. -/
theorem codeString_length {s : State} (h : DictionarySound s) {fuel c : Nat} (hg : Known s c) :
    (s.codeString fuel c).length ≤ max 1 (c - s.lzw.clear.toNat) := by
  induction fuel generalizing c with
  | zero => simp [State.codeString]
  | succ fuel ih =>
    rw [codeString_succ]
    split
    · rename_i hx
      obtain ⟨hlt, hg'⟩ := closed_known h c hg hx
      have := ih hg'
      have := hg.2.2
      have := h.eoi
      simp only [List.length_append, List.length_singleton]
      omega
    · simp

/-- R274 (d): every index of a string is below CLEAR. -/
theorem codeString_lt {s : State} (h : DictionarySound s) {fuel c : Nat} (hg : Known s c) :
    ∀ v ∈ s.codeString fuel c, v.toNat < s.lzw.clear.toNat := by
  induction fuel generalizing c with
  | zero => simp [State.codeString]
  | succ fuel ih =>
    rw [codeString_succ]
    obtain ⟨hlt, hclear, heoi⟩ := hg
    have := h.eoi
    split
    · rename_i hx
      obtain ⟨-, hg'⟩ := closed_known h c ⟨hlt, hclear, heoi⟩ hx
      intro v hv
      rcases List.mem_append.1 hv with hv | hv
      · exact ih hg' v hv
      · rw [List.mem_singleton.1 hv]
        exact (h.entries c hlt (by omega)).2.2.2
    · rename_i hx
      intro v hv
      rw [List.mem_singleton.1 hv, h.literals c (by omega)]
      omega

/-- A stack whose cells from the top are the indices w holds w. -/
theorem stackTopDown_eq {t : State} {w : List Byte} (hlen : t.lzw.sp.toNat = w.length)
    (h : ∀ k, (hk : k < w.length) → t.stackAt (t.lzw.sp.toNat - 1 - k) = w[k]) : t.stackTopDown = w := by
  unfold State.stackTopDown
  apply List.ext_getElem
  · simp [hlen]
  · intro k hk _
    simp only [List.getElem_map, List.getElem_reverse, List.getElem_range, List.length_range]
    exact h k (by simpa [hlen] using hk)

end Sys2Proof.Laws
end

