-- ==== Sys2Proof/Laws/Codes.lean ====
section
/-!
SUPPORT. The laws of the code stream's operations: the code on top of the accumulator, its removal, and a dictionary
extended by one entry.
-/
namespace Sys2Proof.Laws
open Sys2Proof Sys2Proof.Machine

theorem maskOf_toNat {n : Nat} (h : n ≤ 12) : (maskOf n).toNat = 2 ^ n - 1 := by
  interval_cases n <;> rfl

theorem topCode_toNat {s : State} (hm : s.lzw.codeMask.toNat = 2 ^ s.lzw.codeSize.toNat - 1) :
    s.topCode.toNat = s.lzw.datum.toNat % 2 ^ s.lzw.codeSize.toNat := by
  have h12 : 2 ^ s.lzw.codeSize.toNat ≤ 2 ^ 12 := by have := s.lzw.codeMask.isLt; omega
  have hle : s.lzw.codeSize.toNat ≤ 12 := (Nat.pow_le_pow_iff_right (by omega : 1 < 2)).1 h12
  unfold State.topCode
  rw [BitVec.toNat_and, hm, BitVec.toNat_ofNat, Nat.and_two_pow_sub_one_eq_mod]
  exact Nat.mod_mod_of_dvd _ (Nat.pow_dvd_pow 2 hle)

theorem topCode_and_mask (s : State) : s.topCode &&& s.lzw.codeMask = s.topCode := by
  unfold State.topCode; rw [BitVec.and_assoc, BitVec.and_self]

/-- The class found is the only one whose conditions hold (R118). -/
theorem classify_fits {r : CodeRegs} {c : BitVec 12} (hm : c &&& r.codeMask = c) (ha : r.avail.toNat ≤ 4096) :
    (classify r c).fitsCode r = true := by
  unfold classify
  split_ifs <;> simp_all [Instr.fitsCode, Instr.fitsCode.plain, Instr.fitsCode.inRange] <;> omega

/-- The accumulator after a code has left it. -/
theorem dropCode_spec {s : State} (hle : s.lzw.codeSize.toNat ≤ s.lzw.bits.toNat) :
    ∃ datum bits, dropCode s = { s with lzw := { s.lzw with datum := datum, bits := bits } } ∧
      datum.toNat = s.lzw.datum.toNat / 2 ^ s.lzw.codeSize.toNat ∧
      bits.toNat = s.lzw.bits.toNat - s.lzw.codeSize.toNat := by
  have := s.lzw.datum.isLt
  have := s.lzw.bits.isLt
  have := Nat.div_le_self s.lzw.datum.toNat (2 ^ s.lzw.codeSize.toNat)
  refine ⟨_, _, rfl, ?_, ?_⟩ <;> rw [BitVec.toNat_ofNat, Nat.mod_eq_of_lt (by omega)]

/-- A code leaves the decoder's registers sound. -/
theorem dictionarySound_dropCode {s : State} (h : DictionarySound s) (hle : s.lzw.codeSize.toNat ≤ s.lzw.bits.toNat) :
    DictionarySound (dropCode s) := by
  obtain ⟨d, b, h1, h2, h3⟩ := dropCode_spec hle
  rw [h1]
  refine ⟨h.dataSize, h.clear, h.eoi, h.codeSize, h.codeMask, h.availLow, h.availHigh, h.fresh, h.literals, h.entries,
    h.oldCode, h.first, h.stackDepth, h.stackIndices, ?_, ?_⟩
  · show d.toNat < 2 ^ b.toNat
    rw [h2, h3, Nat.div_lt_iff_lt_mul (by positivity), ← pow_add, Nat.sub_add_cancel hle]
    exact h.datum
  · show b.toNat ≤ 19
    have := h.bits
    omega

/-- R272: the width grows exactly when AVAIL reaches 2^CODE_SIZE below 4096. -/
theorem growCodeSize_spec {s : State} (hcs : 3 ≤ s.lzw.codeSize.toNat ∧ s.lzw.codeSize.toNat ≤ 12)
    (hm : s.lzw.codeMask.toNat = 2 ^ s.lzw.codeSize.toNat - 1)
    (ha : 0 < s.lzw.avail.toNat ∧ s.lzw.avail.toNat ≤ 2 ^ s.lzw.codeSize.toNat) :
    ∃ t, growCodeSize s = t ∧
      t = { s with lzw := { s.lzw with codeSize := t.lzw.codeSize, codeMask := t.lzw.codeMask } } ∧
      t.lzw.codeSize.toNat =
        (if s.lzw.avail.toNat = 2 ^ s.lzw.codeSize.toNat ∧ s.lzw.avail.toNat < 4096 then s.lzw.codeSize.toNat + 1
        else s.lzw.codeSize.toNat) ∧
      t.lzw.codeMask.toNat = 2 ^ t.lzw.codeSize.toNat - 1 := by
  have hiff : s.lzw.avail.toNat &&& s.lzw.codeMask.toNat = 0 ↔ s.lzw.avail.toNat = 2 ^ s.lzw.codeSize.toNat := by
    rw [hm, Nat.and_two_pow_sub_one_eq_mod]
    constructor
    · intro h
      rcases Nat.lt_or_ge s.lzw.avail.toNat (2 ^ s.lzw.codeSize.toNat) with h2 | h2
      · rw [Nat.mod_eq_of_lt h2] at h; omega
      · omega
    · intro h; rw [h, Nat.mod_self]
  refine ⟨_, rfl, ?_⟩
  unfold growCodeSize
  by_cases hc : s.lzw.avail.toNat = 2 ^ s.lzw.codeSize.toNat ∧ s.lzw.avail.toNat < 4096
  · rw [if_pos ⟨hiff.2 hc.1, hc.2⟩, if_pos hc]
    have : s.lzw.codeSize.toNat < 12 := by
      by_contra h
      have : s.lzw.codeSize.toNat = 12 := by omega
      rw [this] at hc; omega
    have h5 : (BitVec.ofNat 4 (s.lzw.codeSize.toNat + 1)).toNat = s.lzw.codeSize.toNat + 1 := by
      rw [BitVec.toNat_ofNat, Nat.mod_eq_of_lt (by omega)]
    refine ⟨rfl, h5, ?_⟩
    show (maskOf (s.lzw.codeSize.toNat + 1)).toNat = 2 ^ (BitVec.ofNat 4 (s.lzw.codeSize.toNat + 1)).toNat - 1
    rw [h5, maskOf_toNat (by omega)]
  · rw [if_neg (by rw [hiff]; exact hc), if_neg hc]
    exact ⟨rfl, rfl, hm⟩

/-- R271 to R273: one entry more, (OLD_CODE, FIRST), the width grown if need be, and the code as OLD_CODE. -/
theorem extendDictionary_spec {s : State} {c : BitVec 12}
    (hcs : 3 ≤ s.lzw.codeSize.toNat ∧ s.lzw.codeSize.toNat ≤ 12)
    (hm : s.lzw.codeMask.toNat = 2 ^ s.lzw.codeSize.toNat - 1)
    (ha : s.lzw.avail.toNat < 2 ^ s.lzw.codeSize.toNat) :
    ∃ t, extendDictionary c s = t ∧
      t = { s with
        prefixTab := t.prefixTab, suffixTab := t.suffixTab,
        lzw := { s.lzw with
          avail := t.lzw.avail, codeSize := t.lzw.codeSize, codeMask := t.lzw.codeMask, oldCode := c } } ∧
      (CellsWf s.prefixTab → CellsWf t.prefixTab) ∧ (CellsWf s.suffixTab → CellsWf t.suffixTab) ∧
      (∀ x, t.prefixOf x = if x = s.lzw.avail.toNat then s.lzw.oldCode else s.prefixOf x) ∧
      (∀ x, t.suffixOf x = if x = s.lzw.avail.toNat then s.lzw.first else s.suffixOf x) ∧
      t.lzw.avail.toNat = s.lzw.avail.toNat + 1 ∧
      t.lzw.codeSize.toNat =
        (if t.lzw.avail.toNat = 2 ^ s.lzw.codeSize.toNat ∧ t.lzw.avail.toNat < 4096 then s.lzw.codeSize.toNat + 1
        else s.lzw.codeSize.toNat) ∧
      t.lzw.codeMask.toNat = 2 ^ t.lzw.codeSize.toNat - 1 := by
  have h4 : 2 ^ s.lzw.codeSize.toNat ≤ 2 ^ 12 := Nat.pow_le_pow_right (by omega) hcs.2
  refine ⟨_, rfl, ?_⟩
  unfold extendDictionary
  have hav : (addEntry s).lzw.avail.toNat = s.lzw.avail.toNat + 1 := by
    rw [addEntry_lzw]
    show (BitVec.ofNat 13 (s.lzw.avail.toNat + 1)).toNat = _
    rw [BitVec.toNat_ofNat, Nat.mod_eq_of_lt (by omega)]
  obtain ⟨t, h1, h2, h3, h5⟩ :=
    growCodeSize_spec (s := addEntry s) hcs hm ⟨by rw [hav]; omega, by rw [hav]; exact ha⟩
  have e1 : t.prefixTab = (addEntry s).prefixTab := by rw [h2]
  have e2 : t.suffixTab = (addEntry s).suffixTab := by rw [h2]
  have e3 : t.lzw.avail = (addEntry s).lzw.avail := by rw [h2]
  simp only [h1]
  have e4 : t.resets = s.resets := by rw [h2]; rfl
  refine ⟨?_, ?_, ?_, ?_, ?_, ?_, ?_, ?_⟩
  · rw [h2]; rfl
  · rw [e1]; exact fun h => cellsWf_writeCell h _ _
  · rw [e2]; exact fun h => cellsWf_writeCell h _ _
  · intro x; refine (prefixOf_congr (s := addEntry s) e1 e4 x).trans ?_; exact readCell_writeCell _ _ _
  · intro x; refine (suffixOf_congr (s := addEntry s) e2 e4 x).trans ?_; exact readCell_writeCell _ _ _
  · rw [e3, hav]
  · rw [h3, e3]; rfl
  · exact h5

end Sys2Proof.Laws
end

