-- ==== Sys2Proof/Laws/Cursor.lean ====
section
/-!
SUPPORT. The laws of the cursor: what `readByte`, `need` and `skipSubBlocks` answer.
-/
namespace Sys2Proof.Laws
open Sys2Proof Sys2Proof.Machine

theorem readByte_of_lt {r : Raise} {s : State} (h : s.pos.toNat < s.inLen.toNat) :
    readByte r s = .go (s.inByte s.pos.toNat) (s.advance 1) := if_neg (by omega)

theorem readByte_of_le {r : Raise} {s : State} (h : s.inLen.toNat ≤ s.pos.toNat) : readByte r s = .ended (raise r s) :=
  if_pos h

theorem need_of_le {n : Nat} {r : Raise} {s : State} (h : s.pos.toNat + n ≤ s.inLen.toNat) :
    need n r s = .go () s := if_neg (by omega)

theorem need_of_lt {n : Nat} {r : Raise} {s : State} (h : s.inLen.toNat < s.pos.toNat + n) :
    need n r s = .ended (raise r s) := if_pos h

theorem advance_zero (s : State) : s.advance 0 = s := by simp [State.advance]

theorem advance_eq (s : State) (n : Nat) : s.advance n = { s with pos := s.pos + BitVec.ofNat 32 n } := by
  unfold State.advance
  congr 1
  apply BitVec.eq_of_toNat_eq
  simp

theorem advance_advance (s : State) (a b : Nat) : (s.advance a).advance b = s.advance (a + b) := by
  simp only [State.advance, BitVec.toNat_ofNat, State.mk.injEq, true_and, and_true]
  apply BitVec.eq_of_toNat_eq
  simp only [BitVec.toNat_ofNat]
  omega

/-- A move within the stream does not wrap. -/
theorem advance_pos_toNat {s : State} {n : Nat} (h : s.pos.toNat + n ≤ s.inLen.toNat) :
    (s.advance n).pos.toNat = s.pos.toNat + n := by
  have := s.inLen.isLt
  rw [advance_pos, BitVec.toNat_ofNat, Nat.mod_eq_of_lt (by omega)]

@[simp] theorem inByte_advance (s : State) (n a : Nat) : (s.advance n).inByte a = s.inByte a := rfl

@[simp] theorem inBytes_advance (s : State) (n a k : Nat) : (s.advance n).inBytes a k = s.inBytes a k := by
  induction k generalizing a with
  | zero => rfl
  | succ k ih => simp only [State.inBytes, ih, inByte_advance]

@[simp] theorem inBytes_length (s : State) (a n : Nat) : (s.inBytes a n).length = n := by
  induction n generalizing a with
  | zero => rfl
  | succ n ih => simp [State.inBytes, ih]

theorem inBytes_append (s : State) (a m n : Nat) : s.inBytes a (m + n) = s.inBytes a m ++ s.inBytes (a + m) n := by
  induction m generalizing a with
  | zero => simp [State.inBytes]
  | succ m ih =>
    rw [Nat.add_right_comm, State.inBytes, State.inBytes, ih, List.cons_append, Nat.add_assoc, Nat.add_comm 1 m]

/-- The cursor of a rule: reading goes on past the byte read, or raises where it stands. -/
theorem readByte_meets {r : Raise} {s : State} {Q : Byte → State → Prop} {E : State → Prop}
    (hgo : s.pos.toNat < s.inLen.toNat → Q (s.inByte s.pos.toNat) (s.advance 1))
    (hend : s.inLen.toNat ≤ s.pos.toNat → E (raise r s)) : Meets (readByte r s) Q E := by
  rcases Nat.lt_or_ge s.pos.toNat s.inLen.toNat with h | h
  · rw [readByte_of_lt h]; exact hgo h
  · rw [readByte_of_le h]; exact hend h

theorem need_meets {n : Nat} {r : Raise} {s : State} {Q : Unit → State → Prop} {E : State → Prop}
    (hgo : s.pos.toNat + n ≤ s.inLen.toNat → Q () s) (hend : s.inLen.toNat < s.pos.toNat + n → E (raise r s)) :
    Meets (need n r s) Q E := by
  rcases Nat.lt_or_ge s.inLen.toNat (s.pos.toNat + n) with h | h
  · rw [need_of_lt h]; exact hend h
  · rw [need_of_le h]; exact hgo h

/-! ### Skipping sub-blocks -/

theorem skipLoop_succ (r : Raise) (fuel : Nat) (s : State) :
    skipLoop r (fuel + 1) s = (readByte r s).andThen fun len s =>
      if len = 0 then .go () s
      else (need len.toNat r s).andThen fun _ s => skipLoop r fuel (s.advance len.toNat) := rfl

/-- One sub-block skipped. -/
theorem skipLoop_data {r : Raise} {fuel : Nat} {s : State} (hpos : s.pos.toNat < s.inLen.toNat)
    (hlen : s.inByte s.pos.toNat ≠ 0)
    (hdata : s.pos.toNat + 1 + (s.inByte s.pos.toNat).toNat ≤ s.inLen.toNat) :
    skipLoop r (fuel + 1) s = skipLoop r fuel (s.advance (1 + (s.inByte s.pos.toNat).toNat)) := by
  have hp : (s.advance 1).pos.toNat = s.pos.toNat + 1 := advance_pos_toNat (by omega)
  rw [skipLoop_succ, readByte_of_lt hpos, andThen_go, if_neg hlen, need_of_le (by rw [hp, advance_inLen]; exact hdata),
    andThen_go, advance_advance]

theorem skipLoop_end {r : Raise} {fuel : Nat} {s : State} (hpos : s.pos.toNat < s.inLen.toNat)
    (hlen : s.inByte s.pos.toNat = 0) : skipLoop r (fuel + 1) s = .go () (s.advance 1) := by
  rw [skipLoop_succ, readByte_of_lt hpos, andThen_go, if_pos hlen]

/-- Skipping goes on past at least one byte, within the stream, or raises within it: it never stops. -/
theorem skipLoop_meets {r : Raise} {fuel : Nat} {s : State} (hfuel : s.inLen.toNat - s.pos.toNat < fuel)
    {Q : Unit → State → Prop} {E : State → Prop}
    (hgo : ∀ n, 0 < n → s.pos.toNat + n ≤ s.inLen.toNat → Q () (s.advance n))
    (hend : ∀ n, s.pos.toNat + n ≤ max s.pos.toNat s.inLen.toNat → E (raise r (s.advance n))) :
    Meets (skipLoop r fuel s) Q E := by
  induction fuel generalizing s with
  | zero => omega
  | succ fuel ih =>
    rw [skipLoop_succ]
    refine meets_andThen (readByte_meets (fun hpos => ?_) fun h => ?_)
    · have hp : (s.advance 1).pos.toNat = s.pos.toNat + 1 := advance_pos_toNat (by omega)
      split
      · exact hgo 1 (by omega) (by omega)
      · refine meets_andThen (need_meets (fun hneed => ?_) fun h => ?_)
        · rw [hp, advance_inLen] at hneed
          rw [advance_advance]
          have hq := advance_pos_toNat (s := s) (n := 1 + (s.inByte s.pos.toNat).toNat) (by omega)
          refine ih (by rw [hq, advance_inLen]; omega) (fun n hn hle => ?_) fun n hle => ?_
          · rw [hq, advance_inLen] at hle
            rw [advance_advance]
            exact hgo _ (by omega) (by omega)
          · rw [hq, advance_inLen] at hle
            rw [advance_advance]
            exact hend _ (by omega)
        · exact hend 1 (by omega)
    · have := hend 0 (by omega)
      rwa [advance_zero] at this

theorem skipSubBlocks_meets {r : Raise} {s : State} {Q : Unit → State → Prop} {E : State → Prop}
    (hgo : ∀ n, 0 < n → s.pos.toNat + n ≤ s.inLen.toNat → Q () (s.advance n))
    (hend : ∀ n, s.pos.toNat + n ≤ max s.pos.toNat s.inLen.toNat → E (raise r (s.advance n))) :
    Meets (skipSubBlocks r s) Q E := skipLoop_meets (by omega) hgo hend

/-! ### Sub-blocks in the stream -/

@[simp] theorem subBlock_length (g : List Byte) : (subBlock g).length = g.length + 1 := rfl

theorem lengthByte_toNat {g : List Byte} (h : g.length ≤ 255) : (BitVec.ofNat 8 g.length).toNat = g.length := by
  rw [BitVec.toNat_ofNat, Nat.mod_eq_of_lt (by omega)]

theorem lengthByte_ne_zero {g : List Byte} (hg : g ≠ []) (h : g.length ≤ 255) : BitVec.ofNat 8 g.length ≠ 0 := by
  have := List.length_pos_of_ne_nil hg
  intro heq
  have heq := congrArg BitVec.toNat heq
  rw [lengthByte_toNat h, show (0 : Byte).toNat = 0 from rfl] at heq
  omega

/-- A stream that holds these bytes holds the first of them and, one address on, the rest. -/
theorem inBytes_cons {s : State} {a : Nat} {b : Byte} {bs : List Byte}
    (h : s.inBytes a (b :: bs).length = b :: bs) : s.inByte a = b ∧ s.inBytes (a + 1) bs.length = bs := by
  simpa [State.inBytes] using h

theorem inBytes_append_inv {s : State} {a : Nat} {bs cs : List Byte}
    (h : s.inBytes a (bs ++ cs).length = bs ++ cs) :
    s.inBytes a bs.length = bs ∧ s.inBytes (a + bs.length) cs.length = cs := by
  rw [List.length_append, inBytes_append] at h
  exact List.append_inj h (inBytes_length _ _ _)

/-- The first sub-block of a stream that holds some, and the place of the rest. -/
theorem holdsSubBlocks_cons {s : State} {a : Nat} {g : List Byte} {gs : List (List Byte)}
    (h : s.holdsSubBlocks a (g :: gs)) :
    s.inByte a = BitVec.ofNat 8 g.length ∧ s.inBytes (a + 1) g.length = g ∧ (g ≠ [] ∧ g.length ≤ 255) ∧
    a + 1 + g.length < s.inLen.toNat ∧ s.holdsSubBlocks (a + 1 + g.length) gs := by
  obtain ⟨hg, hlen, hb⟩ := h
  rw [List.flatMap_cons, List.append_assoc] at hlen hb
  obtain ⟨h1, h2⟩ := inBytes_append_inv hb
  obtain ⟨h3, h4⟩ := inBytes_cons (b := BitVec.ofNat 8 g.length) (bs := g) h1
  simp only [List.length_append, subBlock_length, List.length_singleton] at hlen h2
  refine ⟨h3, h4, hg g (by simp), by omega, fun x hx => hg x (by simp [hx]), ?_, ?_⟩
  · simp only [List.length_append, List.length_singleton]; omega
  · rw [show a + 1 + g.length = a + (g.length + 1) by omega]
    simpa using h2

theorem holdsSubBlocks_nil {s : State} {a : Nat} (h : s.holdsSubBlocks a []) : a < s.inLen.toNat ∧ s.inByte a = 0 := by
  obtain ⟨-, hlen, hb⟩ := h
  simp only [List.flatMap_nil, List.nil_append, List.length_singleton] at hlen hb
  exact ⟨by omega, (inBytes_cons (b := 0) (bs := []) hb).1⟩

theorem cutsSubBlocks_cons {s : State} {a p : Nat} {g : List Byte} {gs : List (List Byte)}
    (h : s.cutsSubBlocks a (g :: gs) p) :
    s.inByte a = BitVec.ofNat 8 g.length ∧ s.inBytes (a + 1) g.length = g ∧ (g ≠ [] ∧ g.length ≤ 255) ∧
    a + 1 + g.length ≤ s.inLen.toNat ∧ s.cutsSubBlocks (a + 1 + g.length) gs p := by
  obtain ⟨hg, hlen, hb, hcut⟩ := h
  rw [List.flatMap_cons] at hlen hb hcut
  obtain ⟨h1, h2⟩ := inBytes_append_inv hb
  obtain ⟨h3, h4⟩ := inBytes_cons (b := BitVec.ofNat 8 g.length) (bs := g) h1
  simp only [List.length_append, subBlock_length] at hlen h2 hcut
  rw [show a + (g.length + 1 + (List.flatMap subBlock gs).length) =
    a + 1 + g.length + (List.flatMap subBlock gs).length by omega] at hcut
  refine ⟨h3, h4, hg g (by simp), by omega, fun x hx => hg x (by simp [hx]), by omega, ?_, hcut⟩
  rw [show a + 1 + g.length = a + (g.length + 1) by omega]
  exact h2

/-- Skipping a stream that holds sub-blocks goes on past them and the zero-length one. -/
theorem skipLoop_holds {r : Raise} {fuel : Nat} {s : State} {groups : List (List Byte)} (hfuel : groups.length < fuel)
    (h : s.holdsSubBlocks s.pos.toNat groups) :
    skipLoop r fuel s = .go () (s.advance (groups.flatMap subBlock ++ [0]).length) := by
  induction groups generalizing s fuel with
  | nil =>
    obtain ⟨hpos, hzero⟩ := holdsSubBlocks_nil h
    obtain ⟨fuel, rfl⟩ : ∃ n, fuel = n + 1 := ⟨fuel - 1, by simp at hfuel; omega⟩
    exact skipLoop_end hpos hzero
  | cons g gs ih =>
    obtain ⟨hb, -, ⟨hne, h255⟩, hlt, hrest⟩ := holdsSubBlocks_cons h
    obtain ⟨fuel, rfl⟩ : ∃ n, fuel = n + 1 := ⟨fuel - 1, by simp at hfuel; omega⟩
    rw [skipLoop_data (by omega) (by rw [hb]; exact lengthByte_ne_zero hne h255)
      (by rw [hb, lengthByte_toNat h255]; omega), hb, lengthByte_toNat h255]
    have hp := advance_pos_toNat (s := s) (n := 1 + g.length) (by omega)
    have hrest' : (s.advance (1 + g.length)).holdsSubBlocks (s.advance (1 + g.length)).pos.toNat gs := by
      rw [hp, ← Nat.add_assoc]
      simpa only [State.holdsSubBlocks, advance_inLen, inBytes_advance] using hrest
    rw [ih (by simp at hfuel; omega) hrest', advance_advance]
    congr 2
    simp [List.flatMap_cons]
    omega

/-- Skipping a stream that is cut raises where the missing or overlong length is found. -/
theorem skipLoop_cuts {r : Raise} {fuel : Nat} {s : State} {groups : List (List Byte)} {p : Nat}
    (hfuel : groups.length < fuel) (h : s.cutsSubBlocks s.pos.toNat groups p) :
    skipLoop r fuel s = .ended (raise r { s with pos := BitVec.ofNat 32 p }) := by
  induction groups generalizing s fuel with
  | nil =>
    obtain ⟨fuel, rfl⟩ : ∃ n, fuel = n + 1 := ⟨fuel - 1, by simp at hfuel; omega⟩
    obtain ⟨-, -, -, hcut⟩ := h
    simp only [List.flatMap_nil, List.length_nil, Nat.add_zero] at hcut
    rcases hcut with ⟨heq, hp⟩ | ⟨hlt, hp, hover⟩
    · rw [skipLoop_succ, readByte_of_le (by omega), andThen_ended, hp, ← heq, BitVec.ofNat_toNat, BitVec.setWidth_eq]
    · have hq : (s.advance 1).pos.toNat = s.pos.toNat + 1 := advance_pos_toNat (by omega)
      have hne : s.inByte s.pos.toNat ≠ 0 := by
        intro h0
        rw [h0, show (0 : Byte).toNat = 0 from rfl] at hover
        omega
      rw [skipLoop_succ, readByte_of_lt hlt, andThen_go, if_neg hne,
        need_of_lt (by rw [hq, advance_inLen]; omega), andThen_ended, hp]
      rfl
  | cons g gs ih =>
    obtain ⟨hb, -, ⟨hne, h255⟩, hlt, hrest⟩ := cutsSubBlocks_cons h
    obtain ⟨fuel, rfl⟩ : ∃ n, fuel = n + 1 := ⟨fuel - 1, by simp at hfuel; omega⟩
    have hpos : s.pos.toNat < s.inLen.toNat := by have := List.length_pos_of_ne_nil hne; omega
    rw [skipLoop_data hpos (by rw [hb]; exact lengthByte_ne_zero hne h255)
      (by rw [hb, lengthByte_toNat h255]; omega), hb, lengthByte_toNat h255]
    have hp := advance_pos_toNat (s := s) (n := 1 + g.length) (by omega)
    have hrest' : (s.advance (1 + g.length)).cutsSubBlocks (s.advance (1 + g.length)).pos.toNat gs p := by
      rw [hp, ← Nat.add_assoc]
      simpa only [State.cutsSubBlocks, advance_inLen, inBytes_advance, inByte_advance] using hrest
    rw [ih (by simp at hfuel; omega) hrest']
    rfl

/-- A stream of n bytes holds at most n sub-blocks. -/
theorem groups_le_bytes {groups : List (List Byte)} : groups.length ≤ (groups.flatMap subBlock).length := by
  induction groups with
  | nil => simp
  | cons g gs ih => simp only [List.flatMap_cons, List.length_append, subBlock_length, List.length_cons]; omega

theorem skipSubBlocks_holds {r : Raise} {s : State} {groups : List (List Byte)}
    (h : s.holdsSubBlocks s.pos.toNat groups) :
    skipSubBlocks r s = .go () (s.advance (groups.flatMap subBlock ++ [0]).length) := by
  refine skipLoop_holds ?_ h
  have := groups_le_bytes (groups := groups)
  have := h.2.1
  simp only [List.length_append, List.length_singleton] at this
  omega

theorem skipSubBlocks_cuts {r : Raise} {s : State} {groups : List (List Byte)} {p : Nat}
    (h : s.cutsSubBlocks s.pos.toNat groups p) :
    skipSubBlocks r s = .ended (raise r { s with pos := BitVec.ofNat 32 p }) := by
  refine skipLoop_cuts ?_ h
  have := groups_le_bytes (groups := groups)
  have := h.2.1
  omega

end Sys2Proof.Laws
end

