-- ==== Sys2Proof/Laws/Course.lean ====
section
/-!
SUPPORT. What any instruction of the engine can do, said once: it works on the decoder's own registers, tables and OUTBUF
(`Works`), it raises (`Raised`) or it completes the command without error (`Completed`). The three commands, the
graphic-control extension and COMMIT, which alone do more, have equations of their own.
-/
namespace Sys2Proof.Laws
open Sys2Proof Sys2Proof.Machine

/-- What may change while a rule goes on: the cursor, ST, the decoder's registers and tables, OUTBUF, and of STATUS
W_IDX. The image's anomaly stays or is cleared, and a busy engine stays busy. -/
structure Works (s t : State) : Prop where
  frame : t = { s with
    status := { s.status with wIdx := t.status.wIdx }, st := t.st, pos := t.pos, lzw := t.lzw, img := t.img,
    place := t.place, extLabel := t.extLabel, prefixTab := t.prefixTab, suffixTab := t.suffixTab, stack := t.stack,
    gct := t.gct, gctSize := t.gctSize, lct := t.lct, lctSize := t.lctSize, outbuf := t.outbuf }
  anom : t.img.anom = s.img.anom ∨ t.img.anom = .none
  st : t.st = .idle → s.st = .idle

variable {s t : State}

theorem Works.cfg (h : Works s t) : t.cfg = s.cfg := by rw [h.frame]
theorem Works.ctrl (h : Works s t) : t.ctrl = s.ctrl := by rw [h.frame]
theorem Works.inLen (h : Works s t) : t.inLen = s.inLen := by rw [h.frame]
theorem Works.frameCount (h : Works s t) : t.frameCount = s.frameCount := by rw [h.frame]
theorem Works.outUsed (h : Works s t) : t.outUsed = s.outUsed := by rw [h.frame]
theorem Works.errPos (h : Works s t) : t.errPos = s.errPos := by rw [h.frame]
theorem Works.fsel (h : Works s t) : t.fsel = s.fsel := by rw [h.frame]
theorem Works.inbuf (h : Works s t) : t.inbuf = s.inbuf := by rw [h.frame]
theorem Works.moves (h : Works s t) : t.moves = s.moves := by rw [h.frame]
theorem Works.readData (h : Works s t) : t.readData = s.readData := by rw [h.frame]
theorem Works.draws (h : Works s t) : t.draws = s.draws := by rw [h.frame]
theorem Works.resets (h : Works s t) : t.resets = s.resets := by rw [h.frame]
theorem Works.pend (h : Works s t) : t.pend = s.pend := by rw [h.frame]
theorem Works.ft (h : Works s t) : t.ft = s.ft := by rw [h.frame]
theorem Works.status (h : Works s t) : t.status = { s.status with wIdx := t.status.wIdx } :=
  by rw [h.frame]

theorem Works.refl (s : State) : Works s s := ⟨rfl, .inl rfl, id⟩

theorem Works.trans {u : State} (h : Works s t) (k : Works t u) : Works s u :=
  ⟨by rw [k.frame, h.frame], k.anom.elim (fun e => h.anom.imp e.trans e.trans) .inr, fun e => h.st (k.st e)⟩

/-- The rule has raised, from a state it had worked on to. -/
def Raised (s t : State) : Prop := ∃ r u, Works s u ∧ t = raise r u

/-- The command has ended without error: IDENT and FINISH. -/
def Completed (s t : State) : Prop := ∃ m, t = complete .none { s with status := { s.status with idMatch := m } }

/-- How a rule begun in s goes. -/
def Follows {α : Type} (s : State) : Flow α → Prop
  | .go _ t => Works s t
  | .ended t => Raised s t
  | .stopped _ => True

theorem follows_go {α : Type} {s t : State} {a : α} (h : Works s t) : Follows s (.go a t) := h

theorem raised {r : Raise} {s : State} : Raised s (raise r s) := ⟨r, s, .refl s, rfl⟩

theorem follows_of_works {α : Type} {s t : State} {m : Flow α} (h : Works s t) (hm : Follows t m) : Follows s m := by
  cases m with
  | go a u => exact h.trans hm
  | ended u => obtain ⟨r, v, hv, he⟩ := hm; exact ⟨r, v, h.trans hv, he⟩
  | stopped f => trivial

theorem follows_andThen {α β : Type} {s : State} {m : Flow α} {k : α → State → Flow β} (hm : Follows s m)
    (hk : ∀ a t, Follows t (k a t)) : Follows s (m.andThen k) := by
  cases m with
  | go a t => exact follows_of_works hm (hk a t)
  | ended t => exact hm
  | stopped f => trivial

theorem result_of_follows {s t : State} {m : Flow Unit} (hm : Follows s m) (h : m.result = .next t) :
    Works s t ∨ Raised s t := by
  cases m with
  | go a u => cases h; exact .inl hm
  | ended u => cases h; exact .inr hm
  | stopped f => cases h

theorem works_advance (s : State) (n : Nat) : Works s (s.advance n) :=
  ⟨rfl, .inl rfl, id⟩

theorem works_lzw (s : State) (x : Lzw) : Works s { s with lzw := x } :=
  ⟨rfl, .inl rfl, id⟩

theorem works_st (s : State) {e : EngineState} (he : e ≠ .idle) : Works s { s with st := e } :=
  ⟨rfl, .inl rfl, fun h => (he h).elim⟩

theorem works_lzw_st (s : State) (x : Lzw) {e : EngineState} (he : e ≠ .idle) :
    Works s { s with lzw := x, st := e } :=
  ⟨rfl, .inl rfl, fun h => (he h).elim⟩

theorem follows_readByte (r : Raise) (s : State) : Follows s (readByte r s) := by
  unfold readByte; split
  · exact raised
  · exact works_advance s 1

theorem follows_need (n : Nat) (r : Raise) (s : State) : Follows s (need n r s) := by
  unfold need; split
  · exact raised
  · exact Works.refl s

theorem follows_skipLoop (r : Raise) (fuel : Nat) (s : State) : Follows s (skipLoop r fuel s) := by
  induction fuel generalizing s with
  | zero => trivial
  | succ fuel ih =>
    refine follows_andThen (follows_readByte r s) fun len t => ?_
    split
    · exact Works.refl t
    · exact follows_andThen (follows_need _ r t) fun _ u => follows_of_works (works_advance u _) (ih _)

theorem follows_loadGct (f : Nat) (s : State) : Follows s (loadGct f s) :=
  follows_andThen (follows_need _ _ s) fun _ _ =>
    ⟨rfl, .inl rfl, fun h => nomatch h⟩

theorem follows_afterSignature (s : State) : Follows s (afterSignature s) := by
  unfold afterSignature screenDescriptor
  split
  · exact raised (r := .fatal .invalidHeader)
  · dsimp only
    split
    · have hpos : Works s { s with pos := 13 } :=
        ⟨rfl, .inl rfl, id⟩
      exact follows_of_works hpos (follows_loadGct _ _)
    · exact ⟨rfl, .inl rfl, fun h => nomatch h⟩

theorem follows_readLabel (s : State) : Follows s (readLabel s) :=
  follows_andThen (follows_readByte _ s) fun _ _ =>
    ⟨rfl, .inl rfl, fun h => nomatch h⟩

theorem follows_finishExtension (s : State) : Follows s (finishExtension s) :=
  follows_andThen (follows_skipLoop _ _ s) fun _ t => works_st t (by decide)

theorem follows_startSubBlock (len : Byte) (s : State) : Follows s (startSubBlock len s) := by
  unfold startSubBlock; split
  · exact works_lzw_st s _ (by decide)
  · exact follows_andThen (follows_need _ _ s) fun _ t => works_lzw t _

theorem works_initLzw (d : Nat) (s : State) : Works s (initLzw d s) := by
  unfold initLzw
  rw [seedDictionary_frame]
  exact ⟨rfl, .inl rfl, id⟩

theorem follows_startStream (d : Byte) (s : State) : Follows s (startStream d s) := by
  unfold startStream; split
  · exact raised (r := .anomaly .corruptCode)
  · exact (works_initLzw _ s).trans (works_st _ (by decide))

theorem follows_localTable (packed : Byte) (s : State) : Follows s (localTable packed s) := by
  have himg (t : State) (l : Bool) : Works t { t with img := { t.img with loc := l } } :=
    ⟨rfl, .inl rfl, id⟩
  unfold localTable; split
  · refine follows_andThen ?_ fun _ t => himg t _
    exact follows_andThen (follows_need _ _ s) fun _ t =>
      ⟨rfl, .inl rfl, id⟩
  · exact himg s _

theorem works_readDescriptor (s : State) : Works s (readDescriptor s) :=
  ⟨rfl, .inl rfl, id⟩

theorem works_setUpFrame (s : State) : Works s (setUpFrame s) :=
  ⟨rfl, .inr rfl, id⟩

theorem follows_prepareImage (s : State) : Follows s (prepareImage s) := by
  refine follows_andThen (follows_need _ _ s) fun _ t => follows_andThen ?_ fun _ u => follows_andThen ?_ fun _ v => ?_
  · exact follows_of_works (works_readDescriptor t) (follows_localTable _ _)
  · unfold checkCapacity; split
    · exact raised (r := .fatal .capacityExceeded)
    · exact Works.refl u
  · exact works_setUpFrame v

theorem follows_push (v : Byte) (s : State) : Follows s (push v s) := by
  unfold push; split
  · exact raised (r := .anomaly .corruptCode)
  · exact ⟨rfl, .inl rfl, id⟩

theorem follows_firstCode (c : BitVec 12) (s : State) : Follows s (firstCode c s) :=
  follows_andThen (follows_push _ s) fun _ t => works_lzw t _

theorem follows_unwindLoop (fuel c : Nat) (s : State) : Follows s (unwindLoop fuel c s) := by
  induction fuel generalizing c s with
  | zero => trivial
  | succ fuel ih =>
    rw [unwindLoop]; split
    · exact follows_andThen (follows_push _ s) fun _ t => ih _ t
    · exact follows_of_works (works_lzw s _) (follows_push _ _)

theorem works_extendDictionary (c : BitVec 12) (s : State) : Works s (extendDictionary c s) := by
  have h : Works s (addEntry s) :=
    ⟨rfl, .inl rfl, id⟩
  have hg : Works s (growCodeSize (addEntry s)) := by
    unfold growCodeSize; split
    · exact h.trans (works_lzw _ _)
    · exact h
  exact hg.trans (works_lzw _ _)

theorem follows_kwkwkCode (c : BitVec 12) (s : State) : Follows s (kwkwkCode c s) :=
  follows_andThen (follows_push _ s) fun _ t =>
    follows_andThen (follows_unwindLoop _ _ t) fun _ u => works_extendDictionary c u

theorem follows_dictCode (c : BitVec 12) (s : State) : Follows s (dictCode c s) :=
  follows_andThen (follows_unwindLoop _ _ s) fun _ u => works_extendDictionary c u

theorem follows_classifyCode (c : BitVec 12) (s : State) : Follows s (classifyCode c s) := by
  unfold classifyCode
  split
  · exact raised (r := .anomaly .corruptCode)
  split
  · exact works_st s (by decide)
  split
  · exact works_lzw s _
  split
  · split
    · exact follows_firstCode c s
    · exact raised (r := .anomaly .corruptCode)
  split
  · exact raised (r := .anomaly .dictionaryOverflow)
  split
  · exact follows_kwkwkCode c s
  · exact follows_dictCode c s

theorem follows_afterTag (b : Byte) (s : State) : Follows s (afterTag b s) := by
  unfold afterTag
  split
  · exact follows_readLabel s
  split
  · exact works_st s (by decide)
  split
  · exact works_st s (by decide)
  · exact Works.refl s

/-- What an instruction other than a command, GCE and COMMIT can do. -/
theorem exec_course {i : Instr} {s t : State} (h : exec i s = .next t) (h1 : i.isCmd = false) (h2 : i ≠ .gce)
    (h3 : i ≠ .commit) : Works s t ∨ Raised s t ∨ Completed s t := by
  have next {u : State} (hu : Works s u) (he : (Host.Outcome.next u : Result) = .next t) :
      Works s t ∨ Raised s t ∨ Completed s t := by cases he; exact .inl hu
  have raise {u : State} {r : Raise} (hu : Works s u) (he : (Host.Outcome.next (raise r u) : Result) = .next t) :
      Works s t ∨ Raised s t ∨ Completed s t := by cases he; exact .inr (.inl ⟨r, u, hu, rfl⟩)
  have done {m : Bool} (he : (Host.Outcome.next (identified m s) : Result) = .next t) :
      Works s t ∨ Raised s t ∨ Completed s t := by cases he; exact .inr (.inr ⟨m, rfl⟩)
  have flow {m : Flow Unit} (hm : Follows s m) (he : m.result = .next t) : Works s t ∨ Raised s t ∨ Completed s t :=
    (result_of_follows hm he).imp_right .inl
  have read {r : Raise} {k : Byte → State → Flow Unit} (hk : ∀ b u, Follows u (k b u))
      (he : ((readByte r s).andThen k).result = .next t) : Works s t ∨ Raised s t ∨ Completed s t :=
    flow (follows_andThen (follows_readByte r s) hk) he
  have hdrop : Works s (dropCode s) := works_lzw s _
  cases i with
  | cmdNone => cases h1
  | identify => cases h1
  | decode => cases h1
  | illegalCmd op => cases h1
  | gce => exact (h2 rfl).elim
  | commit => exact (h3 rfl).elim
  | sigGif87 =>
    rw [exec, execSigGif87] at h; split at h
    · exact done h
    · exact flow (follows_afterSignature s) h
  | sigGif89 =>
    rw [exec, execSigGif89] at h; split at h
    · exact done h
    · exact flow (follows_afterSignature s) h
  | sigInvalid =>
    rw [exec, execSigInvalid] at h; split at h
    · exact done h
    · exact raise (r := .fatal .invalidHeader) (.refl s) h
  | hdrShort => exact raise (r := .fatal .invalidHeader) (.refl s) h
  | endOfBuffer => exact next (works_st s (by decide)) h
  | extTag => exact read (fun _ => follows_readLabel) h
  | imageTag => refine read (fun _ u => ?_) h; exact works_st u (by decide)
  | trailer => refine read (fun _ u => ?_) h; exact works_st u (by decide)
  | noise b => refine read (fun _ u => ?_) h; exact Works.refl u
  | otherExt l => exact flow (follows_finishExtension s) h
  | subEnd =>
    refine read (fun _ u => ?_) h
    split
    · exact works_st u (by decide)
    · exact works_lzw_st u _ (by decide)
    · exact follows_startSubBlock 0 u
  | subData len =>
    refine read (fun _ u => ?_) h
    split
    · exact follows_andThen (follows_need _ _ u) fun _ v => works_advance v _
    · exact follows_andThen (follows_need _ _ u) fun _ v => works_advance v _
    · exact follows_startSubBlock len u
  | dataSizeOk d => refine read (fun _ u => ?_) h; exact (works_initLzw _ u).trans (works_st _ (by decide))
  | dataSizeBad d => refine read (fun _ u => ?_) h; exact raised (r := .anomaly .corruptCode)
  | invalid c => exact raise (r := .anomaly .corruptCode) hdrop h
  | eoi c => exact next (hdrop.trans (works_st _ (by decide))) h
  | clear c => exact next (hdrop.trans (works_lzw _ _)) h
  | first c => exact flow (follows_of_works hdrop (follows_firstCode c _)) h
  | firstBad c => exact raise (r := .anomaly .corruptCode) hdrop h
  | full c => exact raise (r := .anomaly .dictionaryOverflow) hdrop h
  | kwkwk c => exact flow (follows_of_works hdrop (follows_kwkwkCode c _)) h
  | dict c => exact flow (follows_of_works hdrop (follows_dictCode c _)) h
  | ident => exact done h
  | hdr =>
    rw [exec, execHdr] at h; split at h
    · exact flow (follows_afterSignature s) h
    · exact raise (r := .fatal .invalidHeader) (.refl s) h
  | tag =>
    rw [exec, execTag] at h; split at h
    · exact next (works_st s (by decide)) h
    · exact read follows_afterTag h
  | img =>
    exact flow (follows_andThen (follows_prepareImage s) fun _ u =>
      follows_andThen (follows_readByte _ u) follows_startStream) h
  | lzwComplete => exact next (works_st s (by decide)) h
  | fetchLen => exact read follows_startSubBlock h
  | fetchByte => refine read (fun _ u => ?_) h; exact works_lzw u _
  | decodeCode => exact flow (follows_of_works hdrop (follows_classifyCode _ _)) h
  | emit =>
    rw [exec, execEmit] at h; split at h
    · cases h
    · cases h
      exact .inl ⟨rfl, .inl rfl, id⟩
  | drain =>
    rw [exec, execDrain] at h; split at h
    · exact next (works_st s (by decide)) h
    · refine flow ?_ h
      refine follows_andThen (m := skipSubBlocks _ _) ?_ fun _ u => works_lzw_st u _ (by decide)
      exact follows_of_works ((works_lzw s { s.lzw with count := 0 }).trans (works_advance _ _))
        (follows_skipLoop _ _ _)
  | finish =>
    rw [exec, execFinish] at h; split at h
    · exact raise (r := .fatal .emptyResult) (.refl s) h
    · cases h; exact .inr (.inr ⟨s.status.idMatch, rfl⟩)

/-- What GCE can do: the same, with some pending state set. -/
theorem exec_gce_course {s t : State} (h : exec .gce s = .next t) :
    ∃ p, Works { s with pend := p } t ∨ Raised { s with pend := p } t := by
  rw [exec, execGce] at h
  rcases hr : readByte (.fatal .truncatedStream) { s with pend := { valid := false, idx := 0 } } with ⟨len, u⟩ | u | f
  · have hu := follows_readByte (.fatal .truncatedStream) { s with pend := { valid := false, idx := 0 } }
    rw [hr] at h hu
    rw [andThen_go] at h
    split at h
    · cases h; exact ⟨_, .inl (hu.trans (works_st u (by decide)))⟩
    · rcases hn : need len.toNat (.fatal .truncatedStream) u with ⟨_, v⟩ | v | f
      · have hv := follows_need len.toNat (.fatal .truncatedStream) u
        rw [hn] at h hv
        have hw : Works { s with pend := v.carriedPending len.toNat }
            ({ v with pend := v.carriedPending len.toNat }.advance len.toNat) :=
          have k := hu.trans hv
          ⟨by rw [k.frame]; rfl, k.anom, k.st⟩
        exact ⟨_, result_of_follows (follows_of_works hw (follows_finishExtension _)) h⟩
      · have hv := follows_need len.toNat (.fatal .truncatedStream) u
        rw [hn] at h hv
        cases h
        obtain ⟨r, x, hx, he⟩ := hv
        exact ⟨_, .inr ⟨r, x, hu.trans hx, he⟩⟩
      · rw [hn] at h; cases h
  · have hu := follows_readByte (.fatal .truncatedStream) { s with pend := { valid := false, idx := 0 } }
    rw [hr] at h hu
    cases h
    exact ⟨_, .inr hu⟩
  · rw [hr] at h; cases h

/-- A raise is a fatal error or, but under ABORT, the end of the image. -/
theorem raise_cases (r : Raise) (s : State) :
    (∃ k, raise r s = fatal k s) ∨ (∃ k, raise r s = endImage k s ∧ s.ctrl.policy ≠ .abort) := by
  cases r with
  | fatal k => exact .inl ⟨k, rfl⟩
  | anomaly k =>
    simp only [raise, anomaly]
    split
    · exact .inl ⟨k, rfl⟩
    · rename_i h; exact .inr ⟨k, rfl, h⟩

end Sys2Proof.Laws
end

