-- ==== Sys2Proof/Laws/Dictionary.lean ====
section
/-!
SUPPORT. The dictionary stays sound (R245, R274): where it is set up, where a code extends it, and where a clear resets it.
-/
namespace Sys2Proof.Laws
open Sys2Proof Sys2Proof.Machine

/-- The literals of a sound DATA_SIZE are 4 to 256. -/
theorem literals_bounds {d : Nat} (hd : 2 ≤ d ∧ d ≤ 8) : 4 ≤ 2 ^ d ∧ 2 ^ d ≤ 256 :=
  ⟨Nat.pow_le_pow_right (n := 2) (by omega) hd.1, Nat.pow_le_pow_right (n := 2) (by omega) hd.2⟩

/-- A sound dictionary has at most 4096 entries. -/
theorem avail_le {s : State} (h : DictionarySound s) : s.lzw.avail.toNat ≤ 4096 := by
  have h12 : 2 ^ s.lzw.codeSize.toNat ≤ 2 ^ 12 := Nat.pow_le_pow_right (by omega) h.codeSize.2
  have := h.availHigh
  omega

/-- R219, R220: the decoder as an image's DATA_SIZE sets it up. -/
theorem dictionarySound_initLzw {d : Nat} (hd : 2 ≤ d ∧ d ≤ 8) {s : State} (h0 : s.lzw.sp = 0)
    (h1 : s.lzw.datum = 0) (h2 : s.lzw.bits = 0) : DictionarySound (initLzw d s) := by
  have hpow := literals_bounds hd
  have hps : 2 ^ (d + 1) = 2 * 2 ^ d := by rw [pow_succ]; omega
  unfold initLzw
  generalize hv : ({ s with lzw := _ } : State) = v
  have ht := seedDictionary_suffixOf v (2 ^ d)
  have hl : (seedDictionary (2 ^ d) v).lzw = v.lzw := by rw [seedDictionary_frame]
  have ofNat {w n : Nat} (h : n < 2 ^ w) : (BitVec.ofNat w n).toNat = n := by
    rw [BitVec.toNat_ofNat, Nat.mod_eq_of_lt h]
  have e1 : v.lzw.dataSize.toNat = d := by subst hv; exact ofNat (by omega)
  have e2 : v.lzw.clear.toNat = 2 ^ d := by subst hv; exact ofNat (by omega)
  have e3 : v.lzw.eoi.toNat = 2 ^ d + 1 := by subst hv; exact ofNat (by omega)
  have e4 : v.lzw.avail.toNat = 2 ^ d + 2 := by subst hv; exact ofNat (by omega)
  have e5 : v.lzw.codeSize.toNat = d + 1 := by subst hv; exact ofNat (by omega)
  have e6 : v.lzw.codeMask.toNat = 2 ^ (d + 1) - 1 := by subst hv; exact maskOf_toNat (by omega)
  have e7 : v.lzw.oldValid = false := by subst hv; rfl
  have e8 : v.lzw.first = 0 := by subst hv; rfl
  have e9 : v.lzw.sp = 0 := by subst hv; exact h0
  have e10 : v.lzw.datum = 0 := by subst hv; exact h1
  have e11 : v.lzw.bits = 0 := by subst hv; exact h2
  constructor <;> rw [hl]
  · rw [e1]; exact hd
  · rw [e1, e2]
  · rw [e2, e3]
  · rw [e5]; omega
  · rw [e5, e6]
  · rw [e2, e4]
  · rw [e4, e5]; left; omega
  · rw [e2, e4]; exact fun _ => rfl
  · rw [e2]; intro c hc; rw [ht, if_pos hc, ofNat (by omega)]
  · rw [e2, e4]; intro x h1 h2; omega
  · rw [e7]; exact fun h => nomatch h
  · rw [e8, e2]; show 0 < _; omega
  · rw [e9]; exact Nat.zero_le _
  · rw [e9]; intro i hi; exact absurd hi (Nat.not_lt_zero _)
  · rw [e10, e11]; decide
  · rw [e11]; decide

/-- R263: the decoder after a clear code. -/
theorem dictionarySound_clearCode {s : State} (h : DictionarySound s) : DictionarySound (clearCode s) := by
  have hds := h.dataSize
  have hcl := h.clear
  have hpow := literals_bounds hds
  have e1 : (clearCode s).lzw.codeSize.toNat = s.lzw.dataSize.toNat + 1 := by
    show (BitVec.ofNat 4 (s.lzw.dataSize.toNat + 1)).toNat = _
    rw [BitVec.toNat_ofNat, Nat.mod_eq_of_lt (by omega)]
  have e2 : (clearCode s).lzw.avail.toNat = s.lzw.clear.toNat + 2 := by
    show (BitVec.ofNat 13 (s.lzw.clear.toNat + 2)).toNat = _
    rw [BitVec.toNat_ofNat, Nat.mod_eq_of_lt (by omega)]
  refine ⟨hds, hcl, h.eoi, by omega, ?_, e2.ge, .inl ?_, fun _ => e2, h.literals, fun x hx hx2 => ?_,
    fun e => (nomatch e), h.first, h.stackDepth, h.stackIndices, h.datum, h.bits⟩
  · rw [e1]; exact maskOf_toNat (by omega)
  · rw [e1, e2, pow_succ]; omega
  · rw [e2] at hx
    change s.lzw.clear.toNat + 2 ≤ x at hx2
    omega

/-- R269, R271 to R274: the decoder after the string of a known code c has been pushed (on a stack that holds at most
KWKWK's one index) and the dictionary extended. `u` is the state after the code's extraction, `v` the one the unwind
starts from. -/
theorem dictionarySound_extended {u v : State} {c : Nat} {code : BitVec 12} (hd : DictionarySound u)
    (hk : Known u c) (hv : v = { u with stack := v.stack, lzw := { u.lzw with sp := v.lzw.sp } })
    (hroom : v.lzw.sp.toNat + max 1 (c - u.lzw.clear.toNat) ≤ 4091)
    (hst : ∀ i < v.lzw.sp.toNat, (v.stackAt i).toNat < u.lzw.clear.toNat) (hold : u.lzw.oldValid = true)
    (hav : u.lzw.avail.toNat < 4096)
    (hcode : code.toNat ≤ u.lzw.avail.toNat ∧ code.toNat ≠ u.lzw.clear.toNat ∧ code.toNat ≠ u.lzw.eoi.toNat) :
    ∃ t, (unwind c v).andThen (fun _ s => .go () (extendDictionary code s)) = .go () t ∧
      (CanonicalCells v → CanonicalCells t) ∧ DictionarySound t ∧
      t = { u with
        stack := t.stack, prefixTab := t.prefixTab, suffixTab := t.suffixTab,
        lzw := { u.lzw with
          sp := t.lzw.sp, first := t.lzw.first, avail := t.lzw.avail, codeSize := t.lzw.codeSize,
          codeMask := t.lzw.codeMask, oldCode := t.lzw.oldCode } } := by
  have hlen : (u.stringOf c).length ≤ _ := codeString_length hd (fuel := 4096) hk
  have hlt : ∀ w ∈ u.stringOf c, _ := codeString_lt hd (fuel := 4096) hk
  have v1 : v.lzw.clear = u.lzw.clear := by rw [hv]
  have v2 : v.prefixTab = u.prefixTab := by rw [hv]
  have v3 : v.suffixTab = u.suffixTab := by rw [hv]
  have v4 : v.resets = u.resets := by rw [hv]
  have hstr : v.stringOf c = u.stringOf c := stringOf_congr v1 v2 v3 v4 c
  have hcl : Closed v (Known u) := by
    intro x hx h'
    rw [v1] at h'
    have := closed_known hd x hx h'
    rw [prefixOf_congr v2 v4]; exact this
  obtain ⟨t, f, rest, h1, h2, h3, h4, h5, h6, h7⟩ :=
    unwind_string hcl hk (by have := hk.1; omega) (by rw [hstr]; omega)
  rw [hstr] at h2
  rw [h2] at hlen hlt
  have av := hd.availHigh
  have e1 : t.lzw.avail = u.lzw.avail := by rw [h4, hv]
  have e2 : t.lzw.codeSize = u.lzw.codeSize := by rw [h4, hv]
  have e3 : t.lzw.codeMask = u.lzw.codeMask := by rw [h4, hv]
  have e4 : t.lzw.oldCode = u.lzw.oldCode := by rw [h4, hv]
  have e5 : t.lzw.first = f := by rw [h4]
  have e6 : t.prefixTab = u.prefixTab := by rw [h4, hv]
  have e7 : t.suffixTab = u.suffixTab := by rw [h4, hv]
  have e8 : t.resets = u.resets := by rw [h4, hv]
  obtain ⟨w, w1, w2, w3, w3', w4, w5, w6, w7, w8⟩ := extendDictionary_spec (s := t) (c := code) (by rw [e2]; exact hd.codeSize)
    (by rw [e2, e3]; exact hd.codeMask) (by rw [e1, e2]; omega)
  rw [e1] at w6
  rw [e2] at w7
  have g1 : w.lzw.sp = t.lzw.sp := by rw [w2]
  have g2 : w.stack = t.stack := by rw [w2]
  have g3 : w.lzw.clear = u.lzw.clear := by rw [w2, h4, hv]
  have g4 : w.lzw.eoi = u.lzw.eoi := by rw [w2, h4, hv]
  have g5 : w.lzw.dataSize = u.lzw.dataSize := by rw [w2, h4, hv]
  have g6 : w.lzw.oldCode = code := by rw [w2]
  have g7 : w.lzw.first = f := by rw [w2, h4]
  have g8 : w.lzw.datum = u.lzw.datum ∧ w.lzw.bits = u.lzw.bits := by rw [w2, h4, hv]; exact ⟨rfl, rfl⟩
  have g9 : w.lzw.oldValid = true := by rw [w2, h4, hv]; exact hold
  have hstack : ∀ i < w.lzw.sp.toNat, (w.stackAt i).toNat < u.lzw.clear.toNat := by
    intro i hi
    rw [g1, h5] at hi
    rw [stackAt_congr g2 (by rw [w2])]
    by_cases hlo : i < v.lzw.sp.toNat
    · rw [h7 i hlo]; exact hst i hlo
    · have := h6 (t.lzw.sp.toNat - 1 - i) (by omega)
      rw [show t.lzw.sp.toNat - 1 - (t.lzw.sp.toNat - 1 - i) = i by omega] at this
      rw [this]
      exact hlt _ (List.getElem_mem _)
  have ho := hd.oldCode hold
  have low := hd.availLow
  have eoi := hd.eoi
  refine ⟨w, by rw [h1, andThen_go, w1], ?_, ?_, ?_⟩
  · intro hc
    refine ⟨?_, ?_, w3 (by rw [e6, ← v2]; exact hc.prefixTab), w3' (by rw [e7, ← v3]; exact hc.suffixTab),
      by rw [g2]; exact h3 hc.stack, ?_, ?_, ?_⟩
    · rw [w2, h4]; exact hc.inbuf
    · rw [w2, h4]; exact hc.outbuf
    · rw [w2, h4]; exact hc.gct
    · rw [w2, h4]; exact hc.lct
    · rw [w2, h4]; exact hc.ft
  · have hcs := hd.codeSize
    have h12 : 2 ^ u.lzw.codeSize.toNat ≤ 2 ^ 12 := Nat.pow_le_pow_right (by omega) hcs.2
    constructor
    · rw [g5]; exact hd.dataSize
    · rw [g3, g5]; exact hd.clear
    · rw [g3, g4]; exact eoi
    · rw [w7]
      split
      · rename_i q
        refine ⟨by omega, ?_⟩
        by_contra h
        have : u.lzw.codeSize.toNat = 12 := by omega
        rw [this] at q; omega
      · exact hcs
    · exact w8
    · rw [g3, w6]; omega
    · rw [w7]
      split
      · left; rw [pow_succ]; omega
      · rcases Nat.lt_or_ge w.lzw.avail.toNat (2 ^ u.lzw.codeSize.toNat) with q | q
        · exact .inl q
        · have h4096 : w.lzw.avail.toNat = 4096 := by omega
          have := (Nat.pow_le_pow_iff_right (by omega : 1 < 2)).1 (show 2 ^ 12 ≤ 2 ^ u.lzw.codeSize.toNat by omega)
          exact .inr ⟨h4096, by omega⟩
    · rw [g9]; exact fun e => nomatch e
    · rw [g3]; intro x hx
      rw [w5, e1, if_neg (by omega)]; rw [suffixOf_congr e7 e8]; exact hd.literals x hx
    · rw [g3, g4, w6]
      intro x hx hx2
      rw [w4, w5, e1, e4, e5]
      by_cases q : x = u.lzw.avail.toNat
      · rw [if_pos q, if_pos q]
        exact ⟨by omega, ho.2.1, ho.2.2, hlt f (by simp)⟩
      · rw [if_neg q, if_neg q]
        have := hd.entries x (by omega) hx2
        rw [prefixOf_congr e6 e8, suffixOf_congr e7 e8]; exact this
    · rw [g6, g3, g4, w6]; exact fun _ => ⟨by omega, hcode.2.1, hcode.2.2⟩
    · rw [g7, g3]; exact hlt f (by simp)
    · rw [g1, h5]; omega
    · rw [g3]; exact hstack
    · rw [g8.1, g8.2]; exact hd.datum
    · rw [g8.2]; exact hd.bits
  · conv_lhs => rw [w2, h4, hv]
    rw [g2, g6, g7, g1]

end Sys2Proof.Laws
end

