-- ==== Sys2Proof/Laws/Fetch.lean ====
section
/-!
SUPPORT. The laws of what the engine meets next: the registers a code is classified against, the bytes of the stream,
and the signature as the decoder and the machine read it.
-/
namespace Sys2Proof.Laws
open Sys2Proof Sys2Proof.Machine

/-- With the engine's turn and an engine step selected, the machine's step is that step. -/
theorem step_of_engineOp {s : State} {i : Instr} (hm : s.moves = []) (hi : engineOp s = some i) : step s = exec i s := by
  unfold step; rw [hm]; simp only [engineStep, hi]

/-- Outside LZW and IDLE the engine's step is the one ST names. -/
theorem engineOp_of_st {s : State} :
    (s.st = .idle → engineOp s = none) ∧ (s.st = .ident → engineOp s = some .ident) ∧
    (s.st = .hdr → engineOp s = some .hdr) ∧ (s.st = .tag → engineOp s = some .tag) ∧
    (s.st = .ext → engineOp s = some (decodeLabel s.extLabel)) ∧ (s.st = .img → engineOp s = some .img) ∧
    (s.st = .drain → engineOp s = some .drain) ∧ (s.st = .commit → engineOp s = some .commit) ∧
    (s.st = .finish → engineOp s = some .finish) := by
  refine ⟨?_, ?_, ?_, ?_, ?_, ?_, ?_, ?_, ?_⟩ <;> intro h <;>
    simp only [engineOp, decode, selectStep, h, accepted]

/-- In LZW the engine's step is the first whose condition holds (R240). -/
theorem engineOp_of_lzw {s : State} (h : s.st = .lzw) :
    engineOp s = some (if s.place.pix = s.img.total then .lzwComplete
      else if s.lzw.sp ≠ 0 then .emit
      else if s.lzw.bits.toNat < s.lzw.codeSize.toNat then (if s.lzw.count = 0 then .fetchLen else .fetchByte)
      else .decodeCode) := by
  simp only [engineOp, decode, selectStep, h, accepted, decide_eq_true_eq, decide_eq_false_iff_not, ne_eq]

theorem streamBytes_one_of_lt {s : State} {a : Nat} (h : a < s.inLen.toNat) : s.streamBytes a 1 = [s.inByte a] := by
  unfold State.streamBytes
  rw [show min 1 (s.inLen.toNat - a) = 1 by omega]; rfl

theorem streamBytes_one_of_le {s : State} {a : Nat} (h : s.inLen.toNat ≤ a) : s.streamBytes a 1 = [] := by
  unfold State.streamBytes
  rw [show min 1 (s.inLen.toNat - a) = 0 by omega]; rfl

theorem streamBytes_length (s : State) (a n : Nat) : (s.streamBytes a n).length = min n (s.inLen.toNat - a) :=
  inBytes_length _ _ _

/-- The decoder and `validHeader` read the signature alike. -/
theorem decodeSig_stream (s : State) {n : Nat} (hn : 5 ≤ n) :
    s.validHeader = true ∧
      (decodeSig (s.streamBytes 0 n) = .sigGif87 ∨ decodeSig (s.streamBytes 0 n) = .sigGif89) ∨
    s.validHeader = false ∧ decodeSig (s.streamBytes 0 n) = .sigInvalid := by
  rcases Nat.lt_or_ge s.inLen.toNat 5 with h | h
  · have hl : ((s.streamBytes 0 n).take 5).length < 5 := by rw [List.length_take, streamBytes_length]; omega
    have h1 : (s.streamBytes 0 n).take 5 ≠ gif87Bytes := by
      intro he; rw [he] at hl; exact absurd hl (by decide)
    have h2 : (s.streamBytes 0 n).take 5 ≠ gif89Bytes := by
      intro he; rw [he] at hl; exact absurd hl (by decide)
    refine .inr ⟨by simp [State.validHeader]; omega, ?_⟩
    unfold decodeSig; rw [if_neg h1, if_neg h2]
  · have ht : (s.streamBytes 0 n).take 5 = s.inBytes 0 5 := by
      unfold State.streamBytes
      rw [show min n (s.inLen.toNat - 0) = 5 + (min n (s.inLen.toNat - 0) - 5) by omega, inBytes_append,
        List.take_left' (inBytes_length _ _ _)]
    unfold decodeSig State.validHeader
    rw [ht]
    split_ifs with h1 h2
    · exact .inl (by simp [h, h1])
    · exact .inl (by simp [h, h2])
    · exact .inr (by simp [h1, h2])

/-- The four bytes of the accumulator spell it. -/
theorem natOfBytes_datum (v : BitVec 32) : natOfBytes (bytesOfNat 4 v.toNat) = v.toNat := by
  have := v.isLt
  simp only [natOfBytes, bytesOfNat, BitVec.toNat_ofNat]
  omega

/-- A row of format CODE does with its code, taken off the accumulator, what the DECODE step's classification does. -/
theorem exec_classify (s : State) (c : BitVec 12) :
    exec (classify s.codeRegs c) s = (classifyCode c (dropCode s)).result := by
  generalize hr : s.codeRegs = r
  have h1 : (dropCode s).lzw.avail = r.avail := by rw [← hr]; rfl
  have h2 : (dropCode s).lzw.eoi = r.eoi := by rw [← hr]; rfl
  have h3 : (dropCode s).lzw.clear = r.clear := by rw [← hr]; rfl
  have h4 : (dropCode s).lzw.oldValid = r.oldValid := by rw [← hr]; rfl
  simp only [classify, classifyCode, h1, h2, h3, h4]
  split_ifs <;> rfl

/-- Bytes stored in a row keep the canonical form. -/
theorem memory_wf_storeBytes {m : Memory} (h : m.wf) (a : Nat) (bs : List Byte) : Memory.wf (storeBytes m a bs) := by
  induction bs generalizing m a with
  | nil => exact h
  | cons b bs ih => exact ih (memory_wf_write h a b) (a + 1)

end Sys2Proof.Laws
end

