-- ==== Sys2Proof/Laws/Frames.lean ====
section
/-!
SUPPORT. The bytes of committed frames: OUT_USED as a 32-bit register and as the number it stands for.
-/
namespace Sys2Proof.Laws
open Sys2Proof Sys2Proof.Machine

theorem usedBytes_congr {s t : State} (hc : t.cfg = s.cfg) (hu : t.outUsed = s.outUsed)
    (hn : t.frameCount = s.frameCount) (h : t.ft = s.ft) (hr : t.resets = s.resets) : t.usedBytes = s.usedBytes := by
  unfold State.usedBytes; rw [hc, hu, hn, bytesBefore_congr h hr]

theorem Works.usedBytes {s t : State} (h : Works s t) : t.usedBytes = s.usedBytes :=
  usedBytes_congr h.cfg h.outUsed h.frameCount h.ft h.resets

/-- The register is the number's low 32 bits. -/
theorem usedBytes_mod (s : State) : s.usedBytes % 2 ^ 32 = s.outUsed.toNat := by
  have := s.outUsed.isLt
  unfold State.usedBytes
  split
  · rename_i h; rw [h.2.1]; rfl
  · exact Nat.mod_eq_of_lt this

/-- The two numbers differ only where OUTBUF is full. -/
theorem usedBytes_cases (s : State) :
    s.usedBytes = s.outUsed.toNat ∨ (s.usedBytes = s.cfg.outCap ∧ s.cfg.outCap = 2 ^ 32 ∧ s.outUsed = 0) := by
  unfold State.usedBytes
  split
  · rename_i h; exact .inr ⟨h.1.symm, h.1, h.2.1⟩
  · exact .inl rfl

theorem outUsed_le_usedBytes (s : State) : s.outUsed.toNat ≤ s.usedBytes :=
  (usedBytes_mod s).symm.trans_le (Nat.mod_le _ _)

theorem usedBytes_le {s : State} (h : s.outUsed.toNat ≤ s.cfg.outCap) : s.usedBytes ≤ s.cfg.outCap := by
  unfold State.usedBytes; split <;> omega

theorem bytesBefore_mono (s : State) {k n : Nat} (h : k ≤ n) : s.bytesBefore k ≤ s.bytesBefore n := by
  induction h with
  | refl => exact Nat.le_refl _
  | step _ ih => exact ih.trans (Nat.le_add_right _ _)

/-- Where the frames are packed the number is the sum of their bytes (R27). -/
theorem usedBytes_of_packed {s : State} (hc : s.cfg.outCap ≤ 2 ^ 32) (h : FramesPacked s) :
    s.usedBytes = s.bytesBefore s.frameCount.toNat := by
  have hu := h.used
  have hf := h.fits
  unfold State.usedBytes
  split
  · rename_i hx
    rw [hx.2.1, show (0 : BitVec 32).toNat = 0 from rfl] at hu
    omega
  · rename_i hx
    rw [← BitVec.toNat_inj, show (0 : BitVec 32).toNat = 0 from rfl] at hx
    omega

end Sys2Proof.Laws
end

