-- ==== Sys2Proof/Laws/Interlace.lean ====
section
/-!
SUPPORT. The interlace schedule in closed form (R295 to R297): the rows of each pass, and the pass and row after k rows.
-/
namespace Sys2Proof.Laws
open Sys2Proof Sys2Proof.Machine

theorem passRows_zero (h : Nat) : passRows h 0 = (List.range ((h + 7) / 8)).map (fun k => 8 * k) := by
  induction h with
  | zero => rfl
  | succ h ih =>
    unfold passRows at *
    rw [List.range_succ, List.filter_append, ih]
    simp [Config.interlaceStart, Config.interlaceStride]
    by_cases hd : h % 8 = 0
    · rw [show (h + 1 + 7) / 8 = (h + 7) / 8 + 1 by omega, List.range_succ, List.map_append]
      simp [hd]; omega
    · rw [show (h + 1 + 7) / 8 = (h + 7) / 8 by omega]; simp [hd]
theorem passRows_one (h : Nat) : passRows h 1 = (List.range ((h + 3) / 8)).map (fun k => 4 + 8 * k) := by
  induction h with
  | zero => rfl
  | succ h ih =>
    unfold passRows at *
    rw [List.range_succ, List.filter_append, ih]
    simp [Config.interlaceStart, Config.interlaceStride]
    by_cases hd : 4 ≤ h ∧ (h - 4) % 8 = 0
    · rw [show (h + 1 + 3) / 8 = (h + 3) / 8 + 1 by omega, List.range_succ, List.map_append]
      simp [hd]; omega
    · rw [show (h + 1 + 3) / 8 = (h + 3) / 8 by omega]; simp; omega
theorem passRows_two (h : Nat) : passRows h 2 = (List.range ((h + 1) / 4)).map (fun k => 2 + 4 * k) := by
  induction h with
  | zero => rfl
  | succ h ih =>
    unfold passRows at *
    rw [List.range_succ, List.filter_append, ih]
    simp [Config.interlaceStart, Config.interlaceStride]
    by_cases hd : 2 ≤ h ∧ (h - 2) % 4 = 0
    · rw [show (h + 1 + 1) / 4 = (h + 1) / 4 + 1 by omega, List.range_succ, List.map_append]
      simp [hd]; omega
    · rw [show (h + 1 + 1) / 4 = (h + 1) / 4 by omega]; simp; omega
theorem passRows_three (h : Nat) : passRows h 3 = (List.range (h / 2)).map (fun k => 1 + 2 * k) := by
  induction h with
  | zero => rfl
  | succ h ih =>
    unfold passRows at *
    rw [List.range_succ, List.filter_append, ih]
    simp [Config.interlaceStart, Config.interlaceStride]
    by_cases hd : 1 ≤ h ∧ (h - 1) % 2 = 0
    · rw [show (h + 1) / 2 = h / 2 + 1 by omega, List.range_succ, List.map_append]
      simp [hd]; omega
    · rw [show (h + 1) / 2 = h / 2 by omega]; simp; omega

/-- PASS and ROW of the k-th row in closed form. -/
def scheduledRow (h k : Nat) : Nat × Nat :=
  if k < (h + 7) / 8 then (0, 8 * k)
  else if k < (h + 7) / 8 + (h + 3) / 8 then (1, 4 + 8 * (k - (h + 7) / 8))
  else if k < (h + 7) / 8 + (h + 3) / 8 + (h + 1) / 4 then (2, 2 + 4 * (k - ((h + 7) / 8 + (h + 3) / 8)))
  else (3, 1 + 2 * (k - ((h + 7) / 8 + (h + 3) / 8 + (h + 1) / 4)))

theorem scheduledRow_lt {h k : Nat} (hk : k < h) : (scheduledRow h k).2 < h := by
  unfold scheduledRow; split_ifs <;> simp only <;> omega

theorem skipPasses_succ (h : Nat) (n p r : Nat) (hp : p < 4) (hr : r < 2 ^ 31) :
    skipPasses h (n + 1) (BitVec.ofNat 2 p, BitVec.ofNat 32 r) =
      if h ≤ r ∧ p < 3 then
        skipPasses h n (BitVec.ofNat 2 (p + 1), BitVec.ofNat 32 (Config.interlaceStart.getD (p + 1) 0))
      else (BitVec.ofNat 2 p, BitVec.ofNat 32 r) := by
  have e1 : (BitVec.ofNat 2 p).toNat = p := by rw [BitVec.toNat_ofNat, Nat.mod_eq_of_lt (by omega)]
  have e2 : (BitVec.ofNat 32 r).toNat = r := by rw [BitVec.toNat_ofNat, Nat.mod_eq_of_lt (by omega)]
  simp only [skipPasses, e1, e2]

theorem nextInterlacedRow_scheduledRow {h k : Nat} (h0 : 0 < h) (h16 : h < 65536) (hk : k < h) :
    nextInterlacedRow h (BitVec.ofNat 2 (scheduledRow h k).1) (BitVec.ofNat 32 (scheduledRow h k).2) =
      (BitVec.ofNat 2 (scheduledRow h (k + 1)).1, BitVec.ofNat 32 (scheduledRow h (k + 1)).2) := by
  have hl := scheduledRow_lt hk
  have hp : (scheduledRow h k).1 < 4 := by unfold scheduledRow; split_ifs <;> simp
  have e1 : (BitVec.ofNat 2 (scheduledRow h k).1).toNat = (scheduledRow h k).1 := by
    rw [BitVec.toNat_ofNat, Nat.mod_eq_of_lt (by omega)]
  have e2 : (BitVec.ofNat 32 (scheduledRow h k).2).toNat = (scheduledRow h k).2 := by
    rw [BitVec.toNat_ofNat, Nat.mod_eq_of_lt (by omega)]
  unfold nextInterlacedRow
  rw [e1, e2]
  have hs : Config.interlaceStride.getD (scheduledRow h k).1 0 ≤ 8 := by
    have : ∀ p < 4, Config.interlaceStride.getD p 0 ≤ 8 := by decide
    exact this _ hp
  rw [skipPasses_succ _ _ _ _ hp (by omega)]
  have key : ∀ p r, (scheduledRow h k) = (p, r) →
      (if h ≤ r + Config.interlaceStride.getD p 0 ∧ p < 3 then
          skipPasses h 2 (BitVec.ofNat 2 (p + 1), BitVec.ofNat 32 (Config.interlaceStart.getD (p + 1) 0))
        else (BitVec.ofNat 2 p, BitVec.ofNat 32 (r + Config.interlaceStride.getD p 0))) =
      (BitVec.ofNat 2 (scheduledRow h (k + 1)).1, BitVec.ofNat 32 (scheduledRow h (k + 1)).2) := by
    intro p r hpr
    unfold scheduledRow at hpr
    split_ifs at hpr with c1 c2 c3
    · obtain ⟨rfl, rfl⟩ := Prod.mk.inj hpr.symm
      simp only [show Config.interlaceStride.getD 0 0 = 8 from rfl,
        show Config.interlaceStart.getD (0 + 1) 0 = 4 from rfl]
      rw [skipPasses_succ _ _ _ _ (by omega) (by omega)]
      simp only [show Config.interlaceStart.getD (0+1+1) 0 = 2 from rfl]
      rw [skipPasses_succ _ _ _ _ (by omega) (by omega)]
      simp only [show Config.interlaceStart.getD (0+1+1+1) 0 = 1 from rfl, skipPasses]
      unfold scheduledRow
      split_ifs <;> first | rfl | omega | (congr 2; omega)
    · obtain ⟨rfl, rfl⟩ := Prod.mk.inj hpr.symm
      simp only [show Config.interlaceStride.getD 1 0 = 8 from rfl,
        show Config.interlaceStart.getD (1 + 1) 0 = 2 from rfl]
      rw [skipPasses_succ _ _ _ _ (by omega) (by omega)]
      simp only [show Config.interlaceStart.getD (1+1+1) 0 = 1 from rfl]
      rw [skipPasses_succ _ _ _ _ (by omega) (by omega)]
      unfold scheduledRow
      split_ifs <;> first | rfl | omega | (congr 2; omega)
    · obtain ⟨rfl, rfl⟩ := Prod.mk.inj hpr.symm
      simp only [show Config.interlaceStride.getD 2 0 = 4 from rfl,
        show Config.interlaceStart.getD (2 + 1) 0 = 1 from rfl]
      rw [skipPasses_succ _ _ _ _ (by omega) (by omega)]
      unfold scheduledRow
      split_ifs <;> first | rfl | omega | (congr 2; omega)
    · obtain ⟨rfl, rfl⟩ := Prod.mk.inj hpr.symm
      simp only [show Config.interlaceStride.getD 3 0 = 2 from rfl]
      unfold scheduledRow
      split_ifs <;> first | rfl | omega | (congr 2; omega)
  exact key _ _ rfl

theorem interlacedPlace_eq {h : Nat} (h0 : 0 < h) (h16 : h < 65536) (k : Nat) (hk : k ≤ h) :
    interlacedPlace h k = (BitVec.ofNat 2 (scheduledRow h k).1, BitVec.ofNat 32 (scheduledRow h k).2) := by
  induction k with
  | zero =>
    unfold scheduledRow
    rw [if_pos (by omega)]; rfl
  | succ k ih =>
    rw [interlacedPlace, ih (by omega)]
    exact nextInterlacedRow_scheduledRow h0 h16 (by omega)

end Sys2Proof.Laws
end

