-- ==== Sys2Proof/Laws/PerInstr.lean ====
section
/-!
SUPPORT. Per instruction: the round trip of the encoding, decoding what `encode` writes at any place where the
instruction fits (spec/30_encoding.md).
-/
namespace Sys2Proof.Laws
open Sys2Proof

/-- The round trip of one instruction. -/
def Roundtrip.Statement (i : Instr) : Prop := ∀ c : Context, i.fits c = true → Sys2Proof.decode c (encode c i) = .ok i

/-- The four bytes of a command word spell it. -/
theorem natOfBytes_word (v : Word) : BitVec.ofNat 32 (natOfBytes (bytesOfNat 4 v.toNat)) = v := by
  apply BitVec.eq_of_toNat_eq
  have := v.isLt
  simp [natOfBytes, bytesOfNat]
  omega

/-- The two bytes of a code spell it, and any CODE_SIZE finds its bits there. -/
theorem decode_codeBytes {r : CodeRegs} {k : BitVec 12} (h : k &&& r.codeMask = k) :
    Sys2Proof.decode (.code r) (codeBytes k) = .ok (classify r k) := by
  have h12 : BitVec.ofNat 12 (natOfBytes (codeBytes k)) = k := by
    apply BitVec.eq_of_toNat_eq
    have := k.isLt
    simp [codeBytes, natOfBytes, bytesOfNat]
    omega
  have h16 : r.codeSize.toNat < 16 := r.codeSize.isLt
  show decodeCodeBits r _ = _
  unfold decodeCodeBits
  rw [if_neg (by simp [codeBytes, bytesOfNat]; omega), h12, h]

/-- A code whose class conditions hold is classified so: the tests of R118 come in an order in which no earlier one
takes it. -/
theorem classify_of_fits {r : CodeRegs} {k : BitVec 12} {i : Instr} (hi : i.fitsCode r = true)
    (hk : i ∈ [.invalid k, .eoi k, .clear k, .first k, .firstBad k, .full k, .kwkwk k, .dict k]) :
    k &&& r.codeMask = k ∧ classify r k = i := by
  simp only [List.mem_cons, List.not_mem_nil, or_false] at hk
  rcases hk with rfl | rfl | rfl | rfl | rfl | rfl | rfl | rfl <;>
    simp only [Instr.fitsCode, Instr.fitsCode.plain, Instr.fitsCode.inRange, Bool.and_eq_true, decide_eq_true_eq,
      Bool.not_eq_true'] at hi <;>
    refine ⟨by tauto, ?_⟩ <;> unfold classify <;> split_ifs <;> first | rfl | omega | simp_all

/-- A row of format CODE comes back from its two bytes. -/
theorem code_roundtrip {c : Context} {k : BitVec 12} {i : Instr} (h : i.fits c = true)
    (hk : i ∈ [.invalid k, .eoi k, .clear k, .first k, .firstBad k, .full k, .kwkwk k, .dict k])
    (he : encode c i = codeBytes k) (hc : ∃ r, c = .code r) : Sys2Proof.decode c (encode c i) = .ok i := by
  obtain ⟨r, rfl⟩ := hc
  simp only [Instr.fits, Instr.fitsFormat, Bool.and_eq_true] at h
  obtain ⟨hm, hcl⟩ := classify_of_fits h.2 hk
  rw [he, decode_codeBytes hm, hcl]

namespace Roundtrip

theorem cmdNone : Statement .cmdNone := by
  intro c h
  cases c with
  | cmd => rfl
  | _ => cases h

theorem identify : Statement .identify := by
  intro c h
  cases c with
  | cmd => rfl
  | _ => cases h

theorem decode : Statement .decode := by
  intro c h
  cases c with
  | cmd => rfl
  | _ => cases h

theorem illegalCmd (op : Word) : Statement (.illegalCmd op) := by
  intro c h
  cases c with
  | cmd =>
    have hw : 3 ≤ op.toNat := by simpa [Instr.fits, Instr.wf, Instr.fitsFormat, Instr.isCmd] using h
    show Except.ok (decodeCmd (BitVec.ofNat 32 (natOfBytes (bytesOfNat 4 op.toNat)))) = _
    rw [natOfBytes_word]
    unfold decodeCmd
    rw [if_neg (by rintro rfl; simp at hw), if_neg (by rintro rfl; simp at hw), if_neg (by rintro rfl; simp at hw)]
  | _ => exact absurd ((Bool.and_eq_true _ _).mp h).2 Bool.false_ne_true

theorem sigGif87 : Statement .sigGif87 := by
  intro c h
  cases c with
  | ident => rfl
  | hdr => rfl
  | _ => cases h

theorem sigGif89 : Statement .sigGif89 := by
  intro c h
  cases c with
  | ident => rfl
  | hdr => rfl
  | _ => cases h

theorem sigInvalid : Statement .sigInvalid := by
  intro c h
  cases c with
  | ident => rfl
  | hdr => rfl
  | _ => cases h

theorem hdrShort : Statement .hdrShort := by
  intro c h
  cases c with
  | hdr => rfl
  | _ => cases h

theorem endOfBuffer : Statement .endOfBuffer := by
  intro c h
  cases c with
  | tag => rfl
  | _ => cases h

theorem extTag : Statement .extTag := by
  intro c h
  cases c with
  | tag => rfl
  | _ => cases h

theorem imageTag : Statement .imageTag := by
  intro c h
  cases c with
  | tag => rfl
  | _ => cases h

theorem trailer : Statement .trailer := by
  intro c h
  cases c with
  | tag => rfl
  | _ => cases h

theorem noise (t : Byte) : Statement (.noise t) := by
  intro c h
  cases c with
  | tag =>
    have hw : t ≠ 0x21 ∧ t ≠ 0x2C ∧ t ≠ 0x3B := by simpa [Instr.fits, Instr.wf, Instr.fitsFormat, Instr.isTag] using h
    show Except.ok (decodeTag t) = _
    unfold decodeTag
    rw [if_neg hw.1, if_neg hw.2.1, if_neg hw.2.2]
  | _ => exact absurd ((Bool.and_eq_true _ _).mp h).2 Bool.false_ne_true

theorem gce : Statement .gce := by
  intro c h
  cases c with
  | ext => rfl
  | engine v =>
    have hv : v.st = .ext ∧ v.label = 0xF9 := by simpa [Instr.fits, Instr.wf, Instr.fitsFormat, Instr.fitsEngine] using h
    show selectStep v = _
    unfold selectStep decodeLabel
    rw [hv.1]
    dsimp only
    rw [if_pos hv.2]
  | _ => cases h

theorem otherExt (l : Byte) : Statement (.otherExt l) := by
  intro c h
  cases c with
  | ext =>
    have hw : l ≠ 0xF9 := by simpa [Instr.fits, Instr.wf, Instr.fitsFormat, Instr.isExt] using h
    show Except.ok (decodeLabel l) = _
    unfold decodeLabel
    rw [if_neg hw]
  | engine v =>
    have hv : l ≠ 0xF9 ∧ v.st = .ext ∧ v.label = l := by
      simpa [Instr.fits, Instr.wf, Instr.fitsFormat, Instr.fitsEngine] using h
    show selectStep v = _
    unfold selectStep decodeLabel
    rw [hv.2.1, hv.2.2]
    dsimp only
    rw [if_neg hv.1]
  | _ => exact absurd ((Bool.and_eq_true _ _).mp h).2 Bool.false_ne_true

theorem subEnd : Statement .subEnd := by
  intro c h
  cases c with
  | sub => rfl
  | _ => cases h

theorem subData (len : Byte) : Statement (.subData len) := by
  intro c h
  cases c with
  | sub =>
    have hw : len ≠ 0 := by simpa [Instr.fits, Instr.wf, Instr.fitsFormat, Instr.isSub] using h
    show Except.ok (decodeSub len) = _
    unfold decodeSub
    rw [if_neg hw]
  | _ => exact absurd ((Bool.and_eq_true _ _).mp h).2 Bool.false_ne_true

theorem dataSizeOk (d : Byte) : Statement (.dataSizeOk d) := by
  intro c h
  cases c with
  | lzws =>
    have hw : 2 ≤ d.toNat ∧ d.toNat ≤ 8 := by simpa [Instr.fits, Instr.wf, Instr.fitsFormat, Instr.isDataSize] using h
    show Except.ok (decodeDataSize d) = _
    unfold decodeDataSize
    rw [if_neg (by omega)]
  | _ => exact absurd ((Bool.and_eq_true _ _).mp h).2 Bool.false_ne_true

theorem dataSizeBad (d : Byte) : Statement (.dataSizeBad d) := by
  intro c h
  cases c with
  | lzws =>
    have hw : d.toNat < 2 ∨ 8 < d.toNat := by simpa [Instr.fits, Instr.wf, Instr.fitsFormat, Instr.isDataSize] using h
    show Except.ok (decodeDataSize d) = _
    unfold decodeDataSize
    rw [if_pos hw]
  | _ => exact absurd ((Bool.and_eq_true _ _).mp h).2 Bool.false_ne_true

theorem invalid (k : BitVec 12) : Statement (.invalid k) := by
  intro c h
  cases c with
  | code r => exact code_roundtrip h (by simp) rfl ⟨r, rfl⟩
  | _ => cases h

theorem eoi (k : BitVec 12) : Statement (.eoi k) := by
  intro c h
  cases c with
  | code r => exact code_roundtrip h (by simp) rfl ⟨r, rfl⟩
  | _ => cases h

theorem clear (k : BitVec 12) : Statement (.clear k) := by
  intro c h
  cases c with
  | code r => exact code_roundtrip h (by simp) rfl ⟨r, rfl⟩
  | _ => cases h

theorem first (k : BitVec 12) : Statement (.first k) := by
  intro c h
  cases c with
  | code r => exact code_roundtrip h (by simp) rfl ⟨r, rfl⟩
  | _ => cases h

theorem firstBad (k : BitVec 12) : Statement (.firstBad k) := by
  intro c h
  cases c with
  | code r => exact code_roundtrip h (by simp) rfl ⟨r, rfl⟩
  | _ => cases h

theorem full (k : BitVec 12) : Statement (.full k) := by
  intro c h
  cases c with
  | code r => exact code_roundtrip h (by simp) rfl ⟨r, rfl⟩
  | _ => cases h

theorem kwkwk (k : BitVec 12) : Statement (.kwkwk k) := by
  intro c h
  cases c with
  | code r => exact code_roundtrip h (by simp) rfl ⟨r, rfl⟩
  | _ => cases h

theorem dict (k : BitVec 12) : Statement (.dict k) := by
  intro c h
  cases c with
  | code r => exact code_roundtrip h (by simp) rfl ⟨r, rfl⟩
  | _ => cases h

theorem ident : Statement .ident := by
  intro c h
  cases c with
  | engine v =>
    have hv : v.st = .ident := by simpa [Instr.fits, Instr.wf, Instr.fitsFormat, Instr.fitsEngine] using h
    show selectStep v = _
    unfold selectStep
    rw [hv]
  | _ => cases h

theorem hdr : Statement .hdr := by
  intro c h
  cases c with
  | engine v =>
    have hv : v.st = .hdr := by simpa [Instr.fits, Instr.wf, Instr.fitsFormat, Instr.fitsEngine] using h
    show selectStep v = _
    unfold selectStep
    rw [hv]
  | _ => cases h

theorem tag : Statement .tag := by
  intro c h
  cases c with
  | engine v =>
    have hv : v.st = .tag := by simpa [Instr.fits, Instr.wf, Instr.fitsFormat, Instr.fitsEngine] using h
    show selectStep v = _
    unfold selectStep
    rw [hv]
  | _ => cases h

theorem img : Statement .img := by
  intro c h
  cases c with
  | engine v =>
    have hv : v.st = .img := by simpa [Instr.fits, Instr.wf, Instr.fitsFormat, Instr.fitsEngine] using h
    show selectStep v = _
    unfold selectStep
    rw [hv]
  | _ => cases h

theorem drain : Statement .drain := by
  intro c h
  cases c with
  | engine v =>
    have hv : v.st = .drain := by simpa [Instr.fits, Instr.wf, Instr.fitsFormat, Instr.fitsEngine] using h
    show selectStep v = _
    unfold selectStep
    rw [hv]
  | _ => cases h

theorem commit : Statement .commit := by
  intro c h
  cases c with
  | engine v =>
    have hv : v.st = .commit := by simpa [Instr.fits, Instr.wf, Instr.fitsFormat, Instr.fitsEngine] using h
    show selectStep v = _
    unfold selectStep
    rw [hv]
  | _ => cases h

theorem finish : Statement .finish := by
  intro c h
  cases c with
  | engine v =>
    have hv : v.st = .finish := by simpa [Instr.fits, Instr.wf, Instr.fitsFormat, Instr.fitsEngine] using h
    show selectStep v = _
    unfold selectStep
    rw [hv]
  | _ => cases h

theorem lzwComplete : Statement .lzwComplete := by
  intro c h
  cases c with
  | engine v =>
    obtain ⟨st, d, e, b, z, l⟩ := v
    simp only [Instr.fits, Instr.wf, Instr.fitsFormat, Instr.fitsEngine, Bool.true_and, decide_eq_true_eq] at h
    simp [Sys2Proof.decode, selectStep, h]
  | _ => cases h

theorem fetchLen : Statement .fetchLen := by
  intro c h
  cases c with
  | engine v =>
    obtain ⟨st, d, e, b, z, l⟩ := v
    simp only [Instr.fits, Instr.wf, Instr.fitsFormat, Instr.fitsEngine, Bool.true_and, decide_eq_true_eq] at h
    simp [Sys2Proof.decode, selectStep, h]
  | _ => cases h

theorem fetchByte : Statement .fetchByte := by
  intro c h
  cases c with
  | engine v =>
    obtain ⟨st, d, e, b, z, l⟩ := v
    simp only [Instr.fits, Instr.wf, Instr.fitsFormat, Instr.fitsEngine, Bool.true_and, decide_eq_true_eq] at h
    simp [Sys2Proof.decode, selectStep, h]
  | _ => cases h

theorem decodeCode : Statement .decodeCode := by
  intro c h
  cases c with
  | engine v =>
    obtain ⟨st, d, e, b, z, l⟩ := v
    simp only [Instr.fits, Instr.wf, Instr.fitsFormat, Instr.fitsEngine, Bool.true_and, decide_eq_true_eq] at h
    simp [Sys2Proof.decode, selectStep, h]
  | _ => cases h

theorem emit : Statement .emit := by
  intro c h
  cases c with
  | engine v =>
    obtain ⟨st, d, e, b, z, l⟩ := v
    simp only [Instr.fits, Instr.wf, Instr.fitsFormat, Instr.fitsEngine, Bool.true_and, decide_eq_true_eq] at h
    simp [Sys2Proof.decode, selectStep, h]
  | _ => cases h

end Roundtrip

end Sys2Proof.Laws
end

