-- ==== Sys2Proof/Laws/Placement.lean ====
section
/-!
SUPPORT. Where the next pixel goes (R293 to R297): inside the frame while pixels are missing, and to the following place
once it is written.
-/
namespace Sys2Proof.Laws
open Sys2Proof Sys2Proof.Machine

theorem ofNat32_toNat {n : Nat} (h : n < 2 ^ 32) : (BitVec.ofNat 32 n).toNat = n := by
  rw [BitVec.toNat_ofNat, Nat.mod_eq_of_lt h]

/-- With a pixel missing, the next one's column and row are inside the image. -/
theorem place_inside {s : State} (hp : PlaceSound s) (ht : s.img.total.toNat = s.img.w.toNat * s.img.h.toNat)
    (hlt : s.place.pix.toNat < s.img.total.toNat) :
    s.place.x.toNat < s.img.w.toNat ∧ s.place.row.toNat < s.img.h.toNat ∧
      s.place.row.toNat * s.img.w.toNat + s.place.x.toNat + 1 ≤ s.img.total.toNat := by
  have hw : 0 < s.img.w.toNat := by
    rcases Nat.eq_zero_or_pos s.img.w.toNat with e | e
    · rw [ht, e, Nat.zero_mul] at hlt; omega
    · exact e
  have hx : s.place.x.toNat < s.img.w.toNat := by rw [hp.column]; exact Nat.mod_lt _ hw
  have hk : s.place.pix.toNat / s.img.w.toNat < s.img.h.toNat := by
    rw [Nat.div_lt_iff_lt_mul hw, mul_comm, ← ht]; exact hlt
  have hh := s.img.h.isLt
  have hrow : s.place.row.toNat < s.img.h.toNat := by
    cases hil : s.img.il with
    | false => rw [hp.sequentialRow hil]; exact hk
    | true =>
      have h := hp.interlacedRow hil
      rw [interlacedPlace_eq (lt_of_le_of_lt (Nat.zero_le _) hk) hh _ hk.le] at h
      have hl := scheduledRow_lt hk
      rw [show s.place.row = _ from congrArg Prod.snd h]
      generalize scheduledRow s.img.h.toNat (s.place.pix.toNat / s.img.w.toNat) = q at hl
      exact (ofNat32_toNat (n := q.2) (by omega)).trans_lt hl
  refine ⟨hx, hrow, ?_⟩
  have h := Nat.mul_le_mul_right s.img.w.toNat hrow
  rw [Nat.succ_mul] at h
  rw [ht, mul_comm s.img.w.toNat]; omega

/-- The placement after EMIT is that of one pixel more. -/
theorem placeSound_advance {s t : State} (hp : PlaceSound s) (ht : s.img.total.toNat = s.img.w.toNat * s.img.h.toNat)
    (hlt : s.place.pix.toNat < s.img.total.toNat) (hi : t.img = s.img)
    (he : t.place = { s.advancePlace with pix := BitVec.ofNat 32 (s.place.pix.toNat + 1) }) : PlaceSound t := by
  obtain ⟨hx, hrow, -⟩ := place_inside hp ht hlt
  have hw : 0 < s.img.w.toNat := by omega
  have hws := s.img.w.isLt
  have hhs := s.img.h.isLt
  have hts := s.img.total.isLt
  have hpix : t.place.pix.toNat = s.place.pix.toNat + 1 := by rw [he]; exact ofNat32_toNat (by omega)
  have hdm := Nat.div_add_mod s.place.pix.toNat s.img.w.toNat
  rw [← hp.column] at hdm
  by_cases hend : s.place.x.toNat + 1 = s.img.w.toNat
  · have hq : (s.place.pix.toNat + 1) / s.img.w.toNat = s.place.pix.toNat / s.img.w.toNat + 1 ∧
        (s.place.pix.toNat + 1) % s.img.w.toNat = 0 := by
      have h : s.place.pix.toNat + 1 = s.img.w.toNat * (s.place.pix.toNat / s.img.w.toNat + 1) := by
        rw [Nat.mul_add, Nat.mul_one]; omega
      rw [h]; exact ⟨Nat.mul_div_cancel_left _ hw, Nat.mul_mod_right _ _⟩
    unfold State.advancePlace at he
    rw [if_pos hend] at he
    refine ⟨?_, fun hil => ?_, fun hil => ?_⟩
    · rw [hpix, hi, hq.2, he]; split <;> rfl
    · rw [hi] at hil
      rw [if_neg (by rw [hil]; simp)] at he
      rw [hpix, hi, hq.1, ← hp.sequentialRow hil, he]
      exact ofNat32_toNat (by omega)
    · rw [hi] at hil
      rw [if_pos hil] at he
      rw [hpix, hi, hq.1, interlacedPlace, ← hp.interlacedRow hil, he]
  · have hx' : s.place.x.toNat + 1 < s.img.w.toNat := by omega
    have hq : (s.place.pix.toNat + 1) / s.img.w.toNat = s.place.pix.toNat / s.img.w.toNat ∧
        (s.place.pix.toNat + 1) % s.img.w.toNat = s.place.x.toNat + 1 := by
      have e : s.place.pix.toNat + 1 =
          s.img.w.toNat * (s.place.pix.toNat / s.img.w.toNat) + (s.place.x.toNat + 1) := by omega
      constructor
      · conv_lhs => rw [e]
        rw [Nat.mul_add_div hw, Nat.div_eq_of_lt hx', Nat.add_zero]
      · conv_lhs => rw [e]
        rw [Nat.mul_add_mod, Nat.mod_eq_of_lt hx']
    unfold State.advancePlace at he
    rw [if_neg hend] at he
    have ex : t.place.x.toNat = s.place.x.toNat + 1 := by
      rw [he]
      show (BitVec.ofNat 16 _).toNat = _
      rw [BitVec.toNat_ofNat, Nat.mod_eq_of_lt (by omega)]
    have er : t.place.row = s.place.row ∧ t.place.pass = s.place.pass := by rw [he]; exact ⟨rfl, rfl⟩
    refine ⟨?_, fun hil => ?_, fun hil => ?_⟩
    · rw [hpix, hi, hq.2, ex]
    · rw [hpix, hi, hq.1, er.1]; exact hp.sequentialRow (by rw [← hi]; exact hil)
    · rw [hpix, hi, hq.1, er.1, er.2]; exact hp.interlacedRow (by rw [← hi]; exact hil)

end Sys2Proof.Laws
end

