-- ==== Sys2Proof/Tests/Slice0.lean ====
section
/-!
SUPPORT. The model's own tests: what `WellFormed` refuses, words written out from the spec's encodings, one step of each
instruction, and for each obligation with hypotheses a witness that meets them. Expected values are from
spec/95_test_vectors.md or worked by hand from the rule cited.
-/
namespace Sys2Proof.Tests
open Sys2Proof Sys2Proof.Machine Sys2Proof.Laws

/-! ### States -/

/-- The engine in a state, with these input bytes and POS. -/
def engineAt (st : EngineState) (bs : List Byte) (pos : Nat) : State :=
  { State.reset with
    st := st, status := { Status.reset with busy := decide (st ≠ .idle) }, inbuf := storeBytes [] 0 bs,
    inLen := BitVec.ofNat 32 bs.length, pos := BitVec.ofNat 32 pos }

/-- IDLE with one host move pending. -/
def hostDoes (m : HostMove) : State := { State.reset with moves := [m] }

/-- HDR, and so busy, with one host move pending. -/
def busyHostDoes (m : HostMove) : State := { engineAt .hdr [] 0 with moves := [m] }

/-- `GIF89a`, 2×2, and a table of black and white: the 19 bytes H of spec/95 §1. -/
def headerH : List Byte := [0x47, 0x49, 0x46, 0x38, 0x39, 0x61, 2, 0, 2, 0, 0x80, 0, 0, 0, 0, 0, 0xFF, 0xFF, 0xFF]

/-- The descriptor I22 without its tag, and the stream W2 (spec/95 §1). -/
def image22 : List Byte := [0, 0, 0, 0, 2, 0, 2, 0, 0, 2, 2, 0x8C, 0x51, 0]

/-- The decoder's registers after R219 with DATA_SIZE 2, a first code 1 read and code 6 in the accumulator. -/
def lzw6 : Lzw :=
  { dataSize := 2, clear := 4, eoi := 5, avail := 6, codeSize := 3, codeMask := 7, oldValid := true, oldCode := 1,
    first := 1, datum := 6, bits := 3, count := 1, termSeen := false, sp := 0 }

/-- The second 2×2 image of a stream, its first pixel written, black and white in the table. -/
def decoding : State :=
  { engineAt .lzw [0x51, 0x00] 0 with
    frameCount := 1, outUsed := 16, lzw := lzw6,
    img := { w := 2, h := 2, il := false, loc := false, base := 16, total := 4, anom := .none },
    place := { pix := 1, x := 1, row := 0, pass := 0 },
    suffixTab := [(0, 0), (1, 1), (2, 2), (3, 3)], gct := [(0, ⟨0, 0, 0⟩), (1, ⟨0xFF, 0xFF, 0xFF⟩)], gctSize := 2,
    ft := [(0, { base := 0, w := 2, h := 2, stat := 0 })], outbuf := [(0, 0xFF), (16, 0xFF)] }

/-- `decoding` with another code in the accumulator. -/
def codeNext (c : BitVec 32) : State := { decoding with lzw := { lzw6 with datum := c } }

/-- `decoding` with the index 1 on the stack. -/
def emitting : State := { decoding with stack := [(0, 1)], lzw := { lzw6 with sp := 1 } }

/-- `decoding` with only two bits in the accumulator, so that a byte is fetched. -/
def fetching : State := { decoding with lzw := { lzw6 with datum := 2, bits := 2 } }

/-- The same at the end of a sub-block: a length byte is next. -/
def subBlockNext : State := { decoding with lzw := { lzw6 with datum := 2, bits := 2, count := 0 } }

/-- The result is a next state of which `p` holds. -/
def goesTo (r : Result) (p : State → Bool) : Bool :=
  match r with
  | .next t => p t
  | _ => false

/-! ### What WellFormed refuses -/

theorem test_wf_illegalCmd : Instr.wf (.illegalCmd 2) = false := by decide
theorem test_wf_noise : Instr.wf (.noise 0x3B) = false := by decide
theorem test_wf_otherExt : Instr.wf (.otherExt 0xF9) = false := by decide
theorem test_wf_subData : Instr.wf (.subData 0) = false := by decide
theorem test_wf_dataSizeOk : Instr.wf (.dataSizeOk 9) = false := by decide
theorem test_wf_dataSizeBad : Instr.wf (.dataSizeBad 8) = false := by decide
theorem test_fits_format : Instr.fits .tag .gce = false ∧ Instr.fits .ident .hdrShort = false := by decide
theorem test_fits_code : Instr.fits (.code decoding.codeRegs) (.invalid 6) = false ∧
    Instr.fits (.code decoding.codeRegs) (.eoi 4) = false ∧ Instr.fits (.code decoding.codeRegs) (.clear 5) = false ∧
    Instr.fits (.code decoding.codeRegs) (.first 1) = false ∧ Instr.fits (.code decoding.codeRegs) (.firstBad 6) = false ∧
    Instr.fits (.code decoding.codeRegs) (.full 1) = false ∧ Instr.fits (.code decoding.codeRegs) (.kwkwk 1) = false ∧
    Instr.fits (.code decoding.codeRegs) (.dict 6) = false ∧ Instr.fits (.code decoding.codeRegs) (.dict 9) = false := by
  decide
theorem test_fits_engine : Instr.fits (.engine decoding.view) .emit = false ∧
    Instr.fits (.engine decoding.view) .fetchLen = false ∧ Instr.fits (.engine decoding.view) .fetchByte = false ∧
    Instr.fits (.engine decoding.view) .lzwComplete = false ∧ Instr.fits (.engine decoding.view) .drain = false := by
  decide

/-! ### Words written out from the spec's encodings (R113 to R118; spec/10_state.md R36, R240) -/

theorem test_decode_cmd : decode .cmd [0x00, 0x00, 0x00, 0x00] = .ok .cmdNone ∧
    decode .cmd [0x01, 0x00, 0x00, 0x00] = .ok .identify ∧ decode .cmd [0x02, 0x00, 0x00, 0x00] = .ok .decode ∧
    decode .cmd [0x02, 0x01, 0x00, 0x00] = .ok (.illegalCmd 0x102) ∧
    decode .cmd [0x02, 0x00, 0x00] = .error .tooFewBytes := by decide
theorem test_decode_sig : decode .ident [0x47, 0x49, 0x46, 0x38, 0x37] = .ok .sigGif87 ∧
    decode .ident [0x47, 0x49, 0x46, 0x38, 0x39, 0x00] = .ok .sigGif89 ∧
    decode .ident [0x47, 0x49, 0x46, 0x38, 0x38, 0x61] = .ok .sigInvalid ∧
    decode .ident [0x47, 0x49, 0x46, 0x38] = .ok .sigInvalid ∧
    decode .hdr [0x47, 0x49, 0x46, 0x38, 0x37, 0x61, 2, 0, 2, 0, 0x80, 0, 0] = .ok .sigGif87 ∧
    decode .hdr (headerH.take 13) = .ok .sigGif89 ∧ decode .hdr (headerH.take 12) = .ok .hdrShort ∧
    decode .hdr [] = .ok .sigInvalid := by decide
theorem test_decode_tag : decode .tag [] = .ok .endOfBuffer ∧ decode .tag [0x21] = .ok .extTag ∧
    decode .tag [0x2C] = .ok .imageTag ∧ decode .tag [0x3B] = .ok .trailer ∧ decode .tag [0x3A] = .ok (.noise 0x3A) := by
  decide
theorem test_decode_ext : decode .ext [0xF9] = .ok .gce ∧ decode .ext [0x01] = .ok (.otherExt 0x01) ∧
    decode .ext [] = .error .tooFewBytes := by decide
theorem test_decode_sub : decode .sub [0x00] = .ok .subEnd ∧ decode .sub [0xFF] = .ok (.subData 0xFF) := by decide
theorem test_decode_dataSize : decode .lzws [0x02] = .ok (.dataSizeOk 2) ∧ decode .lzws [0x08] = .ok (.dataSizeOk 8) ∧
    decode .lzws [0x01] = .ok (.dataSizeBad 1) ∧ decode .lzws [0x09] = .ok (.dataSizeBad 9) := by decide
/-- The bytes 8C 51 of W2 hold the codes 4 1 6 0 5 at width 3, the first in bits 2:0 (spec/95 S9). -/
theorem test_decode_code :
    decode (.code { decoding.codeRegs with oldValid := false }) [0x8C, 0x51] = .ok (.clear 4) ∧
    decode (.code { decoding.codeRegs with oldValid := false }) [0x8C >>> 3] = .ok (.first 1) ∧
    decode (.code decoding.codeRegs) [0x8C >>> 6 ||| 0x51 <<< 2] = .ok (.kwkwk 6) ∧
    decode (.code { decoding.codeRegs with avail := 7 }) [0x51 >>> 1] = .ok (.dict 0) ∧
    decode (.code { decoding.codeRegs with avail := 7 }) [0x51 >>> 4] = .ok (.eoi 5) ∧
    decode (.code decoding.codeRegs) [0x07] = .ok (.invalid 7) ∧
    decode (.code { decoding.codeRegs with oldValid := false }) [0x06] = .ok (.firstBad 6) ∧
    decode (.code { decoding.codeRegs with codeSize := 12, codeMask := 0xFFF, avail := 4096 }) [0x00, 0x01] =
      .ok (.full 0x100) ∧
    decode (.code { decoding.codeRegs with codeSize := 12, codeMask := 0xFFF }) [0x06] = .error .tooFewBits := by
  decide
theorem test_decode_engine : decode (.engine (engineAt .ident [] 0).view) [] = .ok .ident ∧
    decode (.engine (engineAt .hdr [] 0).view) [] = .ok .hdr ∧ decode (.engine (engineAt .tag [] 0).view) [] = .ok .tag ∧
    decode (.engine (engineAt .ext [] 0).view) [] = .ok (.otherExt 0) ∧
    decode (.engine (engineAt .img [] 0).view) [] = .ok .img ∧
    decode (.engine (engineAt .lzw [] 0).view) [] = .ok .lzwComplete ∧
    decode (.engine emitting.view) [] = .ok .emit ∧ decode (.engine decoding.view) [] = .ok .decodeCode ∧
    decode (.engine { decoding.view with bitsShort := true }) [] = .ok .fetchByte ∧
    decode (.engine { decoding.view with bitsShort := true, countZero := true }) [] = .ok .fetchLen ∧
    decode (.engine (engineAt .drain [] 0).view) [] = .ok .drain ∧
    decode (.engine (engineAt .commit [] 0).view) [] = .ok .commit ∧
    decode (.engine (engineAt .finish [] 0).view) [] = .ok .finish ∧
    decode (.engine State.reset.view) [] = .error .noStep := by decide

/-- The codes CLR 1 6 0 EOI of W2 are packed as `8C 51` (spec/95 §1). -/
theorem test_assemble_W2 : assemble [.codes 2 [4, 1, 6, 0, 5]] = [0x02, 0x02, 0x8C, 0x51, 0x00] := by decide
/-- H and I22 in the notation of R122 (spec/95 §1). -/
theorem test_assemble_H : assemble [.sig [0x47, 0x49, 0x46, 0x38, 0x39, 0x61], .lsd 2 2 true 0 0 0,
      .ct [⟨0, 0, 0⟩, ⟨0xFF, 0xFF, 0xFF⟩], .imageDescriptor 0 0 2 2 false false 0] =
    headerH ++ [0x2C, 0, 0, 0, 0, 2, 0, 2, 0, 0] := by decide

/-! ### The table's words, and the step after reset that runs them -/

theorem test_table_words : decodeTableWord 32 2 = some .decode ∧ decodeTableWord 32 0xFFFFFFFF = some (.illegalCmd 0xFFFFFFFF) ∧
    decodeTableWord 40 0x4749463837 = some .sigGif87 ∧ decodeTableWord 40 0x3938464947 = some .sigGif89 ∧
    decodeTableWord 40 0 = some .sigInvalid ∧ decodeTableWord 8 0x21 = some .extTag ∧
    decodeTableWord 8 0x2C = some .imageTag ∧ decodeTableWord 8 0x3B = some .trailer ∧
    decodeTableWord 8 0xF9 = some .gce ∧ decodeTableWord 8 0 = some .subEnd ∧ decodeTableWord 16 0 = none := by decide
theorem test_fetch_decode : goesTo (step (State.reset.withFetchWord 32 2)) (fun t => decide (t.st = .hdr)) = true := by decide
theorem test_fetch_sig :
    goesTo (step (State.reset.withFetchWord 40 0x4749463839)) (fun t => decide (t.st = .tag ∧ t.pos = 13)) = true := by
  decide
theorem test_fetch_tags :
    goesTo (step (State.reset.withFetchWord 8 0x2C)) (fun t => decide (t.st = .img ∧ t.pos = 1)) = true ∧
    goesTo (step (State.reset.withFetchWord 8 0x3B)) (fun t => decide (t.st = .finish)) = true ∧
    goesTo (step (State.reset.withFetchWord 8 0x21)) (fun t => decide (t.st = .ext ∧ t.extLabel = 0)) = true := by decide
theorem test_fetch_gce_sub :
    goesTo (step (State.reset.withFetchWord 8 0xF9)) (fun t => decide (t.st = .tag)) = true ∧
    goesTo (step (State.reset.withFetchWord 8 0)) (fun t => decide (t.st = .drain ∧ t.lzw.termSeen = true)) = true := by
  decide

/-! ### One step of each instruction -/

/-- CMD-2, CMD-3: NONE changes nothing, 3 gives STATUS 0x72. -/
theorem test_cmd : goesTo (exec .cmdNone State.reset) (fun t => decide (t = State.reset)) = true ∧
    goesTo (exec (.illegalCmd 3) State.reset) (fun t => decide (t.status.word = 0x72 ∧ t.errPos = 0)) = true := by decide
theorem test_identify : goesTo (exec .identify { State.reset with errPos := 9, frameCount := 1 })
    (fun t => decide (t.st = .ident ∧ t.status.word = 1 ∧ t.errPos = 0 ∧ t.frameCount = 1)) = true := by decide
theorem test_decode_command : goesTo (exec .decode { State.reset with errPos := 9, frameCount := 1, outUsed := 4, pos := 3 })
    (fun t => decide (t.st = .hdr ∧ t.status.word = 1 ∧ t.frameCount = 0 ∧ t.outUsed = 0 ∧ t.pos = 0)) = true := by decide
/-- ID-1 and ID-4. -/
theorem test_ident : goesTo (exec .ident (engineAt .ident [0x47, 0x49, 0x46, 0x38, 0x37] 0))
      (fun t => decide (t.status.word = 0x6 ∧ t.st = .idle)) = true ∧
    goesTo (exec .ident (engineAt .ident [0x47, 0x49, 0x46, 0x38, 0x38, 0x61] 0))
      (fun t => decide (t.status.word = 0x2)) = true := by decide
theorem test_sig_rows :
    goesTo (exec .sigGif87 (engineAt .ident [] 0)) (fun t => t.status.idMatch) = true ∧
    goesTo (exec .sigGif89 (engineAt .hdr headerH 0)) (fun t => decide (t.st = .tag ∧ t.pos = 19)) = true ∧
    goesTo (exec .sigInvalid (engineAt .hdr headerH 0)) (fun t => decide (t.status.word = 0x12)) = true ∧
    goesTo (exec .hdrShort (engineAt .hdr [] 0)) (fun t => decide (t.status.word = 0x12 ∧ t.errPos = 0)) = true := by decide
/-- H's table is black and white; HDR-3: a table cut short raises with POS at 13. -/
theorem test_hdr : goesTo (exec .hdr (engineAt .hdr headerH 0))
      (fun t => decide (t.pos = 19 ∧ t.gctSize = 2 ∧ t.gct = decoding.gct)) = true ∧
    goesTo (exec .hdr (engineAt .hdr (headerH.take 10 ++ [0x81] ++ headerH.drop 11) 0))
      (fun t => decide (t.status.word = 0x22 ∧ t.errPos = 13)) = true := by decide
theorem test_tag : goesTo (exec .tag (engineAt .tag [0x3A] 0)) (fun t => decide (t.st = .tag ∧ t.pos = 1)) = true ∧
    goesTo (exec .tag (engineAt .tag [0x21] 0)) (fun t => decide (t.status.word = 0x22 ∧ t.errPos = 1)) = true := by decide
theorem test_tag_rows :
    goesTo (exec .endOfBuffer (engineAt .tag [] 0)) (fun t => decide (t.st = .finish)) = true ∧
    goesTo (exec .extTag (engineAt .tag [0x21, 0xFE] 0)) (fun t => decide (t.extLabel = 0xFE ∧ t.st = .ext ∧ t.pos = 2)) =
      true ∧
    goesTo (exec .imageTag (engineAt .tag [0x2C] 0)) (fun t => decide (t.st = .img ∧ t.pos = 1)) = true ∧
    goesTo (exec .trailer (engineAt .tag [0x3B] 0)) (fun t => decide (t.st = .finish ∧ t.pos = 1)) = true ∧
    goesTo (exec (.noise 0) (engineAt .tag [0] 0)) (fun t => decide (t.st = .tag ∧ t.pos = 1)) = true := by decide
/-- GCE-1's bytes: index 5 is pending; GCE-3: a sub-block of 3 carries nothing. -/
theorem test_gce : goesTo (exec .gce (engineAt .ext [4, 1, 0, 0, 5, 0] 0))
      (fun t => decide (t.pend = ⟨true, 5⟩ ∧ t.st = .tag ∧ t.pos = 6)) = true ∧
    goesTo (exec .gce (engineAt .ext [3, 1, 0, 0, 0] 0)) (fun t => decide (t.pend = ⟨false, 0⟩ ∧ t.pos = 5)) = true := by
  decide
/-- TAG-4's sub-block claims 5 bytes of 2. -/
theorem test_otherExt : goesTo (exec (.otherExt 0xFE) (engineAt .ext [1, 0x41, 0] 0))
      (fun t => decide (t.st = .tag ∧ t.pos = 3)) = true ∧
    goesTo (exec (.otherExt 0xFE) (engineAt .ext [5, 0x41, 0x42] 0))
      (fun t => decide (t.status.word = 0x22 ∧ t.errPos = 1)) = true := by decide
theorem test_sub_rows :
    goesTo (exec .subEnd (engineAt .drain [0] 0)) (fun t => decide (t.st = .commit ∧ t.lzw.termSeen = true)) = true ∧
    goesTo (exec (.subData 2) (engineAt .ext [2, 7, 7] 0)) (fun t => decide (t.st = .ext ∧ t.pos = 3)) = true := by decide
theorem test_dataSize_rows :
    goesTo (exec (.dataSizeOk 2) (engineAt .img [2] 0))
      (fun t => decide (t.lzw.clear = 4 ∧ t.lzw.eoi = 5 ∧ t.lzw.codeSize = 3 ∧ t.suffixTab = decoding.suffixTab)) =
      true ∧
    goesTo (exec (.dataSizeBad 9) (engineAt .img [9] 0)) (fun t => decide (t.status.word = 0x32 ∧ t.errPos = 1)) = true := by
  decide
theorem test_img : goesTo (exec .img (engineAt .img image22 0))
    (fun t => decide (t.st = .lzw ∧ t.pos = 10 ∧ t.img.w = 2 ∧ t.img.h = 2 ∧ t.img.total = 4 ∧ t.lzw.avail = 6)) = true := by
  decide
theorem test_lzwComplete : goesTo (exec .lzwComplete decoding) (fun t => decide (t.st = .drain)) = true := by decide
theorem test_fetchLen : goesTo (exec .fetchLen (engineAt .lzw [2, 0x8C, 0x51] 0)) (fun t => decide (t.lzw.count = 2)) = true ∧
    goesTo (exec .fetchLen (engineAt .lzw [2, 0x8C] 0)) (fun t => decide (t.status.word = 0x22 ∧ t.errPos = 1)) = true := by
  decide
/-- Above 3 bits holding 6, the byte 0x51 gives 6 + 8 · 0x51. -/
theorem test_fetchByte : goesTo (exec .fetchByte decoding)
    (fun t => decide (t.lzw.datum = 0x28E ∧ t.lzw.bits = 11 ∧ t.lzw.count = 0 ∧ t.pos = 1)) = true := by decide
/-- W2's code 6 after code 1 is KWKWK: the indices 1 1 are pushed, and AVAIL 7 needs no more than 3 bits. -/
theorem test_decodeCode : goesTo (exec .decodeCode decoding)
    (fun t => decide (t.stackTopDown = [1, 1] ∧ t.lzw.avail = 7 ∧ t.lzw.codeSize = 3 ∧ t.lzw.bits = 0)) = true := by decide
theorem test_code_rows :
    goesTo (exec (.invalid 7) (codeNext 7)) (fun t => decide (t.status.err = .corruptCode)) = true ∧
    goesTo (exec (.eoi 5) (codeNext 5)) (fun t => decide (t.st = .drain ∧ t.status.err = .none)) = true ∧
    goesTo (exec (.firstBad 6) (codeNext 6)) (fun t => decide (t.status.err = .corruptCode)) = true ∧
    goesTo (exec (.full 1) (codeNext 1)) (fun t => decide (t.status.err = .dictionaryOverflow)) = true := by decide
/-- A clear read at width 4 leaves width 3 and AVAIL 6 (S4). -/
theorem test_clear :
    goesTo (exec (.clear 4) { decoding with lzw := { lzw6 with codeSize := 4, codeMask := 15, avail := 9, bits := 4 } })
      (fun t => decide (t.lzw.codeSize = 3 ∧ t.lzw.codeMask = 7 ∧ t.lzw.avail = 6 ∧ t.lzw.oldValid = false)) = true := by
  decide
theorem test_first : goesTo (exec (.first 3) { decoding with lzw := { lzw6 with oldValid := false } })
    (fun t => decide (t.stackTopDown = [3] ∧ t.lzw.oldCode = 3 ∧ t.lzw.first = 3 ∧ t.lzw.avail = 6)) = true := by decide
/-- With AVAIL 7, a DICT code fills entry 7, and AVAIL 8 = 2^3 widens the codes to 4 bits (S11). -/
theorem test_dict : goesTo (exec (.dict 6) { decoding with
      prefixTab := [(6, 1)], suffixTab := [(1, 1), (2, 2), (3, 3), (6, 2)], lzw := { lzw6 with avail := 7, oldCode := 3 } })
    (fun t => decide (t.stackTopDown = [1, 2] ∧ t.lzw.avail = 8 ∧ t.lzw.codeSize = 4 ∧ t.prefixOf 7 = 3 ∧ t.suffixOf 7 = 1)) =
      true := by decide
theorem test_kwkwk : goesTo (exec (.kwkwk 6) decoding)
    (fun t => decide (t.prefixOf 6 = 1 ∧ t.suffixOf 6 = 1 ∧ t.lzw.oldCode = 6)) = true := by decide
/-- The second pixel of the frame at 16 is white, opaque, at bytes 20 to 23; the row is then done. -/
theorem test_emit : goesTo (exec .emit emitting)
    (fun t => decide (t.outbuf = [(0, 0xFF), (16, 0xFF), (20, 0xFF), (21, 0xFF), (22, 0xFF), (23, 0xFF)] ∧
      t.place = { pix := 2, x := 0, row := 1, pass := 0 } ∧ t.lzw.sp = 0)) = true := by decide
/-- An index outside the table is black with W_IDX (R291), and transparent if pending and enabled (R292). -/
theorem test_emit_outside : goesTo (exec .emit { emitting with
      stack := [(0, 3)], pend := ⟨true, 3⟩, ctrl := { Ctrl.reset with transpEn := true } })
    (fun t => decide (t.status.wIdx = true ∧ t.outbuf = decoding.outbuf ++ [(20, 0), (21, 0), (22, 0), (23, 0)])) = true := by decide
theorem test_drain : goesTo (exec .drain { engineAt .drain [7, 1, 7, 0, 9] 0 with lzw := { lzw6 with count := 1 } })
    (fun t => decide (t.st = .commit ∧ t.pos = 4 ∧ t.lzw.count = 0)) = true := by decide
/-- STAT of an interlaced, short frame with index 5 pending and anomaly 2 is 0x5B2 (R32). -/
theorem test_commit : goesTo (exec .commit { decoding with
      st := .commit, pend := ⟨true, 5⟩, ctrl := { Ctrl.reset with policy := .keep },
      img := { decoding.img with il := true, anom := .truncatedStream } })
    (fun t => decide (t.frameCount = 2 ∧ t.outUsed = 32 ∧ t.pend = ⟨false, 0⟩ ∧
      t.frameAt 1 = { base := 16, w := 2, h := 2, stat := 0x5B2 })) = true := by decide
/-- `decoding` at its commit in an OUTBUF of 2^32 bytes, all but the last 16 of them a frame's (R9). -/
def nearlyFull : State :=
  { decoding with
    st := .commit, cfg := { Config.vectors with outCap := 2 ^ 32 }, outUsed := 0xFFFFFFF0,
    ft := [(0, { base := 0, w := 65532, h := 16385, stat := 0 })] }
/-- The last byte of an OUTBUF of 2^32 bytes: the 32-bit OUT_USED is 0 (R10, R11), and no byte is left (R27, R82). -/
theorem test_commit_full : goesTo (exec .commit nearlyFull) (fun t => decide (t.outUsed = 0 ∧ t.usedBytes = 2 ^ 32)) =
    true := by decide
/-- At an image with every byte of an OUTBUF of 2^32 a frame's. -/
def fullAt (bs : List Byte) : State :=
  { engineAt .img bs 0 with
    cfg := nearlyFull.cfg, frameCount := 1, ft := [(0, { base := 0, w := 32768, h := 32768, stat := 0 })] }
/-- With that byte used a further frame is CapacityExceeded (R215), STATUS 0x62; one without bytes is not. -/
theorem test_img_full : goesTo (exec .img (fullAt image22)) (fun t => decide (t.status.word = 0x62)) = true ∧
    goesTo (exec .img (fullAt [0, 0, 0, 0, 0, 0, 2, 0, 0, 2])) (fun t => decide (t.st = .lzw)) = true := by decide
/-- Under DISCARD the frame of an anomaly is dropped (R303). -/
theorem test_commit_discard : goesTo (exec .commit { decoding with
      st := .commit, ctrl := { Ctrl.reset with policy := .discard }, img := { decoding.img with anom := .corruptCode } })
    (fun t => decide (t.frameCount = 1 ∧ t.outUsed = 16 ∧ t.ft = decoding.ft)) = true := by decide
/-- HDR-6: no frame gives STATUS 0x52. -/
theorem test_finish : goesTo (exec .finish (engineAt .finish headerH 19))
      (fun t => decide (t.status.word = 0x52 ∧ t.errPos = 19)) = true ∧
    goesTo (exec .finish { decoding with st := .finish }) (fun t => decide (t.status.word = 0x2)) = true := by decide
/-- CMD-8: what CTRL stores of 0xFFFFFFFF and of 6. -/
theorem test_ctrl : goesTo (step (hostDoes (.writeReg 0 .word 0xFFFFFFFF))) (fun t => decide (t.ctrl.word = 0xD)) = true ∧
    goesTo (step (hostDoes (.writeReg 0 .word 6))) (fun t => decide (t.ctrl.word = 4)) = true := by decide
/-- RST-1, R442: the reset input forgets what was in INBUF and OUTBUF, and what they then hold is drawn anew. -/
theorem test_reset : goesTo (step { decoding with moves := [.resetInput] })
    (fun t => decide (t.st = .idle ∧ t.inLen = 0 ∧ t.inbuf = [] ∧ t.outbuf = [] ∧ t.resets = 1)) = true := by decide
/-- CMD-11: the dimensions of frame 0 read 0x00020002. -/
theorem test_fdim : goesTo (step { decoding with st := .idle, status := .reset, moves := [.readReg 0x24 .word] })
    (fun t => decide (t.readData = 0x00020002)) = true := by decide

/-! ### Witnesses: states and operands that meet each obligation's hypotheses -/

theorem witness_DecodeAfterEncode : Instr.fits .cmd (.illegalCmd 3) = true ∧ Instr.fits .ident .sigInvalid = true ∧
    Instr.fits .hdr .hdrShort = true ∧ Instr.fits .tag (.noise 0xFF) = true ∧ Instr.fits .ext (.otherExt 0) = true ∧
    Instr.fits .sub (.subData 255) = true ∧ Instr.fits .lzws (.dataSizeOk 8) = true ∧
    Instr.fits .lzws (.dataSizeBad 1) = true ∧ Instr.fits (.code decoding.codeRegs) (.kwkwk 6) = true ∧
    Instr.fits (.engine emitting.view) .emit = true := by decide
theorem witness_DecodedInstructionFits :
    (∀ r, Context.code { decoding.codeRegs with avail := 4096, codeSize := 12, codeMask := 0xFFF } = .code r →
      r.avail.toNat ≤ 4096) ∧
    decode (.code { decoding.codeRegs with avail := 4096, codeSize := 12, codeMask := 0xFFF }) [0xFF, 0x0F] =
      .ok (.full 0xFFF) := ⟨fun r h => by cases h; decide, by decide⟩
theorem witness_EncodeAfterDecode : decode .tag (0xFF :: []) = .ok (.noise 0xFF) ∧
    decode .cmd (0xFF :: 0xFF :: 0xFF :: 0xFF :: []) = .ok (.illegalCmd 0xFFFFFFFF) := by decide
theorem witness_CodeClassesPartition : (0xFFF : BitVec 12) &&& 0xFFF = 0xFFF ∧ (4096 : BitVec 13).toNat ≤ 4096 := by decide
theorem witness_StepRunsSelected :
    (decoding.moves = [] ∧ engineOp decoding = some .decodeCode) ∧
    ({ decoding with moves := [.engineTurn] } : State).moves = .engineTurn :: [] ∧
    (hostDoes (.writeReg 0x04 .word 2)).moves = .writeReg 0x04 .word 2 :: [] ∧
    State.reset.st = .idle ∧ State.reset.moves = [] := by decide
theorem witness_StepRunsDecodedItem : (engineAt .ident [] 0).moves = [] ∧
    itemAt (engineAt .ident [] 0) = some .sigInvalid ∧ itemAt (engineAt .hdr headerH 0) = some .sigGif89 ∧
    itemAt (engineAt .tag [] 0) = some .endOfBuffer ∧ itemAt (engineAt .tag [0x2C] 0) = some .imageTag ∧
    itemAt (engineAt .ext [] 0) = some (.otherExt 0) ∧ itemAt decoding = some (.kwkwk 6) ∧
    itemAt { decoding with inLen := 3, inbuf := [(0, 0xFF)], lzw := { lzw6 with bits := 2, count := 0 } } =
      some (.subData 0xFF) := by decide
theorem witness_EngineStepSelection :
    State.reset.st = .idle ∧ (engineAt .ident [] 0).st = .ident ∧ (engineAt .hdr [] 0).st = .hdr ∧
    (engineAt .tag [] 0).st = .tag ∧ (engineAt .ext [] 0).st = .ext ∧ (engineAt .img [] 0).st = .img ∧
    (engineAt .drain [] 0).st = .drain ∧ (engineAt .commit [] 0).st = .commit ∧ (engineAt .finish [] 0).st = .finish ∧
    (engineAt .lzw [] 0).st = .lzw ∧ (engineAt .lzw [] 0).place.pix = (engineAt .lzw [] 0).img.total := by decide
theorem witness_EngineStepSelection_lzw :
    (emitting.st = .lzw ∧ emitting.place.pix ≠ emitting.img.total ∧ 0 < emitting.lzw.sp.toNat) ∧
    (decoding.st = .lzw ∧ decoding.place.pix ≠ decoding.img.total ∧ decoding.lzw.sp = 0 ∧
      decoding.lzw.codeSize.toNat ≤ decoding.lzw.bits.toNat) ∧
    (fetching.st = .lzw ∧ fetching.place.pix ≠ fetching.img.total ∧ fetching.lzw.sp = 0 ∧
      fetching.lzw.bits.toNat < fetching.lzw.codeSize.toNat ∧ fetching.lzw.count ≠ 0) ∧
    (subBlockNext.st = .lzw ∧ subBlockNext.place.pix ≠ subBlockNext.img.total ∧ subBlockNext.lzw.sp = 0 ∧
      subBlockNext.lzw.bits.toNat < subBlockNext.lzw.codeSize.toNat ∧ subBlockNext.lzw.count = 0) := by decide
theorem witness_ResetValues : ({ decoding with moves := [.resetInput] } : State).moves = .resetInput :: [] := by decide
theorem witness_CtrlWriteReadBack :
    (busyHostDoes (.writeReg 0x00 .word 0xF)).moves = .writeReg 0x00 .word 0xF :: [] ∧
    (busyHostDoes (.writeReg 0x00 .word 0xF)).status.busy = true ∧
    (hostDoes (.writeReg 0x00 .word 6)).moves = .writeReg 0x00 .word 6 :: [] ∧
    (hostDoes (.writeReg 0x00 .word 6)).status.busy = false := by decide
theorem witness_StatusWriteClearsDone : (hostDoes (.writeReg 0x08 .word 2)).moves = .writeReg 0x08 .word 2 :: [] := by decide
theorem witness_InLenAndFselWrites : State.reset.cfg.ok ∧
    (hostDoes (.writeReg 0x0C .word 70000)).moves = .writeReg 0x0C .word 70000 :: [] ∧
    (hostDoes (.writeReg 0x0C .word 70000)).status.busy = false ∧
    (busyHostDoes (.writeReg 0x1C .word 1)).moves = .writeReg 0x1C .word 1 :: [] := by decide
theorem witness_RegisterReads : (hostDoes (.readReg 0x28 .word)).moves = .readReg 0x28 .word :: [] ∧
    (hostDoes (.readReg 0x28 .word)).status.busy = false ∧
    (busyHostDoes (.readReg 0x04 .word)).moves = .readReg 0x04 .word :: [] := by decide
theorem witness_BusyStatusRead : (busyHostDoes (.readReg 0x08 .word)).status.busy = true ∧
    (busyHostDoes (.readReg 0x08 .word)).moves = .readReg 0x08 .word :: [] := by decide
theorem witness_BadRegisterAccess :
    (0x2C ≤ 0x2C ∨ 0x2C % 4 ≠ 0 ∨ AccessSize.word ≠ .word) ∧ (0x2C ≤ 2 ∨ 2 % 4 ≠ 0 ∨ AccessSize.word ≠ .word) ∧
    (0x2C ≤ 0 ∨ 0 % 4 ≠ 0 ∨ AccessSize.half ≠ .word) ∧
    (hostDoes (.writeReg 0x2C .word 1)).moves = .writeReg 0x2C .word 1 :: [] ∧
    (hostDoes (.readReg 0 .half)).moves = .readReg 0 .half :: [] := by decide

theorem cells_decoding : CanonicalCells decoding := by constructor <;> decide

theorem witness_HostMemoryAccess : (hostDoes (.writeIn 65535 7)).status.busy = false ∧
    (hostDoes (.writeIn 65535 7)).moves = .writeIn 65535 7 :: [] ∧
    (hostDoes (.readIn 65536)).moves = .readIn 65536 :: [] ∧
    (hostDoes (.writeOut 4194304 7)).moves = .writeOut 4194304 7 :: [] ∧
    (hostDoes (.readOut 0)).moves = .readOut 0 :: [] := by decide
theorem witness_BusyHostCannotInterfere : (busyHostDoes (.writeIn 0 7)).status.busy = true ∧
    (busyHostDoes (.writeIn 0 7)).moves = .writeIn 0 7 :: [] ∧ HostMove.writeIn 0 7 ≠ .resetInput ∧
    HostMove.writeIn 0 7 ≠ .engineTurn := by decide
theorem witness_IgnoredCommands : (engineAt .hdr [] 0).status.busy = true := by decide
theorem witness_CommandsStart : State.reset.status.busy = false := by decide
theorem witness_IllegalCommandCompletes : State.reset.status.busy = false := by decide
theorem witness_IdentifyChecksSignature : goodSignature (engineAt .ident [0x47, 0x49, 0x46, 0x38, 0x37] 0) ∧
    ¬ goodSignature (engineAt .ident [0x47, 0x49, 0x46, 0x38] 0) ∧ (engineAt .ident [] 0).st = .ident := by
  unfold goodSignature; decide
theorem witness_AnomalyFollowsPolicy : decoding.ctrl.policy = .abort ∧
    ({ decoding with ctrl := { Ctrl.reset with policy := .keep } } : State).ctrl.policy ≠ .abort ∧
    ErrKind.truncatedStream = .truncatedStream ∧ ErrKind.corruptCode ≠ .truncatedStream := by decide
theorem witness_AbortRecordsNoAnomaly : decoding.ctrl.policy = .abort ∧ ∃ t, exec (.invalid 7) (codeNext 7) = .next t :=
  ⟨by decide, _, rfl⟩
theorem witness_ErrorPositionIsPos : (engineAt .tag [0x21] 0).st ≠ .idle ∧ (∀ op, Instr.tag ≠ .illegalCmd op) ∧
    ∃ t, exec .tag (engineAt .tag [0x21] 0) = .next t ∧ t.st = .idle ∧ t.status.err ≠ .none :=
  ⟨by decide, fun _ h => (by cases h), _, rfl, by decide, by decide⟩
theorem witness_HeaderReadsGlobalTable : goodSignature (engineAt .hdr headerH 0) ∧
    13 ≤ (engineAt .hdr headerH 0).inLen.toNat ∧ (engineAt .hdr headerH 0).inByte 10 &&& 0x80 ≠ 0 ∧
    13 + 3 * 2 ^ (((engineAt .hdr headerH 0).inByte 10 &&& 0x07).toNat + 1) ≤ (engineAt .hdr headerH 0).inLen.toNat ∧
    (engineAt .hdr (headerH.take 18) 0).inLen.toNat <
      13 + 3 * 2 ^ (((engineAt .hdr (headerH.take 18) 0).inByte 10 &&& 0x07).toNat + 1) ∧
    (engineAt .hdr (headerH.take 10 ++ [0x7F, 0, 0]) 0).inByte 10 &&& 0x80 = 0 := by
  unfold goodSignature; decide
theorem witness_BadHeaderIsFatal : ¬ goodSignature (engineAt .hdr [] 0) ∧
    (engineAt .hdr (headerH.take 12) 0).inLen.toNat < 13 ∧ goodSignature (engineAt .hdr headerH 0) ∧
    13 ≤ (engineAt .hdr headerH 0).inLen.toNat ∧ (engineAt .hdr headerH 0).st = .hdr := by
  unfold goodSignature; decide
theorem inv_header : Inv (engineAt .hdr [] 0) where
  cells := by constructor <;> decide
  host := by constructor <;> decide
  cursor := by constructor <;> decide
  frame := (nomatch ·)
  place := (nomatch ·)
  dictionary := (nomatch ·)
theorem witness_BadHeaderIsFatal_inRun : Inv (engineAt .hdr [] 0) ∧ (engineAt .hdr [] 0).st = .hdr := ⟨inv_header, rfl⟩
theorem witness_TagRows : (engineAt .tag [0x2C] 0).pos.toNat < (engineAt .tag [0x2C] 0).inLen.toNat ∧
    (engineAt .tag [0x21, 0xF9] 0).pos.toNat + 1 < (engineAt .tag [0x21, 0xF9] 0).inLen.toNat ∧
    (engineAt .tag [0x21] 0).pos.toNat + 1 = (engineAt .tag [0x21] 0).inLen.toNat := by decide
theorem witness_TagStepDispatches : (engineAt .tag [] 0).inLen.toNat ≤ (engineAt .tag [] 0).pos.toNat ∧
    ∀ b ∈ [0x2C, 0x3B, 0x21, 0x20], (engineAt .tag [b] 0).pos.toNat < (engineAt .tag [b] 0).inLen.toNat ∧
      (engineAt .tag [b] 0).inByte (engineAt .tag [b] 0).pos.toNat = b ∧ (b = 0x20 → b ∉ [0x21, 0x2C, 0x3B]) := by decide
theorem witness_SubBlocksEndOrAreCut : 3 ≤ (engineAt .ext [1, 0x41, 0] 0).inLen.toNat := by decide

/-- One sub-block and the terminator; and a length that claims 5 bytes of 2. -/
theorem witness_OtherExtensionSkips :
    (engineAt .ext [1, 0x41, 0] 0).holdsSubBlocks (engineAt .ext [1, 0x41, 0] 0).pos.toNat [[0x41]] ∧
    (engineAt .ext [5, 0x41, 0x42] 0).cutsSubBlocks (engineAt .ext [5, 0x41, 0x42] 0).pos.toNat [] 1 ∧
    (engineAt .ext [1, 0x41] 0).cutsSubBlocks (engineAt .ext [1, 0x41] 0).pos.toNat [[0x41]] 2 := by
  unfold State.holdsSubBlocks State.cutsSubBlocks; decide
theorem witness_GraphicControlSetsPending :
    (engineAt .ext [4, 1, 0, 0, 5, 0] 0).holdsSubBlocks (engineAt .ext [4, 1, 0, 0, 5, 0] 0).pos.toNat [[1, 0, 0, 5]] ∧
    (engineAt .ext [0] 0).holdsSubBlocks (engineAt .ext [0] 0).pos.toNat [] ∧
    (engineAt .ext [4, 1, 0, 0, 5] 0).cutsSubBlocks (engineAt .ext [4, 1, 0, 0, 5] 0).pos.toNat [[1, 0, 0, 5]] 5 := by
  unfold State.holdsSubBlocks State.cutsSubBlocks; decide
theorem witness_PendingChangesOnlyThere : (∃ t, exec .tag (engineAt .tag [] 0) = .next t) ∧ Instr.tag ≠ .gce ∧
    Instr.tag ≠ .decode ∧ Instr.tag ≠ .commit := ⟨⟨_, rfl⟩, by decide⟩

/-- The 2×2 image of W2, with a record and its 16 bytes left; and with a local table of 2 colors. -/
theorem witness_ImageSetsUp :
    ∀ bs ∈ [image22, [0, 0, 0, 0, 2, 0, 2, 0, 0x80, 1, 1, 1, 2, 2, 2, 8]],
      let s := engineAt .img bs 0
      s.pos.toNat + 9 ≤ s.inLen.toNat ∧ dataSizeAddr s < s.inLen.toNat ∧ imageFits s ∧
      2 ≤ (s.inByte (dataSizeAddr s)).toNat ∧ (s.inByte (dataSizeAddr s)).toNat ≤ 8 := by
  unfold imageFits; decide
/-- The descriptor cut, the local table cut, no record left, 15 bytes left for 16, and none left of 2^32. -/
theorem witness_ImageFatalErrors :
    (let s := engineAt .img (image22.take 8) 0; s.inLen.toNat < s.pos.toNat + 9) ∧
    (let s := engineAt .img [0, 0, 0, 0, 2, 0, 2, 0, 0x80, 1, 1, 1, 2, 2] 0
     s.pos.toNat + 9 ≤ s.inLen.toNat ∧ s.inLen.toNat < dataSizeAddr s) ∧
    ∀ s ∈ [{ engineAt .img (image22.take 9) 0 with frameCount := 16 },
        { engineAt .img (image22.take 9) 0 with outUsed := 4194289 }, fullAt (image22.take 9)],
      s.pos.toNat + 9 ≤ s.inLen.toNat ∧ dataSizeAddr s ≤ s.inLen.toNat ∧ ¬ imageFits s := by
  unfold imageFits; decide
theorem witness_DataSizeAnomalies : ∀ d ∈ [[], [1], [9]],
    let s := engineAt .img (image22.take 9 ++ d) 0
    s.pos.toNat + 9 ≤ s.inLen.toNat ∧ imageFits s ∧
    (dataSizeAddr s = s.inLen.toNat ∨ dataSizeAddr s < s.inLen.toNat ∧
      ((s.inByte (dataSizeAddr s)).toNat < 2 ∨ 8 < (s.inByte (dataSizeAddr s)).toNat)) := by
  unfold imageFits; decide
theorem witness_DataSizeRows : (engineAt .img [8] 0).pos.toNat < (engineAt .img [8] 0).inLen.toNat ∧
    2 ≤ (8 : Byte).toNat ∧ (8 : Byte).toNat ≤ 8 := by decide
theorem witness_FetchLenReadsSubBlock :
    (engineAt .lzw [] 0).inLen.toNat ≤ (engineAt .lzw [] 0).pos.toNat ∧
    (let s := engineAt .lzw [0] 0; s.pos.toNat < s.inLen.toNat ∧ s.inByte s.pos.toNat = 0) ∧
    (let s := engineAt .lzw [1, 7] 0
     s.pos.toNat < s.inLen.toNat ∧ s.inByte s.pos.toNat ≠ 0 ∧
     s.pos.toNat + 1 + (s.inByte s.pos.toNat).toNat ≤ s.inLen.toNat) ∧
    (let s := engineAt .lzw [2, 7] 0
     s.pos.toNat < s.inLen.toNat ∧ s.inByte s.pos.toNat ≠ 0 ∧
     s.inLen.toNat < s.pos.toNat + 1 + (s.inByte s.pos.toNat).toNat) := by decide
theorem witness_SubBlockRows : ∀ st ∈ [EngineState.lzw, .ext, .drain],
    (engineAt st [1, 7] 0).st = st ∧ (engineAt st [1, 7] 0).pos.toNat < (engineAt st [1, 7] 0).inLen.toNat ∧
    (1 : Byte) ≠ 0 ∧ (engineAt st [1, 7] 0).pos.toNat + 1 + (1 : Byte).toNat ≤ (engineAt st [1, 7] 0).inLen.toNat ∧
    (2 : Byte) ≠ 0 ∧ (engineAt st [1, 7] 0).inLen.toNat < (engineAt st [1, 7] 0).pos.toNat + 1 + (2 : Byte).toNat := by
  decide
theorem witness_FetchByteFillsAccumulator :
    (engineAt .lzw [] 0).inLen.toNat ≤ (engineAt .lzw [] 0).pos.toNat ∧
    (∀ b ∈ [(2 : BitVec 5), 11], let s := { decoding with lzw := { lzw6 with datum := 3, bits := b } }
      s.pos.toNat < s.inLen.toNat ∧ s.lzw.bits.toNat ≤ 11 ∧ s.lzw.datum.toNat < 2 ^ s.lzw.bits.toNat ∧
      s.lzw.count ≠ 0) := by decide

theorem dictionary_decoding : DictionarySound decoding := by constructor <;> decide

theorem witness_DecodeStepRunsClass : decoding.lzw.codeMask.toNat = 2 ^ decoding.lzw.codeSize.toNat - 1 ∧
    decoding.lzw.codeSize.toNat ≤ decoding.lzw.bits.toNat ∧ decoding.lzw.avail.toNat ≤ 4096 ∧
    Instr.fitsCode decoding.codeRegs (.kwkwk 6) = true ∧ codeOf (.kwkwk 6) = some decoding.topCode ∧
    decoding.lzw.sp = 0 := by decide
theorem witness_CodesThatPushNothing : decoding.lzw.dataSize.toNat ≤ 8 ∧ decoding.lzw.clear.toNat ≤ 256 := by decide
theorem witness_FirstCodeIsPushed : decoding.lzw.sp = 0 := by decide
theorem witness_DictCodePushesString : DictionarySound decoding ∧ decoding.lzw.sp = 0 ∧
    Instr.fitsCode decoding.codeRegs (.dict 3) = true := ⟨dictionary_decoding, by decide⟩
theorem witness_KwkwkCodePushesString : DictionarySound decoding ∧ decoding.lzw.sp = 0 ∧
    Instr.fitsCode decoding.codeRegs (.kwkwk 6) = true := ⟨dictionary_decoding, by decide⟩

/-- `emitting` at column x of a sequential or interlaced image. -/
def emittingAt (il : Bool) (x : BitVec 16) : State :=
  { emitting with img := { decoding.img with il := il }, place := { decoding.place with x := x } }

/-- The last column of a row, sequential and interlaced, and one before it. -/
theorem witness_EmitWritesPixel : ∀ s ∈ [emittingAt false 1, emittingAt true 1, emittingAt false 0],
    s.pixelAddr + 4 ≤ s.cfg.outCap ∧ 0 < s.lzw.sp.toNat ∧ s.place.pix.toNat < s.img.total.toNat ∧
    s.place.x.toNat < s.img.w.toNat := by decide
theorem witness_EmitWritesPixel_rows :
    (∀ il, (emittingAt il 1).place.x.toNat + 1 = (emittingAt il 1).img.w.toNat ∧ (emittingAt il 1).img.il = il) ∧
    (emittingAt false 0).place.x.toNat + 1 < (emittingAt false 0).img.w.toNat := by decide
theorem witness_EmitOutsideOutbufStops :
    let s := { emitting with cfg := { decoding.cfg with outCap := 23 } }
    s.cfg.outCap < s.img.base.toNat + 4 * (s.place.row.toNat * s.img.w.toNat + s.place.x.toNat) + 4 := by decide
theorem witness_InterlaceSchedule : 0 < 65535 ∧ 65535 < 65536 ∧ 65534 < 65535 := by decide

/-- Property S3 of the source: an interlaced image of height 8 goes to rows 0 4 2 6 1 3 5 7. -/
theorem test_interlace_eight : displayRows 8 = [0, 4, 2, 6, 1, 3, 5, 7] := by decide

theorem witness_DrainSkipsStream : ({ decoding with lzw := { lzw6 with termSeen := true } } : State).lzw.termSeen = true ∧
    (decoding.lzw.termSeen = false ∧ decoding.holdsSubBlocks (decoding.pos.toNat + decoding.lzw.count.toNat) []) ∧
    (let s := { decoding with lzw := { lzw6 with count := 2 } }
     s.lzw.termSeen = false ∧ s.cutsSubBlocks (s.pos.toNat + s.lzw.count.toNat) [] 2) :=
  by unfold State.holdsSubBlocks State.cutsSubBlocks; decide
theorem witness_CommitRecordsFrame :
    (let s := { decoding with ctrl := { Ctrl.reset with policy := .discard }, img := { decoding.img with anom := .corruptCode } }
     s.img.anom ≠ .none ∧ s.ctrl.policy = .discard) ∧
    (let s := { decoding with ctrl := { Ctrl.reset with policy := .keep }, img := { decoding.img with anom := .corruptCode } }
     s.img.anom = .none ∨ s.ctrl.policy ≠ .discard) := by decide
theorem witness_FinishReportsResult : State.reset.frameCount = 0 ∧ decoding.frameCount ≠ 0 := by decide
theorem witness_EngineLeavesInputAlone : ∃ t, exec .emit emitting = .next t := ⟨_, rfl⟩
theorem witness_NoReadBeyondInLen : ∀ a < decoding.inLen.toNat,
    { decoding with inbuf := [(0, 0x51), (1, 0x00), (2, 0xEE)] }.inByte a = decoding.inByte a := by decide

/-- A state of a run in the middle of a code stream, with a frame already recorded. -/
theorem inv_decoding : Inv decoding where
  cells := cells_decoding
  host := by constructor <;> decide
  cursor := by constructor <;> decide
  frame := fun _ => by constructor <;> decide
  place := fun _ => by constructor <;> decide
  dictionary := fun _ => dictionary_decoding

theorem witness_CommittedFramesStay : Inv decoding ∧ decoding.moves = [] ∧ ∃ t, step decoding = .next t :=
  ⟨inv_decoding, by decide, _, rfl⟩
theorem witness_StepKeepsInvariant : Inv decoding := inv_decoding
theorem witness_FramesStayPacked : Inv decoding ∧ FramesPacked decoding ∧
    ∃ t, step decoding = .next t ∧ t.bytesBefore t.frameCount.toNat ≠ 2 ^ 32 ∧ 0 < t.frameCount.toNat ∧
      (t.frameAt 0).bytes ≠ 0 :=
  ⟨inv_decoding, by constructor <;> decide, _, rfl, by decide, by decide, by decide⟩
theorem witness_CommandsTerminate : Inv decoding ∧ decoding.moves = [] := ⟨inv_decoding, by decide⟩

end Sys2Proof.Tests
end

section
/-!
PROOFS. The host's port (spec/10_state.md, family 10_state): the step that makes a move of the host, the registers an
access reaches, what a write to STATUS stores, and the values after reset.
-/
namespace Sys2Proof.Proofs
open Sys2Proof Sys2Proof.Machine

/-! ### The step makes the host's next move -/

/-- A move that is neither a command nor the engine's turn is made as `hostMove` says. -/
theorem step_of_hostMove {s : State} {m : HostMove} {ms : List HostMove} (hm : s.moves = m :: ms)
    (ht : m ≠ .engineTurn) (hc : commandWrite m = none) : step s = .next (hostMove m { s with moves := ms }) := by
  unfold step
  rw [hm]
  simp only [if_neg ht, hc]

theorem step_of_resetInput {s : State} {ms : List HostMove} (hm : s.moves = .resetInput :: ms) :
    step s = .next (resetInput { s with moves := ms }) :=
  step_of_hostMove hm nofun rfl

theorem step_of_readReg {s : State} {offset : Nat} {size : AccessSize} {ms : List HostMove}
    (hm : s.moves = .readReg offset size :: ms) : step s = .next (readReg offset size { s with moves := ms }) :=
  step_of_hostMove hm nofun rfl

/-- A register write is a command only at CMD. -/
theorem commandWrite_writeReg_of_ne {offset : Nat} {size : AccessSize} (v : Word)
    (h : hostReg offset size ≠ some .cmd) : commandWrite (.writeReg offset size v) = none :=
  if_neg h

theorem step_of_writeReg {s : State} {offset : Nat} {size : AccessSize} {v : Word} {ms : List HostMove}
    (hm : s.moves = .writeReg offset size v :: ms) (h : hostReg offset size ≠ some .cmd) :
    step s = .next (writeReg offset size v { s with moves := ms }) :=
  step_of_hostMove hm nofun (commandWrite_writeReg_of_ne v h)

/-! ### Reset -/

@[simp] theorem ctrl_reset_word : Ctrl.reset.word = 0x4 := by decide
@[simp] theorem status_reset_word : Status.reset.word = 0 := by decide

/-- With no frame recorded, FSEL selects none, whatever it holds (R30 to R32). -/
theorem selectedFrame_of_frameCount_eq_zero {s : State} (h : s.frameCount = 0) :
    s.selectedFrame = FrameRecord.blank :=
  if_neg (by simp [h])

/-- Settles O9: the reset input and the machine's own reset both give `State.resetWith`, whose fields are R48's values. -/
theorem resetValues : Obligations.ResetValues := by
  unfold Obligations.ResetValues
  refine ⟨fun s ms hm => ⟨_, step_of_resetInput hm, ?_⟩, ?_⟩
  · exact ⟨rfl, rfl, ctrl_reset_word, status_reset_word, rfl, rfl, rfl, rfl, rfl, rfl, rfl, rfl,
      selectedFrame_of_frameCount_eq_zero rfl⟩
  · exact ⟨ctrl_reset_word, status_reset_word, rfl, rfl, rfl, rfl, rfl, rfl, rfl, rfl⟩

/-! ### STATUS -/

/-- A write to STATUS stores DONE alone: cleared by a 1 in bit 1 while idle, else as it was (R24). -/
theorem writeReg_status (v : Word) (s : State) :
    writeReg 0x08 .word v s = { s with
      status := { s.status with
        done := if v.getLsbD 1 = true ∧ s.status.busy = false then false else s.status.done } } := by
  simp only [writeReg, hostReg]
  split_ifs <;> rfl

/-- Settles O11: the step is `writeReg_status`, and IRQ is a function of DONE and IRQ_EN, of which CTRL's is kept. -/
theorem statusWriteClearsDone : Obligations.StatusWriteClearsDone := by
  unfold Obligations.StatusWriteClearsDone
  intro s ms v hm
  refine ⟨rfl, _, step_of_writeReg hm nofun, writeReg_status v _, ?_⟩
  rw [writeReg_status]
  rfl

/-! ### Accesses that reach no register (R33) -/

/-- An access that reaches a register is a whole word at one of the eleven listed offsets. -/
theorem hostReg_eq_some {offset : Nat} {size : AccessSize} {r : HostReg} (h : hostReg offset size = some r) :
    offset < 0x2C ∧ offset % 4 = 0 ∧ size = .word := by
  unfold hostReg at h
  split at h
  case h_12 => cases h
  all_goals decide

theorem hostReg_eq_none {offset : Nat} {size : AccessSize} (h : 0x2C ≤ offset ∨ offset % 4 ≠ 0 ∨ size ≠ .word) :
    hostReg offset size = none := by
  rw [Option.eq_none_iff_forall_ne_some]
  intro r hr
  obtain ⟨hlt, hmod, hsize⟩ := hostReg_eq_some hr
  rcases h with h | h | h
  · omega
  · exact h hmod
  · exact h hsize

theorem writeReg_of_hostReg_eq_none {offset : Nat} {size : AccessSize} (v : Word) (s : State)
    (h : hostReg offset size = none) : writeReg offset size v s = s := by
  simp only [writeReg, h]

theorem readReg_of_hostReg_eq_none {offset : Nat} {size : AccessSize} (s : State)
    (h : hostReg offset size = none) : readReg offset size s = s.returned 0 := by
  simp only [readReg, h]

/-- Settles O15: such an access reaches no register, so a write stores nothing and a read returns 0. -/
theorem badRegisterAccess : Obligations.BadRegisterAccess := by
  unfold Obligations.BadRegisterAccess
  intro s ms offset size v hbad
  have hnone : hostReg offset size = none := hostReg_eq_none hbad
  constructor
  · intro hm
    rw [step_of_writeReg hm (by simp [hnone]), writeReg_of_hostReg_eq_none v _ hnone]
  · intro hm
    rw [step_of_readReg hm, readReg_of_hostReg_eq_none _ hnone]
    rfl

end Sys2Proof.Proofs
end

section
/-!
PROOFS. The memories as the host sees them (spec/20_memory.md R77 to R80, family 20_memory): what a read returns, and
what a write stores.
-/
namespace Sys2Proof.Proofs
open Sys2Proof Sys2Proof.Machine Sys2Proof.Laws

/-- A read of INBUF below the capacity returns the byte there, and 0 from the capacity on (R78). -/
theorem readIn_eq (a : Nat) (s : State) :
    readIn a s = s.returned (if a < s.cfg.inCap then (s.inByte a).zeroExtend 32 else 0) := by
  rw [readIn, BitVec.ofNat_toNat]

/-- While idle, a read of OUTBUF is as one of INBUF (R79). -/
theorem readOut_of_idle (a : Nat) {s : State} (h : s.status.busy = false) :
    readOut a s = s.returned (if a < s.cfg.outCap then (s.outByte a).zeroExtend 32 else 0) := by
  rw [readOut, h, BitVec.ofNat_toNat (n := 8) 32 (s.outByte a)]
  rfl

/-- While idle, a write below the capacity stores its byte, and no other write does anything (R77). -/
theorem writeIn_of_idle (a : Nat) (v : Byte) {s : State} (h : s.status.busy = false) :
    writeIn a v s = { s with inbuf := if a < s.cfg.inCap then s.inbuf.write a v else s.inbuf } := by
  rcases Nat.lt_or_ge a s.cfg.inCap with hcap | hcap
  · rw [writeIn, if_neg (by simp [h, hcap]), if_pos hcap]
  · rw [writeIn, if_pos (.inr hcap), if_neg (Nat.not_lt.2 hcap)]

/-- While idle, OUTBUF is written as INBUF is (R79). -/
theorem writeOut_of_idle (a : Nat) (v : Byte) {s : State} (h : s.status.busy = false) :
    writeOut a v s = { s with outbuf := if a < s.cfg.outCap then s.outbuf.write a v else s.outbuf } := by
  rcases Nat.lt_or_ge a s.cfg.outCap with hcap | hcap
  · rw [writeOut, if_neg (by simp [h, hcap]), if_pos hcap]
  · rw [writeOut, if_pos (.inr hcap), if_neg (Nat.not_lt.2 hcap)]

/-- A read after a write that a capacity may ignore. -/
theorem readCell_write_below_capacity {d : Byte} (mem : Memory) (cap a b : Nat) (v : Byte) :
    readCell d (if a < cap then mem.write a v else mem) b = if b = a ∧ a < cap then v else readCell d mem b := by
  by_cases hcap : a < cap
  · simp only [hcap, if_true, and_true, Memory.write, readCell_writeCell]
  · rw [if_neg hcap, if_neg fun h => hcap h.2]

/-- Settles O16: each access is a move of the host, and the move's own lemma says what it reads or stores. -/
theorem hostMemoryAccess : Obligations.HostMemoryAccess := by
  unfold Obligations.HostMemoryAccess
  refine fun s ms a v => ⟨fun hm => ?_, fun hidle => ⟨fun hm => ?_, fun hm => ?_, fun hm => ?_⟩⟩
  · exact (step_of_hostMove hm nofun rfl).trans (congrArg _ (readIn_eq a _))
  · exact ⟨_, (step_of_hostMove hm nofun rfl).trans (congrArg _ (writeIn_of_idle a v hidle)), rfl,
      fun b => readCell_write_below_capacity s.inbuf s.cfg.inCap a b v⟩
  · exact ⟨_, (step_of_hostMove hm nofun rfl).trans (congrArg _ (writeOut_of_idle a v hidle)), rfl,
      fun b => readCell_write_below_capacity s.outbuf s.cfg.outCap a b v⟩
  · exact (step_of_hostMove hm nofun rfl).trans (congrArg _ (readOut_of_idle a hidle))

end Sys2Proof.Proofs
end

section
/-!
PROOFS. No rule depends on INBUF from IN_LEN on (R71). Two engines that differ in INBUF alone, and agree below IN_LEN,
are followed through each rule: an equation `f (swapInbuf m s) = … (f s)` per part of a rule, without a premise where the
part does not look at INBUF, and under `SameStream` where it does.
-/
namespace Sys2Proof.Proofs
open Sys2Proof Sys2Proof.Machine Sys2Proof.Laws

variable {α β : Type} {m : Memory} {s t : State}

/-- The same engine with another INBUF. -/
def swapInbuf (m : Memory) (s : State) : State := { s with inbuf := m }

/-- The same course of a rule with another INBUF. -/
def swapFlow (m : Memory) : Flow α → Flow α
  | .go a s => .go a (swapInbuf m s)
  | .ended s => .ended (swapInbuf m s)
  | .stopped f => .stopped f

/-- The other INBUF holds the same stream: the bytes below IN_LEN. -/
def SameStream (m : Memory) (s : State) : Prop := ∀ a < s.inLen.toNat, (swapInbuf m s).inByte a = s.inByte a

@[simp] theorem swapInbuf_st : (swapInbuf m s).st = s.st := rfl
@[simp] theorem swapInbuf_pos : (swapInbuf m s).pos = s.pos := rfl
@[simp] theorem swapInbuf_gct : (swapInbuf m s).gct = s.gct := rfl
@[simp] theorem swapInbuf_lct : (swapInbuf m s).lct = s.lct := rfl

theorem SameStream.of_works (h : SameStream m s) (hw : Works s t) : SameStream m t := by
  intro a ha
  rw [hw.inLen] at ha
  rw [inByte_congr (s := s) hw.inbuf hw.resets, ← h a ha]
  exact inByte_congr (s := swapInbuf m s) (t := swapInbuf m t) rfl hw.resets a

/-! ### How a rule is put together -/

/-- A choice that does not look at INBUF is the same choice. -/
theorem ite_swap {γ δ : Type} {c : Prop} [Decidable c] {f : γ → δ} {x y : γ} {x' y' : δ} (hx : x' = f x)
    (hy : y' = f y) : (if c then x' else y') = f (if c then x else y) := by
  rw [hx, hy, apply_ite f]

theorem result_swapFlow (x : Flow Unit) : (swapFlow m x).result = withInbuf m x.result := by
  cases x <;> rfl

/-- Parts that follow each other, the second not looking at INBUF. -/
theorem andThen_swap {x x' : Flow α} {k k' : α → State → Flow β} (hx : x' = swapFlow m x)
    (hk : ∀ a t, k' a (swapInbuf m t) = swapFlow m (k a t)) : x'.andThen k' = swapFlow m (x.andThen k) := by
  subst hx
  cases x with
  | go a t => exact hk a t
  | ended t => rfl
  | stopped f => rfl

/-- Parts that follow each other: the first leaves the stream, so the second meets the same one. -/
theorem andThen_sameStream {x x' : Flow α} {k k' : α → State → Flow β} (hs : SameStream m s) (hf : Follows s x)
    (hx : x' = swapFlow m x) (hk : ∀ a t, SameStream m t → k' a (swapInbuf m t) = swapFlow m (k a t)) :
    x'.andThen k' = swapFlow m (x.andThen k) := by
  subst hx
  cases x with
  | go a t => exact hk a t (hs.of_works hf)
  | ended t => rfl
  | stopped f => rfl

/-! ### The cursor and the reads -/

theorem raise_swap (r : Raise) : raise r (swapInbuf m s) = swapInbuf m (raise r s) := by
  cases r with
  | fatal k => rfl
  | anomaly k => exact ite_swap (f := swapInbuf m) rfl rfl

/-- A part that ends in an anomaly. -/
theorem ended_anomaly_swap (k : ErrKind) :
    Flow.ended (anomaly k (swapInbuf m s)) = swapFlow (α := α) m (.ended (anomaly k s)) :=
  congrArg Flow.ended (raise_swap (.anomaly k))

/-- `need` does not look at INBUF, and what follows it may count on the n bytes. -/
theorem need_andThen_swap {n : Nat} {r : Raise} {k k' : Unit → State → Flow β}
    (hk : s.pos.toNat + n ≤ s.inLen.toNat → k' () (swapInbuf m s) = swapFlow m (k () s)) :
    (need n r (swapInbuf m s)).andThen k' = swapFlow m ((need n r s).andThen k) := by
  rcases Nat.lt_or_ge s.inLen.toNat (s.pos.toNat + n) with h | h
  · rw [need_of_lt h, need_of_lt (s := swapInbuf m s) h, raise_swap]
    rfl
  · rw [need_of_le h, need_of_le (s := swapInbuf m s) h]
    exact hk h

/-- `ReadByte` reads at POS below IN_LEN, or raises (R72). -/
theorem readByte_swap (hs : SameStream m s) (r : Raise) : readByte r (swapInbuf m s) = swapFlow m (readByte r s) := by
  rcases Nat.lt_or_ge s.pos.toNat s.inLen.toNat with h | h
  · rw [readByte_of_lt h, readByte_of_lt (s := swapInbuf m s) h, swapInbuf_pos, hs _ h]
    rfl
  · rw [readByte_of_le h, readByte_of_le (s := swapInbuf m s) h, raise_swap]
    rfl

/-- A rule that reads a byte and goes on. -/
theorem readByte_andThen_swap {r : Raise} {k : Byte → State → Flow β} (hs : SameStream m s)
    (hk : ∀ b t, SameStream m t → k b (swapInbuf m t) = swapFlow m (k b t)) :
    (readByte r (swapInbuf m s)).andThen k = swapFlow m ((readByte r s).andThen k) :=
  andThen_sameStream hs (follows_readByte r s) (readByte_swap hs r) hk

theorem inBytes_swap (hs : SameStream m s) {a n : Nat} (h : a + n ≤ s.inLen.toNat) :
    (swapInbuf m s).inBytes a n = s.inBytes a n := by
  induction n generalizing a with
  | zero => rfl
  | succ n ih => rw [State.inBytes, State.inBytes, hs a (by omega), ih (by omega)]

theorem loadTable_swap (hs : SameStream m s) {a n : Nat} (h : a + 3 * n ≤ s.inLen.toNat) (t : Cells Rgb) :
    (swapInbuf m s).loadTable a n t = s.loadTable a n t := by
  induction n with
  | zero => rfl
  | succ n ih =>
    rw [State.loadTable, State.loadTable, ih (by omega), State.rgbAt, State.rgbAt, hs _ (by omega), hs _ (by omega),
      hs _ (by omega)]

theorem le16_swap (hs : SameStream m s) {a : Nat} (h : a + 2 ≤ s.inLen.toNat) :
    (swapInbuf m s).le16 a = s.le16 a := by
  rw [State.le16, State.le16, hs _ (by omega), hs _ (by omega)]

theorem skipLoop_swap (hs : SameStream m s) (r : Raise) (fuel : Nat) :
    skipLoop r fuel (swapInbuf m s) = swapFlow m (skipLoop r fuel s) := by
  induction fuel generalizing s with
  | zero => rfl
  | succ fuel ih =>
    refine readByte_andThen_swap hs fun len t ht => ite_swap rfl ?_
    exact need_andThen_swap fun _ => ih (ht.of_works (works_advance t _))

theorem skipSubBlocks_swap (hs : SameStream m s) (r : Raise) :
    skipSubBlocks r (swapInbuf m s) = swapFlow m (skipSubBlocks r s) :=
  skipLoop_swap hs r _

/-! ### Header, tags and extensions -/

/-- The signature is looked at only where IN_LEN has its 5 bytes (R161). -/
theorem validHeader_swap (hs : SameStream m s) : (swapInbuf m s).validHeader = s.validHeader := by
  by_cases h : 5 ≤ s.inLen.toNat
  · rw [State.validHeader, State.validHeader, inBytes_swap hs (by omega)]
    rfl
  · have short {t : State} (ht : ¬ 5 ≤ t.inLen.toNat) : t.validHeader = false := by simp [State.validHeader, ht]
    rw [short h, short (t := swapInbuf m s) h]

theorem loadGct_swap (hs : SameStream m s) (f : Nat) : loadGct f (swapInbuf m s) = swapFlow m (loadGct f s) := by
  refine need_andThen_swap fun hle => ?_
  simp only [swapInbuf_pos, swapInbuf_gct, loadTable_swap hs hle]
  rfl

/-- The descriptor's packed byte is looked at where IN_LEN has 13 bytes (R163, R164). -/
theorem afterSignature_swap (hs : SameStream m s) :
    afterSignature (swapInbuf m s) = swapFlow m (afterSignature s) := by
  have hpos : SameStream m { s with pos := 13 } := hs
  rcases Nat.lt_or_ge s.inLen.toNat 13 with h | h
  · have short {t : State} (ht : t.inLen.toNat < 13) : afterSignature t = .ended (fatal .invalidHeader t) := if_pos ht
    rw [short h, short (t := swapInbuf m s) h]
    rfl
  · have long {t : State} (ht : 13 ≤ t.inLen.toNat) : afterSignature t = screenDescriptor t := if_neg (Nat.not_lt.2 ht)
    rw [long h, long (t := swapInbuf m s) h, screenDescriptor, screenDescriptor, hs 10 (by omega)]
    exact ite_swap (loadGct_swap hpos _) rfl

theorem readLabel_swap (hs : SameStream m s) : readLabel (swapInbuf m s) = swapFlow m (readLabel s) :=
  readByte_andThen_swap hs fun _ _ _ => rfl

theorem afterTag_swap (hs : SameStream m s) (b : Byte) : afterTag b (swapInbuf m s) = swapFlow m (afterTag b s) :=
  ite_swap (readLabel_swap hs) (ite_swap rfl (ite_swap rfl rfl))

theorem finishExtension_swap (hs : SameStream m s) :
    finishExtension (swapInbuf m s) = swapFlow m (finishExtension s) :=
  andThen_swap (skipSubBlocks_swap hs _) fun _ _ => rfl

/-- The pending state is read from a sub-block's own bytes, which `need` has found (R188). -/
theorem carriedPending_swap (hs : SameStream m s) {len : Nat} (h : s.pos.toNat + len ≤ s.inLen.toNat) :
    (swapInbuf m s).carriedPending len = s.carriedPending len := by
  by_cases hlen : 4 ≤ len
  · rw [State.carriedPending, State.carriedPending, swapInbuf_pos, hs _ (by omega), hs _ (by omega)]
  · rw [State.carriedPending, State.carriedPending, if_neg fun h => hlen h.1, if_neg fun h => hlen h.1]

theorem execGce_swap (hs : SameStream m s) : execGce (swapInbuf m s) = withInbuf m (execGce s) := by
  have hclear : SameStream m { s with pend := { valid := false, idx := 0 } } := hs
  refine .trans (congrArg Flow.result ?_) (result_swapFlow _)
  refine readByte_andThen_swap hclear fun len t ht => ite_swap rfl ?_
  refine need_andThen_swap fun hle => ?_
  have hnext : SameStream m ({ t with pend := t.carriedPending len.toNat }.advance len.toNat) := ht
  rw [carriedPending_swap ht hle]
  exact finishExtension_swap hnext

/-! ### Image set-up -/

theorem seedDictionary_swap (n : Nat) : seedDictionary n (swapInbuf m s) = swapInbuf m (seedDictionary n s) := by
  induction n with
  | zero => rfl
  | succ n ih => rw [seedDictionary, ih]; rfl

theorem initLzw_swap (d : Nat) : initLzw d (swapInbuf m s) = swapInbuf m (initLzw d s) :=
  seedDictionary_swap (s := { s with lzw := _ }) (2 ^ d)

/-- The decoder set up, from the DATA_SIZE byte on (R219). -/
theorem streamStarted_swap (d : Nat) :
    { initLzw d (swapInbuf m s) with st := .lzw } = swapInbuf m { initLzw d s with st := .lzw } := by
  rw [initLzw_swap]
  rfl

theorem startStream_swap (d : Byte) : startStream d (swapInbuf m s) = swapFlow m (startStream d s) :=
  ite_swap (ended_anomaly_swap _) (congrArg (Flow.go ()) (streamStarted_swap _))

theorem loadLct_swap (hs : SameStream m s) (f : Nat) : loadLct f (swapInbuf m s) = swapFlow m (loadLct f s) := by
  refine need_andThen_swap fun hle => ?_
  simp only [swapInbuf_pos, swapInbuf_lct, loadTable_swap hs hle]
  rfl

/-- The descriptor's fields are in the 9 bytes that `need` has found (R212). -/
theorem readDescriptor_swap (hs : SameStream m s) (h : s.pos.toNat + 9 ≤ s.inLen.toNat) :
    readDescriptor (swapInbuf m s) = swapInbuf m (readDescriptor s) := by
  simp only [readDescriptor, swapInbuf_pos, le16_swap hs (a := s.pos.toNat + 4) (by omega),
    le16_swap hs (a := s.pos.toNat + 6) (by omega), hs (s.pos.toNat + 8) (by omega)]
  rfl

theorem localTable_swap (hs : SameStream m s) (packed : Byte) :
    localTable packed (swapInbuf m s) = swapFlow m (localTable packed s) :=
  ite_swap (andThen_swap (loadLct_swap hs _) fun _ _ => rfl) rfl

theorem checkCapacity_swap : checkCapacity (swapInbuf m s) = swapFlow m (checkCapacity s) := ite_swap rfl rfl

theorem prepareImage_swap (hs : SameStream m s) : prepareImage (swapInbuf m s) = swapFlow m (prepareImage s) := by
  refine need_andThen_swap fun hle => ?_
  have hnext : SameStream m (readDescriptor s) := hs.of_works (works_readDescriptor s)
  simp only [swapInbuf_pos, hs (s.pos.toNat + 8) (by omega), readDescriptor_swap hs hle]
  exact andThen_swap (localTable_swap hnext _) fun _ _ => andThen_swap checkCapacity_swap fun _ _ => rfl

/-! ### Sub-blocks and codes -/

theorem startSubBlock_swap (len : Byte) : startSubBlock len (swapInbuf m s) = swapFlow m (startSubBlock len s) :=
  ite_swap rfl (need_andThen_swap fun _ => rfl)

theorem push_swap (v : Byte) : push v (swapInbuf m s) = swapFlow m (push v s) :=
  ite_swap (ended_anomaly_swap _) rfl

theorem firstCode_swap (c : BitVec 12) : firstCode c (swapInbuf m s) = swapFlow m (firstCode c s) :=
  andThen_swap (push_swap _) fun _ _ => rfl

theorem unwindLoop_swap (fuel c : Nat) : unwindLoop fuel c (swapInbuf m s) = swapFlow m (unwindLoop fuel c s) := by
  induction fuel generalizing c s with
  | zero => rfl
  | succ fuel ih =>
    refine ite_swap (andThen_swap (push_swap _) fun _ _ => ih _) ?_
    exact push_swap (s := { s with lzw := { s.lzw with first := s.suffixOf c } }) _

theorem growCodeSize_swap : growCodeSize (swapInbuf m s) = swapInbuf m (growCodeSize s) :=
  ite_swap (f := swapInbuf m) rfl rfl

theorem extendDictionary_swap (c : BitVec 12) :
    extendDictionary c (swapInbuf m s) = swapInbuf m (extendDictionary c s) := by
  have hgrow := growCodeSize_swap (m := m) (s := addEntry s)
  exact congrArg (fun t : State => { t with lzw := { t.lzw with oldCode := c } }) hgrow

theorem dictCode_swap (c : BitVec 12) : dictCode c (swapInbuf m s) = swapFlow m (dictCode c s) :=
  andThen_swap (unwindLoop_swap _ _) fun _ _ => congrArg (Flow.go ()) (extendDictionary_swap c)

theorem kwkwkCode_swap (c : BitVec 12) : kwkwkCode c (swapInbuf m s) = swapFlow m (kwkwkCode c s) :=
  andThen_swap (push_swap _) fun _ _ =>
    andThen_swap (unwindLoop_swap _ _) fun _ _ => congrArg (Flow.go ()) (extendDictionary_swap c)

theorem classifyCode_swap (c : BitVec 12) : classifyCode c (swapInbuf m s) = swapFlow m (classifyCode c s) := by
  refine ite_swap (ended_anomaly_swap _) (ite_swap rfl (ite_swap rfl (ite_swap ?_ ?_)))
  · exact ite_swap (firstCode_swap c) (ended_anomaly_swap _)
  · exact ite_swap (ended_anomaly_swap _) (ite_swap (kwkwkCode_swap c) (dictCode_swap c))

/-! ### Every instruction -/

theorem whenIdle_swap (f : State → State) (hf : f (swapInbuf m s) = swapInbuf m (f s)) :
    whenIdle f (swapInbuf m s) = withInbuf m (whenIdle f s) :=
  ite_swap rfl (congrArg Host.Outcome.next hf)

theorem commitFrame_swap : commitFrame (swapInbuf m s) = swapInbuf m (commitFrame s) :=
  ite_swap (f := swapInbuf m) rfl rfl

/-- R71 for the engine's rules and the host's commands alike. -/
theorem exec_swap (hs : SameStream m s) (i : Instr) : exec i (swapInbuf m s) = withInbuf m (exec i s) := by
  have raised {t : State} (r : Raise) :
      (.next (raise r (swapInbuf m t)) : Result) = withInbuf m (.next (raise r t)) :=
    congrArg Host.Outcome.next (raise_swap r)
  have flow {x x' : Flow Unit} (hx : x' = swapFlow m x) : x'.result = withInbuf m x.result := by
    rw [hx, result_swapFlow]
  have read {r : Raise} {k : Byte → State → Flow Unit}
      (hk : ∀ b t, SameStream m t → k b (swapInbuf m t) = swapFlow m (k b t)) :
      ((readByte r (swapInbuf m s)).andThen k).result = withInbuf m ((readByte r s).andThen k).result :=
    flow (readByte_andThen_swap hs hk)
  cases i with
  | cmdNone => exact whenIdle_swap (fun s => s) rfl
  | identify => exact whenIdle_swap startIdentify rfl
  | decode => exact whenIdle_swap startDecode rfl
  | illegalCmd op => exact whenIdle_swap (fun s => complete .illegalCommand (startCommand s)) rfl
  | sigGif87 => exact ite_swap rfl (flow (afterSignature_swap hs))
  | sigGif89 => exact ite_swap rfl (flow (afterSignature_swap hs))
  | sigInvalid => exact ite_swap rfl rfl
  | hdrShort => rfl
  | endOfBuffer => rfl
  | extTag => exact read fun _ _ ht => readLabel_swap ht
  | imageTag => exact read fun _ _ _ => rfl
  | trailer => exact read fun _ _ _ => rfl
  | noise b => exact read fun _ _ _ => rfl
  | gce => exact execGce_swap hs
  | otherExt l => exact flow (finishExtension_swap hs)
  | subEnd =>
    refine read fun _ t _ => ?_
    simp only [swapInbuf_st]
    split
    · rfl
    · rfl
    · exact startSubBlock_swap 0
  | subData len =>
    refine read fun _ t _ => ?_
    simp only [swapInbuf_st]
    split
    · exact need_andThen_swap fun _ => rfl
    · exact need_andThen_swap fun _ => rfl
    · exact startSubBlock_swap len
  | dataSizeOk d => exact read fun _ _ _ => congrArg (Flow.go ()) (streamStarted_swap _)
  | dataSizeBad d => exact read fun _ _ _ => ended_anomaly_swap _
  | invalid c => exact raised (t := dropCode s) (.anomaly .corruptCode)
  | eoi c => rfl
  | clear c => rfl
  | first c => exact flow (firstCode_swap (s := dropCode s) c)
  | firstBad c => exact raised (t := dropCode s) (.anomaly .corruptCode)
  | full c => exact raised (t := dropCode s) (.anomaly .dictionaryOverflow)
  | kwkwk c => exact flow (kwkwkCode_swap (s := dropCode s) c)
  | dict c => exact flow (dictCode_swap (s := dropCode s) c)
  | ident => exact congrArg (fun b => Host.Outcome.next (identified b (swapInbuf m s))) (validHeader_swap hs)
  | hdr =>
    rw [exec, exec, execHdr, execHdr, validHeader_swap hs]
    exact ite_swap (flow (afterSignature_swap hs)) rfl
  | tag => exact ite_swap rfl (read fun b _ ht => afterTag_swap ht b)
  | img =>
    refine flow (andThen_sameStream hs (follows_prepareImage s) (prepareImage_swap hs) fun _ t ht => ?_)
    exact readByte_andThen_swap ht fun d _ _ => startStream_swap d
  | lzwComplete => rfl
  | fetchLen => exact read fun len _ _ => startSubBlock_swap len
  | fetchByte => exact read fun _ _ _ => rfl
  | decodeCode => exact flow (classifyCode_swap (s := dropCode s) s.topCode)
  | emit => exact ite_swap rfl rfl
  | drain =>
    have hnext : SameStream m ({ s with lzw := { s.lzw with count := 0 } }.advance s.lzw.count.toNat) := hs
    exact ite_swap rfl (flow (andThen_swap (skipSubBlocks_swap hnext _) fun _ _ => rfl))
  | commit =>
    exact congrArg (fun t : State => Host.Outcome.next { t with pend := { valid := false, idx := 0 }, st := .tag })
      commitFrame_swap
  | finish => exact ite_swap rfl rfl

/-- Settles O54: the other INBUF holds the same stream, and every instruction reads it below IN_LEN only. -/
theorem noReadBeyondInLen : Obligations.NoReadBeyondInLen := by
  unfold Obligations.NoReadBeyondInLen
  exact fun i s m hs => exec_swap hs i

end Sys2Proof.Proofs
end

section
/-!
PROOFS. The host's commands and the IDENT step (spec/40_host_commands.md, family 40_host_commands): the gate of R140,
what each command writes while idle, and the signature check of R161.
-/
namespace Sys2Proof.Proofs
open Sys2Proof Sys2Proof.Machine Sys2Proof.Laws

variable {s : State}

/-! ### The gate of R140 -/

theorem whenIdle_of_busy (effect : State → State) (h : s.status.busy = true) : whenIdle effect s = .next s :=
  if_pos h

theorem whenIdle_of_idle (effect : State → State) (h : s.status.busy = false) :
    whenIdle effect s = .next (effect s) :=
  if_neg (by simp [h])

/-- NONE passes the gate and does nothing, so the gate makes no difference to it (R141). -/
theorem exec_cmdNone (s : State) : exec .cmdNone s = .next s :=
  ite_self (Host.Outcome.next s)

theorem exec_illegalCmd (op : Word) (s : State) :
    exec (.illegalCmd op) s = whenIdle (fun s => complete .illegalCommand (startCommand s)) s := rfl

/-- Settles O18: NONE is the same on both sides of the gate, and BUSY shuts it for the other commands. -/
theorem ignoredCommands : Obligations.IgnoredCommands := by
  unfold Obligations.IgnoredCommands
  exact fun s => ⟨exec_cmdNone s, fun hbusy =>
    ⟨whenIdle_of_busy _ hbusy, whenIdle_of_busy _ hbusy, fun op =>
      (exec_illegalCmd op s).trans (whenIdle_of_busy _ hbusy)⟩⟩

/-! ### Commands while idle -/

theorem exec_identify_of_idle (h : s.status.busy = false) : exec .identify s = .next (startIdentify s) :=
  whenIdle_of_idle _ h

theorem exec_decode_of_idle (h : s.status.busy = false) : exec .decode s = .next (startDecode s) :=
  whenIdle_of_idle _ h

theorem exec_illegalCmd_of_idle (op : Word) (h : s.status.busy = false) :
    exec (.illegalCmd op) s = .next (complete .illegalCommand (startCommand s)) :=
  (exec_illegalCmd op s).trans (whenIdle_of_idle _ h)

/-- Settles O19: the gate is open while idle, and the states written out are `startIdentify` and `startDecode`. -/
theorem commandsStart : Obligations.CommandsStart := by
  unfold Obligations.CommandsStart
  exact fun s hidle => ⟨exec_identify_of_idle hidle, exec_decode_of_idle hidle⟩

/-- An illegal command leaves DONE and ERR = 7 in STATUS, whatever stood there (R144). -/
theorem status_illegalCommand_word (s : State) : (complete .illegalCommand (startCommand s)).status.word = 0x72 := by
  rw [complete_status, startCommand_status]
  decide

/-- A completed command drives IRQ as IRQ_EN says (R35, R146). -/
theorem irq_complete (e : ErrKind) (s : State) : (complete e s).irq = s.ctrl.irqEn := by
  simp only [State.irq, complete_status, complete_ctrl, Bool.true_and]

/-- Settles O20: while idle the command starts and completes in the same move. -/
theorem illegalCommandCompletes : Obligations.IllegalCommandCompletes := by
  unfold Obligations.IllegalCommandCompletes
  exact fun s op hidle => ⟨complete .illegalCommand (startCommand s), exec_illegalCmd_of_idle op hidle, rfl,
    status_illegalCommand_word s, irq_complete .illegalCommand (startCommand s)⟩

/-! ### The signature check -/

/-- `Has_Valid_GIF_Header()` is the check of the five bytes written out (R161). -/
theorem validHeader_iff_goodSignature (s : State) : s.validHeader = true ↔ goodSignature s := by
  simp only [State.validHeader, goodSignature, State.inBytes, gif87Bytes, gif89Bytes, Bool.and_eq_true,
    Bool.or_eq_true, decide_eq_true_eq, List.cons.injEq, and_true]
  tauto

theorem validHeader_of_goodSignature (h : goodSignature s) : s.validHeader = true :=
  (validHeader_iff_goodSignature s).2 h

theorem validHeader_of_not_goodSignature (h : ¬ goodSignature s) : s.validHeader = false :=
  Bool.eq_false_iff.2 fun hv => h ((validHeader_iff_goodSignature s).1 hv)

/-- The IDENT step, given what the check answers (R145). -/
theorem exec_ident_of_validHeader {good : Bool} (h : s.validHeader = good) :
    exec .ident s = .next (identified good s) := by
  rw [exec, execIdent, h]

/-- A signature's row, met in IDENT, is the IDENT step with the answer the row stands for (R145). -/
theorem exec_signature_of_ident (h : s.st = .ident) :
    exec .sigGif87 s = .next (identified true s) ∧ exec .sigGif89 s = .next (identified true s) ∧
      exec .sigInvalid s = .next (identified false s) :=
  ⟨if_pos h, if_pos h, if_pos h⟩

/-- Settles O21: the step's answer is the signature check, and the state written out is `identified`. -/
theorem identifyChecksSignature : Obligations.IdentifyChecksSignature := by
  unfold Obligations.IdentifyChecksSignature
  refine fun s => ⟨fun hgood => ?_, fun hbad => ?_, fun hident => ?_⟩
  · exact exec_ident_of_validHeader (validHeader_of_goodSignature hgood)
  · exact exec_ident_of_validHeader (validHeader_of_not_goodSignature hbad)
  · exact exec_signature_of_ident hident

end Sys2Proof.Proofs
end

section
/-!
PROOFS. The header and the global color table (spec/41_header_screen.md, family 41_header_screen): the packed byte's
fields, the load of the table from address 13, and the HDR step on a good and on a bad header.
-/
namespace Sys2Proof.Proofs
open Sys2Proof Sys2Proof.Machine Sys2Proof.Laws

variable {s : State} {n : Nat}

/-! ### The fields of a packed byte -/

/-- The table flag is the bit that 0x80 masks. -/
theorem packedTableFlag_eq_false_iff (p : Byte) : packedTableFlag p = false ↔ p &&& 0x80 = 0 := by
  have hmask : p &&& 0x80 = if packedTableFlag p = true then BitVec.twoPow 8 7 else 0#8 := BitVec.and_twoPow p 7
  rw [hmask]
  cases packedTableFlag p <;> decide

/-- The table's size field is the three bits that 0x07 masks. -/
theorem packedSizeField_eq (p : Byte) : packedSizeField p = (p &&& 0x07).toNat :=
  (Nat.and_two_pow_sub_one_eq_mod p.toNat 3).symm

/-- A packed byte names at most 256 entries. -/
theorem tableEntries_packedSizeField_le (p : Byte) : tableEntries (packedSizeField p) ≤ 256 :=
  Nat.pow_le_pow_right (n := 2) (j := 8) (by decide) (Nat.mod_lt _ (by decide))

/-! ### The global table -/

/-- The state that HDR leaves with a global table of n entries: loaded from address 13, POS behind it (R165, R167). -/
def withGlobalTable (n : Nat) (s : State) : State :=
  { s with
    pos := BitVec.ofNat 32 (13 + 3 * n), gct := s.loadTable 13 n s.gct, gctSize := BitVec.ofNat 9 n, st := .tag }

theorem withGlobalTable_pos_toNat (h : 13 + 3 * n ≤ s.inLen.toNat) :
    (withGlobalTable n s).pos.toNat = 13 + 3 * n :=
  Nat.mod_eq_of_lt (Nat.lt_of_le_of_lt h s.inLen.isLt)

theorem withGlobalTable_gctSize_toNat (h : n ≤ 256) : (withGlobalTable n s).gctSize.toNat = n :=
  Nat.mod_eq_of_lt (Nat.lt_of_le_of_lt h (by decide))

/-- The first n entries are the stream's, and the others are as they were. -/
theorem withGlobalTable_gctAt (e : Nat) :
    (withGlobalTable n s).gctAt e = if e < n then s.rgbAt 13 e else s.gctAt e :=
  readCell_loadTable e

/-- Loading does not look at POS but for where the table starts. -/
theorem loadTable_pos (p : Word) (a : Nat) (t : Cells Rgb) :
    { s with pos := p }.loadTable a n t = s.loadTable a n t := by
  induction n with
  | zero => rfl
  | succ n ih => rw [State.loadTable, State.loadTable, ih]; rfl

/-- With POS behind the screen descriptor, a table whose bytes are all there is loaded (R165). -/
theorem loadGct_of_le {f : Nat} (h : 13 + 3 * tableEntries f ≤ s.inLen.toNat) :
    loadGct f { s with pos := 13 } = .go () (withGlobalTable (tableEntries f) s) := by
  rw [loadGct, need_of_le (s := { s with pos := 13 }) h, andThen_go, loadTable_pos]
  rfl

/-- A cut table raises before it loads an entry (R166). -/
theorem loadGct_of_lt {f : Nat} (h : s.inLen.toNat < 13 + 3 * tableEntries f) :
    loadGct f { s with pos := 13 } = .ended (fatal .truncatedStream { s with pos := 13 }) := by
  rw [loadGct, need_of_lt (s := { s with pos := 13 }) h]
  rfl

/-! ### The HDR step -/

theorem afterSignature_of_short (h : s.inLen.toNat < 13) : afterSignature s = .ended (fatal .invalidHeader s) :=
  if_pos h

theorem afterSignature_of_long (h : 13 ≤ s.inLen.toNat) : afterSignature s = screenDescriptor s :=
  if_neg (Nat.not_lt.2 h)

theorem exec_hdr_of_goodSignature (h : goodSignature s) : exec .hdr s = (afterSignature s).result :=
  if_pos (validHeader_of_goodSignature h)

theorem exec_hdr_of_not_goodSignature (h : ¬ goodSignature s) : exec .hdr s = .next (fatal .invalidHeader s) :=
  if_neg (by simp [validHeader_of_not_goodSignature h])

theorem screenDescriptor_without_table (h : s.inByte 10 &&& 0x80 = 0) :
    screenDescriptor s = .go () { s with pos := 13, gctSize := 0, st := .tag } :=
  if_neg (by simp [(packedTableFlag_eq_false_iff _).2 h])

theorem screenDescriptor_with_table (h : s.inByte 10 &&& 0x80 ≠ 0) :
    screenDescriptor s = loadGct (packedSizeField (s.inByte 10)) { s with pos := 13 } :=
  if_pos (by simpa using mt (packedTableFlag_eq_false_iff _).1 h)

/-- Settles O26: after a good signature HDR is `screenDescriptor`, which without a table ends at once and with one
is `loadGct`; its state is `withGlobalTable`. -/
theorem headerReadsGlobalTable : Obligations.HeaderReadsGlobalTable := by
  unfold Obligations.HeaderReadsGlobalTable
  intro s hsig hlong
  rw [← packedSizeField_eq, ← tableEntries, exec_hdr_of_goodSignature hsig, afterSignature_of_long hlong]
  refine ⟨fun hflag => ?_, fun hflag hfits => ?_, fun hflag hcut => ?_⟩
  · rw [screenDescriptor_without_table hflag, result_go]
  · rw [screenDescriptor_with_table hflag, loadGct_of_le hfits]
    refine ⟨_, rfl, rfl, withGlobalTable_pos_toNat hfits,
      withGlobalTable_gctSize_toNat (tableEntries_packedSizeField_le _), fun e he => ?_, fun e he => ?_⟩
    · rw [withGlobalTable_gctAt, if_pos he, State.rgbAt]
    · rw [withGlobalTable_gctAt, if_neg (Nat.not_lt.2 he)]
  · rw [screenDescriptor_with_table hflag, loadGct_of_lt hcut, result_ended]

/-- A signature's row, met in HDR, is the rest of the HDR step that the row stands for (R161 to R163). -/
theorem exec_signature_of_hdr (h : s.st = .hdr) :
    exec .sigGif87 s = (afterSignature s).result ∧ exec .sigGif89 s = (afterSignature s).result ∧
      exec .sigInvalid s = .next (fatal .invalidHeader s) := by
  have hident : s.st ≠ .ident := by rw [h]; decide
  exact ⟨if_neg hident, if_neg hident, if_neg hident⟩

/-- A good signature in fewer than 13 bytes raises too (R163). -/
theorem exec_hdr_of_badHeader (h : ¬ goodSignature s ∨ s.inLen.toNat < 13) :
    exec .hdr s = .next (fatal .invalidHeader s) := by
  by_cases hsig : goodSignature s
  · rw [exec_hdr_of_goodSignature hsig, afterSignature_of_short (h.resolve_left (not_not.2 hsig)), result_ended]
  · exact exec_hdr_of_not_goodSignature hsig

/-- Settles O27: the rows of a signature are `afterSignature`, as the step is after a good one, and ERRPOS takes POS,
which the invariant keeps at 0 in HDR. -/
theorem badHeaderIsFatal : Obligations.BadHeaderIsFatal := by
  unfold Obligations.BadHeaderIsFatal
  refine fun s => ⟨exec_hdr_of_badHeader, fun hhdr => ?_, fun hinv hhdr => hinv.cursor.headerAtZero hhdr⟩
  obtain ⟨h87, h89, hinvalid⟩ := exec_signature_of_hdr hhdr
  rw [h87, h89]
  refine ⟨fun hsig _ => ?_, fun hshort => ?_, hinvalid, rfl⟩
  · rw [exec_hdr_of_goodSignature hsig]
    exact ⟨rfl, rfl⟩
  · rw [afterSignature_of_short hshort]
    exact ⟨rfl, rfl⟩

end Sys2Proof.Proofs
end

section
/-!
PROOFS. The block stream (spec/42_block_parser.md, family 42_block_parser): what the rows of a tag do, the TAG step as
the row of the byte it meets, and the extensions. A graphic-control one skips its sub-blocks as any other does, but for
the pending state that the first of them carries.
-/
namespace Sys2Proof.Proofs
open Sys2Proof Sys2Proof.Machine Sys2Proof.Laws

variable {s : State} {g : List Byte} {groups : List (List Byte)}

/-! ### Tags -/

/-- Where a byte is left, reading goes on with it and with POS behind it (R72). -/
theorem readByte_andThen_of_lt {α : Type} {r : Raise} (k : Byte → State → Flow α)
    (h : s.pos.toNat < s.inLen.toNat) :
    (readByte r s).andThen k = k (s.inByte s.pos.toNat) (s.advance 1) := by
  rw [readByte_of_lt h, andThen_go]

theorem exec_imageTag_of_lt (h : s.pos.toNat < s.inLen.toNat) :
    exec .imageTag s = .next { s with pos := s.pos + 1, st := .img } := by
  rw [exec, execImageTag, readByte_andThen_of_lt _ h, result_go, advance_eq]
  rfl

theorem exec_trailer_of_lt (h : s.pos.toNat < s.inLen.toNat) :
    exec .trailer s = .next { s with pos := s.pos + 1, st := .finish } := by
  rw [exec, execTrailer, readByte_andThen_of_lt _ h, result_go, advance_eq]
  rfl

theorem exec_noise_of_lt (t : Byte) (h : s.pos.toNat < s.inLen.toNat) :
    exec (.noise t) s = .next { s with pos := s.pos + 1 } := by
  rw [exec, execNoise, readByte_andThen_of_lt _ h, result_go, advance_eq]
  rfl

theorem exec_extTag_of_lt (h : s.pos.toNat < s.inLen.toNat) : exec .extTag s = (readLabel (s.advance 1)).result := by
  rw [exec, execExtTag, readByte_andThen_of_lt _ h]

/-- A label that is there is read into EXT_LABEL (R182). -/
theorem readLabel_of_lt (h : s.pos.toNat < s.inLen.toNat) :
    readLabel s = .go () { s.advance 1 with extLabel := s.inByte s.pos.toNat, st := .ext } :=
  readByte_andThen_of_lt _ h

/-- A label that is cut off raises where it is missing (R182). -/
theorem readLabel_of_le (h : s.inLen.toNat ≤ s.pos.toNat) : readLabel s = .ended (fatal .truncatedStream s) := by
  rw [readLabel, readByte_of_le h, andThen_ended, raise]

/-- The last byte of the stream read, POS is IN_LEN. -/
theorem advance_one_of_last (h : s.pos.toNat + 1 = s.inLen.toNat) : s.advance 1 = { s with pos := s.inLen } := by
  rw [State.advance, h, BitVec.ofNat_toNat, BitVec.setWidth_eq]

/-- Settles O28: each row reads its byte and does what its own lemma says; after EXT_TAG's byte the label is there, or
POS is IN_LEN. -/
theorem tagRows : Obligations.TagRows := by
  unfold Obligations.TagRows
  refine fun s => ⟨rfl, fun hlt => ?_, fun hlabel => ?_, fun hlast => ?_⟩
  · exact ⟨exec_imageTag_of_lt hlt, exec_trailer_of_lt hlt, fun t => exec_noise_of_lt t hlt⟩
  · have hpos : (s.advance 1).pos.toNat = s.pos.toNat + 1 := advance_pos_toNat (by omega)
    rw [exec_extTag_of_lt (by omega), readLabel_of_lt (by rw [hpos]; exact hlabel), hpos, advance_advance, advance_eq]
    rfl
  · rw [exec_extTag_of_lt (by omega), advance_one_of_last hlast, readLabel_of_le (Nat.le_refl _), result_ended]

/-- At the end of the buffer the TAG step is END_OF_BUFFER (R181). -/
theorem exec_tag_of_le (h : s.inLen.toNat ≤ s.pos.toNat) : exec .tag s = exec .endOfBuffer s :=
  if_pos h

/-- Where a byte is left, the TAG step is the row that the byte is decoded to (R115, R180). -/
theorem exec_tag_of_lt (h : s.pos.toNat < s.inLen.toNat) :
    exec .tag s = exec (decodeTag (s.inByte s.pos.toNat)) s := by
  rw [exec, execTag, if_neg (Nat.not_le.2 h), readByte_andThen_of_lt _ h, afterTag, decodeTag]
  split_ifs
  · rw [exec_extTag_of_lt h]
  · rw [exec_imageTag_of_lt h, result_go, advance_eq]; rfl
  · rw [exec_trailer_of_lt h, result_go, advance_eq]; rfl
  · rw [exec_noise_of_lt _ h, result_go, advance_eq]; rfl

theorem decodeTag_of_notMem {t : Byte} (h : t ∉ [0x21, 0x2C, 0x3B]) : decodeTag t = .noise t := by
  simp only [List.mem_cons, List.not_mem_nil, or_false, not_or] at h
  obtain ⟨hext, himage, htrailer⟩ := h
  rw [decodeTag, if_neg hext, if_neg himage, if_neg htrailer]

/-- Settles O29: the step is the row of the byte at POS. -/
theorem tagStepDispatches : Obligations.TagStepDispatches := by
  unfold Obligations.TagStepDispatches
  refine fun s => ⟨exec_tag_of_le, fun hlt htag => ?_, fun hlt htag => ?_, fun hlt htag => ?_, fun hlt htag => ?_⟩ <;>
    rw [exec_tag_of_lt hlt]
  · rw [htag]; exact exec_imageTag_of_lt hlt
  · rw [htag]; exact exec_trailer_of_lt hlt
  · rw [htag]; rfl
  · rw [decodeTag_of_notMem htag]; exact exec_noise_of_lt _ hlt

/-! ### Extensions -/

theorem finishExtension_of_holds (h : s.holdsSubBlocks s.pos.toNat groups) :
    finishExtension s = .go () { s.advance (groups.flatMap subBlock ++ [0]).length with st := .tag } := by
  rw [finishExtension, skipSubBlocks_holds h, andThen_go]

theorem finishExtension_of_cuts {p : Nat} (h : s.cutsSubBlocks s.pos.toNat groups p) :
    finishExtension s = .ended (fatal .truncatedStream { s with pos := BitVec.ofNat 32 p }) := by
  rw [finishExtension, skipSubBlocks_cuts h, andThen_ended, raise]

/-- Settles O31: after its label the extension is `finishExtension`. -/
theorem otherExtensionSkips : Obligations.OtherExtensionSkips := by
  unfold Obligations.OtherExtensionSkips
  refine fun s label groups => ⟨fun hholds => ?_, fun p hcuts => ?_⟩ <;> rw [exec, execOtherExt]
  · rw [finishExtension_of_holds hholds, result_go, advance_eq]
  · rw [finishExtension_of_cuts hcuts, result_ended]

/-! ### The graphic-control extension -/

/-- The state with q as its pending graphic-control state (R41). -/
def withPending (q : Pending) (s : State) : State := { s with pend := q }

@[simp] theorem withPending_pos (q : Pending) : (withPending q s).pos = s.pos := rfl

theorem advance_withPending (q : Pending) (n : Nat) :
    (withPending q s).advance n = withPending q (s.advance n) := rfl

@[simp] theorem inBytes_withPending (q : Pending) (a n : Nat) : (withPending q s).inBytes a n = s.inBytes a n := by
  induction n generalizing a with
  | zero => rfl
  | succ n ih => rw [State.inBytes, State.inBytes, ih]; rfl

/-! The sub-blocks that the stream holds do not depend on POS or on the pending state. -/

@[simp] theorem holdsSubBlocks_advance (n a : Nat) :
    (s.advance n).holdsSubBlocks a groups ↔ s.holdsSubBlocks a groups := by
  simp only [State.holdsSubBlocks, advance_inLen, inBytes_advance]

@[simp] theorem holdsSubBlocks_withPending (q : Pending) (a : Nat) :
    (withPending q s).holdsSubBlocks a groups ↔ s.holdsSubBlocks a groups := by
  simp only [State.holdsSubBlocks, inBytes_withPending]; rfl

@[simp] theorem cutsSubBlocks_advance (n a p : Nat) :
    (s.advance n).cutsSubBlocks a groups p ↔ s.cutsSubBlocks a groups p := by
  simp only [State.cutsSubBlocks, advance_inLen, inBytes_advance, inByte_advance]

@[simp] theorem cutsSubBlocks_withPending (q : Pending) (a p : Nat) :
    (withPending q s).cutsSubBlocks a groups p ↔ s.cutsSubBlocks a groups p := by
  simp only [State.cutsSubBlocks, inBytes_withPending]; rfl

/-- The flag is the bit that 1 masks (R107). -/
theorem gceTransparent_iff (flags : Byte) : gceTransparent flags = true ↔ flags &&& 1 = 1 := by
  have hmask : flags &&& 1 = if gceTransparent flags = true then BitVec.twoPow 8 0 else 0#8 := BitVec.and_twoPow flags 0
  rw [hmask]
  cases gceTransparent flags <;> decide

/-- With the first sub-block's data at POS, the pending state is the one its data bytes 0 and 3 carry, if it has
both (R188, R189). -/
theorem carriedPending_eq_carried (h : s.inBytes s.pos.toNat g.length = g) :
    s.carriedPending g.length = carried (g :: groups) := by
  match g with
  | [] | [_] | [_, _] | [_, _, _] => rfl
  | flags :: b1 :: b2 :: idx :: rest =>
    simp only [List.length_cons, State.inBytes, List.cons.injEq] at h
    obtain ⟨hflags, -, -, hidx, -⟩ := h
    simp only [State.carriedPending, carried, hflags, hidx, gceTransparent_iff, List.length_cons, Nat.le_add_left,
      true_and]

/-- A graphic-control extension once the pending state is set to none (R188). -/
def graphicControl (s : State) : Flow Unit :=
  (readByte (.fatal .truncatedStream) s).andThen fun len s =>
    if len = 0 then .go () { s with st := .tag }
    else
      (need len.toNat (.fatal .truncatedStream) s).andThen fun _ s =>
        finishExtension ({ s with pend := s.carriedPending len.toNat }.advance len.toNat)

theorem exec_gce (s : State) : exec .gce s = (graphicControl (withPending ⟨false, 0⟩ s)).result := rfl

/-- Where no whole sub-block comes first, a graphic-control extension is as any other (R189). -/
theorem graphicControl_of_no_data
    (h : s.inByte s.pos.toNat ≠ 0 → s.inLen.toNat < s.pos.toNat + 1 + (s.inByte s.pos.toNat).toNat) :
    graphicControl s = finishExtension s := by
  rw [graphicControl, finishExtension, skipSubBlocks, skipLoop_succ, andThen_assoc]
  rcases Nat.lt_or_ge s.pos.toNat s.inLen.toNat with hlt | hle
  · rw [readByte_andThen_of_lt _ hlt, readByte_andThen_of_lt _ hlt]
    by_cases hzero : s.inByte s.pos.toNat = 0
    · rw [if_pos hzero, if_pos hzero, andThen_go]
    · have hpos : (s.advance 1).pos.toNat = s.pos.toNat + 1 := advance_pos_toNat hlt
      rw [if_neg hzero, if_neg hzero, need_of_lt (by rw [hpos]; exact h hzero), andThen_ended, andThen_ended,
        andThen_ended]
  · rw [readByte_of_le hle, andThen_ended, andThen_ended]

/-- Past a whole first sub-block a graphic-control extension goes on as any other does, with the pending state that this
sub-block carries (R188). -/
theorem graphicControl_of_data (hbyte : s.inByte s.pos.toNat = BitVec.ofNat 8 g.length)
    (hdata : s.inBytes (s.pos.toNat + 1) g.length = g) (hg : g ≠ [] ∧ g.length ≤ 255)
    (hfits : s.pos.toNat + 1 + g.length ≤ s.inLen.toNat) :
    graphicControl s = finishExtension (withPending (carried (g :: groups)) (s.advance (1 + g.length))) := by
  have hpos : (s.advance 1).pos.toNat = s.pos.toNat + 1 := advance_pos_toNat (by omega)
  have hcarried : (s.advance 1).carriedPending g.length = carried (g :: groups) :=
    carriedPending_eq_carried (by rw [inBytes_advance, hpos, hdata])
  rw [graphicControl, readByte_andThen_of_lt _ (by omega), hbyte, if_neg (lengthByte_ne_zero hg.1 hg.2),
    lengthByte_toNat hg.2, need_of_le (by rw [hpos]; exact hfits), andThen_go, hcarried, ← advance_advance]
  rfl

/-- The place behind a first sub-block of the stream at POS, as the engine reaches it. -/
theorem advance_first_pos_toNat (h : s.pos.toNat + 1 + g.length ≤ s.inLen.toNat) :
    (s.advance (1 + g.length)).pos.toNat = s.pos.toNat + 1 + g.length := by
  rw [advance_pos_toNat (by omega), ← Nat.add_assoc]

/-- With every sub-block there, a graphic-control extension is skipped whole, and what the first carries is pending. -/
theorem graphicControl_of_holds (hnone : s.pend = ⟨false, 0⟩) (h : s.holdsSubBlocks s.pos.toNat groups) :
    graphicControl s = .go ()
      { withPending (carried groups) (s.advance (groups.flatMap subBlock ++ [0]).length) with st := .tag } := by
  cases groups with
  | nil =>
    obtain ⟨-, hzero⟩ := holdsSubBlocks_nil h
    rw [graphicControl_of_no_data (absurd hzero), finishExtension_of_holds h, show carried [] = s.pend from hnone.symm]
    rfl
  | cons g gs =>
    obtain ⟨hbyte, hdata, hg, hlt, hrest⟩ := holdsSubBlocks_cons h
    rw [← advance_first_pos_toNat hlt.le] at hrest
    have hlen : 1 + g.length + (gs.flatMap subBlock ++ [0]).length = ((g :: gs).flatMap subBlock ++ [0]).length := by
      simp only [List.flatMap_cons, List.length_append, subBlock_length]
      omega
    rw [graphicControl_of_data (groups := gs) hbyte hdata hg hlt.le,
      finishExtension_of_holds (s := withPending _ (s.advance (1 + g.length))) (by simpa using hrest),
      advance_withPending, advance_advance, hlen]

/-- Cut, a graphic-control extension raises as any other does, with the pending state written so far (R188, R412). -/
theorem graphicControl_of_cuts {p : Nat} (hnone : s.pend = ⟨false, 0⟩) (h : s.cutsSubBlocks s.pos.toNat groups p) :
    graphicControl s =
      .ended (fatal .truncatedStream { withPending (carried groups) s with pos := BitVec.ofNat 32 p }) := by
  cases groups with
  | nil =>
    obtain ⟨-, -, -, hcut⟩ := id h
    simp only [List.flatMap_nil, List.length_nil, Nat.add_zero] at hcut
    rw [graphicControl_of_no_data (by omega), finishExtension_of_cuts h, show carried [] = s.pend from hnone.symm]
    rfl
  | cons g gs =>
    obtain ⟨hbyte, hdata, hg, hle, hrest⟩ := cutsSubBlocks_cons h
    rw [← advance_first_pos_toNat hle] at hrest
    rw [graphicControl_of_data (groups := gs) hbyte hdata hg hle,
      finishExtension_of_cuts (s := withPending _ (s.advance (1 + g.length))) (by simpa using hrest)]
    rfl

/-- Settles O32: the extension is `graphicControl` on the stream with no state pending. -/
theorem graphicControlSetsPending : Obligations.GraphicControlSetsPending := by
  unfold Obligations.GraphicControlSetsPending
  refine fun s groups => ⟨fun hholds => ?_, fun p hcuts => ?_⟩ <;> rw [exec_gce]
  · rw [graphicControl_of_holds (s := withPending _ s) rfl ((holdsSubBlocks_withPending _ _).2 hholds),
      result_go, advance_eq]
    rfl
  · rw [graphicControl_of_cuts (s := withPending _ s) rfl ((cutsSubBlocks_withPending _ _ _).2 hcuts), result_ended]
    rfl

end Sys2Proof.Proofs
end

section
/-!
PROOFS. Image set-up (spec/43_image_setup.md, family 43_image_setup): the decoder that a DATA_SIZE byte sets up, the
image descriptor with its local table as one state, the frame reserved in that state, and the IMG step by how far it
comes.
-/
namespace Sys2Proof.Proofs
open Sys2Proof Sys2Proof.Machine Sys2Proof.Laws

variable {s : State} {d : Nat} {b : Byte}

/-! ### The decoder (R219, R220) -/

/-- Setting the decoder up writes the registers of the decoder and the dictionary only. -/
theorem initLzw_frame (d : Nat) (s : State) :
    initLzw d s =
      { s with
        lzw := (initLzw d s).lzw, prefixTab := (initLzw d s).prefixTab, suffixTab := (initLzw d s).suffixTab } := by
  rw [initLzw, seedDictionary_frame]

@[simp] theorem initLzw_lzw (d : Nat) (s : State) :
    (initLzw d s).lzw =
      { s.lzw with
        dataSize := BitVec.ofNat 4 d, clear := BitVec.ofNat 9 (2 ^ d), eoi := BitVec.ofNat 9 (2 ^ d + 1),
        avail := BitVec.ofNat 13 (2 ^ d + 2), codeSize := BitVec.ofNat 4 (d + 1), codeMask := maskOf (d + 1),
        oldValid := false, first := 0 } := by
  rw [initLzw, seedDictionary_frame]

/-! The dictionary is seen neither in POS nor in the frame. -/

@[simp] theorem advance_prefixOf (s : State) (n c : Nat) : (s.advance n).prefixOf c = s.prefixOf c := rfl
@[simp] theorem advance_suffixOf (s : State) (n c : Nat) : (s.advance n).suffixOf c = s.suffixOf c := rfl
@[simp] theorem setUpFrame_prefixOf (s : State) (c : Nat) : (setUpFrame s).prefixOf c = s.prefixOf c := rfl
@[simp] theorem setUpFrame_suffixOf (s : State) (c : Nat) : (setUpFrame s).suffixOf c = s.suffixOf c := rfl

/-- The state in which LZW starts on DATA_SIZE d (R219). -/
def streamStarted (d : Nat) (s : State) : State :=
  { s with
    lzw := (initLzw d s).lzw, prefixTab := (initLzw d s).prefixTab, suffixTab := (initLzw d s).suffixTab, st := .lzw }

theorem initLzw_then_lzw (d : Nat) (s : State) : { initLzw d s with st := .lzw } = streamStarted d s := by
  rw [initLzw_frame]; rfl

@[simp] theorem streamStarted_pos (d : Nat) (s : State) : (streamStarted d s).pos = s.pos := rfl
@[simp] theorem streamStarted_lzw (d : Nat) (s : State) : (streamStarted d s).lzw = (initLzw d s).lzw := rfl

/-- A DATA_SIZE of at most 8 fits the registers that are made of it. -/
theorem streamStarted_sizes (hd : d ≤ 8) (s : State) :
    (streamStarted d s).lzw.dataSize.toNat = d ∧ (streamStarted d s).lzw.clear.toNat = 2 ^ d ∧
      (streamStarted d s).lzw.eoi.toNat = 2 ^ d + 1 ∧ (streamStarted d s).lzw.avail.toNat = 2 ^ d + 2 ∧
      (streamStarted d s).lzw.codeSize.toNat = d + 1 ∧
      (streamStarted d s).lzw.codeMask.toNat = 2 ^ (d + 1) - 1 := by
  have hpow : 2 ^ d ≤ 256 := Nat.pow_le_pow_right (n := 2) (j := 8) (by decide) hd
  simp only [streamStarted_lzw, initLzw_lzw, BitVec.toNat_ofNat, maskOf_toNat (show d + 1 ≤ 12 by omega), and_true]
  generalize 2 ^ d = n at hpow ⊢
  omega

theorem streamStarted_prefixOf (d : Nat) (s : State) (c : Nat) :
    (streamStarted d s).prefixOf c = if c < 2 ^ d then 0 else s.prefixOf c := by
  rw [← initLzw_then_lzw]
  exact seedDictionary_prefixOf { s with lzw := _ } (2 ^ d) c

theorem streamStarted_suffixOf (d : Nat) (s : State) (c : Nat) :
    (streamStarted d s).suffixOf c = if c < 2 ^ d then BitVec.ofNat 8 c else s.suffixOf c := by
  rw [← initLzw_then_lzw]
  exact seedDictionary_suffixOf { s with lzw := _ } (2 ^ d) c

theorem startStream_of_ok (h : 2 ≤ b.toNat ∧ b.toNat ≤ 8) (s : State) :
    startStream b s = .go () (streamStarted b.toNat s) := by
  rw [startStream, if_neg (by omega), initLzw_then_lzw]

theorem startStream_of_bad (h : b.toNat < 2 ∨ 8 < b.toNat) (s : State) :
    startStream b s = .ended (anomaly .corruptCode s) :=
  if_pos h

theorem exec_dataSizeOk_of_lt (b : Byte) (h : s.pos.toNat < s.inLen.toNat) :
    exec (.dataSizeOk b) s = .next (streamStarted b.toNat (s.advance 1)) := by
  rw [exec, execDataSizeOk, readByte_andThen_of_lt _ h, initLzw_then_lzw, result_go]

theorem exec_dataSizeBad_of_lt (b : Byte) (h : s.pos.toNat < s.inLen.toNat) :
    exec (.dataSizeBad b) s = .next (anomaly .corruptCode (s.advance 1)) := by
  rw [exec, execDataSizeBad, readByte_andThen_of_lt _ h, result_ended]

/-- Settles O37: with its byte read, the good row is `streamStarted` and the bad one raises. -/
theorem dataSizeRows : Obligations.DataSizeRows := by
  unfold Obligations.DataSizeRows
  refine fun s d hlt => ⟨fun _ hd => ⟨_, exec_dataSizeOk_of_lt d hlt, ?_, ?_⟩, ?_⟩
  · rw [advance_eq, streamStarted, initLzw_lzw]; rfl
  · obtain ⟨hdataSize, hclear, heoi, havail, hcodeSize, hmask⟩ := streamStarted_sizes hd (s.advance 1)
    exact ⟨hdataSize, hclear, heoi, havail, hcodeSize, hmask, streamStarted_prefixOf _ _, streamStarted_suffixOf _ _⟩
  · rw [exec_dataSizeBad_of_lt d hlt, advance_eq]; rfl

/-! ### The descriptor and its local table (R210 to R213) -/

theorem packedInterlaced_iff (p : Byte) : packedInterlaced p = true ↔ p &&& 0x40 ≠ 0 := by
  have hmask : p &&& 0x40 = if packedInterlaced p = true then BitVec.twoPow 8 6 else 0#8 := BitVec.and_twoPow p 6
  rw [hmask]
  cases packedInterlaced p <;> decide

theorem packedTableFlag_iff (p : Byte) : packedTableFlag p = true ↔ p &&& 0x80 ≠ 0 := by
  rw [← not_iff_not, Bool.not_eq_true, not_not, packedTableFlag_eq_false_iff]

theorem le16_toNat (s : State) (a : Nat) :
    (s.le16 a).toNat = (s.inByte a).toNat + 256 * (s.inByte (a + 1)).toNat :=
  Nat.mod_eq_of_lt (by have := (s.inByte a).isLt; have := (s.inByte (a + 1)).isLt; omega)

theorem readDescriptor_pos_toNat (h : s.pos.toNat + 9 ≤ s.inLen.toNat) :
    (readDescriptor s).pos.toNat = s.pos.toNat + 9 :=
  advance_pos_toNat h

/-- Loading does not look at what reading the descriptor writes but for where the table starts. -/
theorem loadTable_readDescriptor (s : State) (a n : Nat) (t : Cells Rgb) :
    (readDescriptor s).loadTable a n t = s.loadTable a n t := by
  induction n with
  | zero => rfl
  | succ n ih => rw [State.loadTable, State.loadTable, ih]; rfl

theorem descriptorRead_readDescriptor (s : State) : descriptorRead s (readDescriptor s) :=
  ⟨le16_toNat s _, le16_toNat s _, packedInterlaced_iff _⟩

/-- The entries of the local table that follows the descriptor at POS, none where its packed byte announces no table
(R103, R108). -/
def localEntries (s : State) : Nat :=
  if packedTableFlag (imagePacked s) then tableEntries (packedSizeField (imagePacked s)) else 0

theorem localEntries_of_no_table (h : packedTableFlag (imagePacked s) = false) : localEntries s = 0 :=
  if_neg (by simp [h])

theorem localEntries_of_table (h : packedTableFlag (imagePacked s) = true) :
    localEntries s = 2 ^ ((imagePacked s &&& 0x07).toNat + 1) := by
  rw [localEntries, if_pos h, tableEntries, packedSizeField_eq]

theorem dataSizeAddr_eq (s : State) : dataSizeAddr s = s.pos.toNat + 9 + 3 * localEntries s := by
  rw [dataSizeAddr, localTableBytes]
  cases hflag : packedTableFlag (imagePacked s) with
  | false => rw [if_pos ((packedTableFlag_eq_false_iff _).1 hflag), localEntries_of_no_table hflag]
  | true => rw [if_neg ((packedTableFlag_iff _).1 hflag), localEntries_of_table hflag]

/-- The state with the descriptor at POS and its local table read, POS behind them: what the capacity check meets
(R210). -/
def imageRead (s : State) : State :=
  { s with
    pos := BitVec.ofNat 32 (dataSizeAddr s),
    img := { s.img with
      w := s.le16 (s.pos.toNat + 4), h := s.le16 (s.pos.toNat + 6), il := packedInterlaced (imagePacked s),
      loc := packedTableFlag (imagePacked s) },
    lct := s.loadTable (s.pos.toNat + 9) (localEntries s) s.lct,
    lctSize := if packedTableFlag (imagePacked s) then BitVec.ofNat 9 (localEntries s) else s.lctSize }

@[simp] theorem imageRead_lzw (s : State) : (imageRead s).lzw = s.lzw := rfl
@[simp] theorem imageRead_prefixOf (s : State) (c : Nat) : (imageRead s).prefixOf c = s.prefixOf c := rfl
@[simp] theorem imageRead_suffixOf (s : State) (c : Nat) : (imageRead s).suffixOf c = s.suffixOf c := rfl

theorem imageRead_pos_toNat (h : dataSizeAddr s ≤ s.inLen.toNat) : (imageRead s).pos.toNat = dataSizeAddr s :=
  Nat.mod_eq_of_lt (Nat.lt_of_le_of_lt h s.inLen.isLt)

theorem descriptorRead_imageRead (s : State) : descriptorRead s (imageRead s) :=
  ⟨le16_toNat s _, le16_toNat s _, packedInterlaced_iff _⟩

/-- The loaded entries are the stream's, and the others are as they were. -/
theorem imageRead_lctAt (s : State) (e : Nat) :
    (imageRead s).lctAt e = if e < localEntries s then s.rgbAt (s.pos.toNat + 9) e else s.lctAt e :=
  readCell_loadTable e

theorem localTableRead_imageRead (s : State) : localTableRead s (imageRead s) := by
  refine ⟨packedTableFlag_iff _, fun hnone => ?_, fun htable => ?_⟩
  · have hflag : packedTableFlag (imagePacked s) = false := (packedTableFlag_eq_false_iff _).2 hnone
    simp only [imageRead, localEntries, hflag]
    exact ⟨rfl, rfl⟩
  · have hflag : packedTableFlag (imagePacked s) = true := (packedTableFlag_iff _).2 htable
    have hle : localEntries s ≤ 256 := by
      rw [localEntries, if_pos hflag]; exact tableEntries_packedSizeField_le _
    rw [← localEntries_of_table hflag]
    refine ⟨?_, imageRead_lctAt s⟩
    rw [imageRead, if_pos hflag]
    exact Nat.mod_eq_of_lt (by omega)

/-- With its bytes there, the table is loaded (R213). -/
theorem localTable_of_le (hdesc : s.pos.toNat + 9 ≤ s.inLen.toNat) (h : dataSizeAddr s ≤ s.inLen.toNat) :
    localTable (imagePacked s) (readDescriptor s) = .go () (imageRead s) := by
  have hpos := readDescriptor_pos_toNat hdesc
  have haddr := dataSizeAddr_eq s
  rw [localTable]
  cases hflag : packedTableFlag (imagePacked s) with
  | false =>
    simp only [imageRead, haddr, localEntries, hflag]
    rfl
  | true =>
    rw [localEntries, if_pos hflag] at haddr
    rw [if_pos rfl, loadLct, need_of_le (by rw [hpos, ← haddr]; exact h), andThen_go, andThen_go]
    simp only [imageRead, haddr, localEntries, hflag, State.advance, hpos, loadTable_readDescriptor]
    rfl

/-- A cut table raises before it loads an entry (R213). -/
theorem localTable_of_lt (hdesc : s.pos.toNat + 9 ≤ s.inLen.toNat) (h : s.inLen.toNat < dataSizeAddr s) :
    localTable (imagePacked s) (readDescriptor s) = .ended (fatal .truncatedStream (readDescriptor s)) := by
  rw [dataSizeAddr_eq] at h
  cases hflag : packedTableFlag (imagePacked s) with
  | false =>
    rw [localEntries_of_no_table hflag] at h
    exact absurd hdesc (Nat.not_le.2 h)
  | true =>
    rw [localEntries, if_pos hflag] at h
    rw [localTable, if_pos hflag, loadLct, need_of_lt (by rw [readDescriptor_pos_toNat hdesc]; exact h),
      andThen_ended, andThen_ended, raise]

/-! ### The frame (R215, R216) -/

theorem imageRead_frameBytes (s : State) : (imageRead s).frameBytes = 4 * (imageWidth s * imageHeight s) := by
  obtain ⟨hw, hh, -⟩ := descriptorRead_imageRead s
  rw [State.frameBytes, hw, hh]

theorem imageRead_usedBytes (s : State) : (imageRead s).usedBytes = s.usedBytes :=
  usedBytes_congr rfl rfl rfl rfl rfl

theorem checkCapacity_of_fits (h : imageFits s) : checkCapacity (imageRead s) = .go () (imageRead s) := by
  obtain ⟨hrecord, hroom⟩ := h
  rw [← imageRead_usedBytes, ← imageRead_frameBytes] at hroom
  exact if_neg (not_or.2 ⟨Nat.not_le.2 hrecord, Nat.not_lt.2 hroom⟩)

theorem checkCapacity_of_not_fits (h : ¬ imageFits s) :
    checkCapacity (imageRead s) = .ended (fatal .capacityExceeded (imageRead s)) := by
  rw [imageFits, not_and_or, Nat.not_lt, Nat.not_le, ← imageRead_usedBytes, ← imageRead_frameBytes] at h
  exact if_pos h

/-- The frame is reserved and cleared where OUT_USED stands. -/
theorem frameCleared_setUpFrame (s : State) : frameCleared s (setUpFrame (imageRead s)) := by
  obtain ⟨hw, hh, -⟩ := descriptorRead_imageRead s
  refine ⟨rfl, ?_, rfl, fun a => ?_, rfl⟩
  · rw [← hw, ← hh]
    have hlt : (imageRead s).img.w.toNat * (imageRead s).img.h.toNat < 2 ^ 16 * 2 ^ 16 :=
      Nat.mul_lt_mul'' (imageRead s).img.w.isLt (imageRead s).img.h.isLt
    exact Nat.mod_eq_of_lt hlt
  · rw [← imageRead_frameBytes]
    exact readCell_fillCells _ _ a 0

theorem setUpFrame_pos_toNat (h : dataSizeAddr s ≤ s.inLen.toNat) :
    (setUpFrame (imageRead s)).pos.toNat = dataSizeAddr s :=
  imageRead_pos_toNat h

/-- In u the descriptor and the local table of the image at POS of s have been read, and its frame is cleared. -/
def imageSetUp (s u : State) : Prop := descriptorRead s u ∧ localTableRead s u ∧ frameCleared s u

theorem imageSetUp_setUpFrame (s : State) : imageSetUp s (setUpFrame (imageRead s)) :=
  ⟨descriptorRead_imageRead s, localTableRead_imageRead s, frameCleared_setUpFrame s⟩

/-! What the set-up has left is seen neither in POS nor in the decoder. -/

theorem imageSetUp_advance {u : State} (n : Nat) (h : imageSetUp s u) : imageSetUp s (u.advance n) := h

theorem imageSetUp_streamStarted {u : State} (d : Nat) (h : imageSetUp s u) : imageSetUp s (streamStarted d u) := h

/-! ### The IMG step -/

/-- Past a whole descriptor the local table comes next, then the capacity check (R210). -/
theorem prepareImage_of_le (h : s.pos.toNat + 9 ≤ s.inLen.toNat) :
    prepareImage s =
      (localTable (imagePacked s) (readDescriptor s)).andThen fun _ t =>
        (checkCapacity t).andThen fun _ t => .go () (setUpFrame t) := by
  rw [prepareImage, need_of_le h, andThen_go]
  rfl

theorem prepareImage_of_fits (hdesc : s.pos.toNat + 9 ≤ s.inLen.toNat) (h : dataSizeAddr s ≤ s.inLen.toNat)
    (hfits : imageFits s) : prepareImage s = .go () (setUpFrame (imageRead s)) := by
  rw [prepareImage_of_le hdesc, localTable_of_le hdesc h, andThen_go, checkCapacity_of_fits hfits, andThen_go]

/-- A fatal error before the frame is set up ends the IMG step. -/
theorem exec_img_of_ended {t : State} (h : prepareImage s = .ended t) : exec .img s = .next t := by
  rw [exec, execImg, h, andThen_ended, result_ended]

/-- With the frame set up, the IMG step goes on with the DATA_SIZE byte (R217). -/
theorem exec_img_of_go {t : State} (h : prepareImage s = .go () t) :
    exec .img s = ((readByte (.anomaly .truncatedStream) t).andThen startStream).result := by
  rw [exec, execImg, h, andThen_go]

/-- A DATA_SIZE byte that is there is what the stream starts on. -/
theorem exec_img_of_lt (hdesc : s.pos.toNat + 9 ≤ s.inLen.toNat) (h : dataSizeAddr s < s.inLen.toNat)
    (hfits : imageFits s) :
    exec .img s = (startStream (s.inByte (dataSizeAddr s)) ((setUpFrame (imageRead s)).advance 1)).result := by
  have hpos := setUpFrame_pos_toNat h.le
  rw [exec_img_of_go (prepareImage_of_fits hdesc h.le hfits), readByte_andThen_of_lt _ (hpos.trans_lt h), hpos]
  rfl

/-- A DATA_SIZE byte that is not there raises with the frame set up. -/
theorem exec_img_of_end (hdesc : s.pos.toNat + 9 ≤ s.inLen.toNat) (h : dataSizeAddr s = s.inLen.toNat)
    (hfits : imageFits s) : exec .img s = .next (anomaly .truncatedStream (setUpFrame (imageRead s))) := by
  have hpos := setUpFrame_pos_toNat h.le
  rw [exec_img_of_go (prepareImage_of_fits hdesc h.le hfits), readByte_of_le (h.symm.trans hpos.symm).le,
    andThen_ended, result_ended, raise]

/-- POS behind a DATA_SIZE byte that is there. -/
theorem advance_setUpFrame_pos_toNat (h : dataSizeAddr s < s.inLen.toNat) :
    ((setUpFrame (imageRead s)).advance 1).pos.toNat = dataSizeAddr s + 1 := by
  have hpos := setUpFrame_pos_toNat h.le
  rw [advance_pos_toNat (by rw [hpos]; exact h), hpos]

/-- Settles O34: the step ends in `streamStarted`, on the frame that `setUpFrame` has reserved for `imageRead`. -/
theorem imageSetsUp : Obligations.ImageSetsUp := by
  unfold Obligations.ImageSetsUp
  intro s hdesc hlt hfits d hlow hhigh
  have hexec : exec .img s = .next (streamStarted d ((setUpFrame (imageRead s)).advance 1)) := by
    rw [exec_img_of_lt hdesc hlt hfits, startStream_of_ok ⟨hlow, hhigh⟩, result_go]
  obtain ⟨hdescriptor, htable, hframe⟩ :=
    imageSetUp_streamStarted d (imageSetUp_advance 1 (imageSetUp_setUpFrame s))
  obtain ⟨hdataSize, hclear, heoi, havail, hcodeSize, hmask⟩ :=
    streamStarted_sizes hhigh ((setUpFrame (imageRead s)).advance 1)
  refine ⟨_, hexec, ?_, ?_, hdescriptor, htable, hframe, hdataSize, hclear, heoi, havail, hcodeSize, hmask, ?_⟩
  · simp only [streamStarted, State.advance, setUpFrame, imageRead]
  · rw [streamStarted_pos, advance_setUpFrame_pos_toNat hlt]
  · simp only [streamStarted_lzw, initLzw_lzw, streamStarted_prefixOf, streamStarted_suffixOf, advance_lzw,
      advance_prefixOf, advance_suffixOf, setUpFrame_lzw, setUpFrame_prefixOf, setUpFrame_suffixOf, imageRead_lzw,
      imageRead_prefixOf, imageRead_suffixOf, implies_true, and_self]

/-- Settles O35: `prepareImage` ends at the first of its three checks that fails, on the state that the lines before it
leave. -/
theorem imageFatalErrors : Obligations.ImageFatalErrors := by
  unfold Obligations.ImageFatalErrors
  refine fun s => ⟨fun hcut => exec_img_of_ended ?_, fun hdesc hcut => ?_, fun hdesc hle hfull => ?_⟩
  · rw [prepareImage, need_of_lt hcut, andThen_ended, raise]
  · refine ⟨readDescriptor s, exec_img_of_ended ?_, ?_, readDescriptor_pos_toNat hdesc,
      descriptorRead_readDescriptor s⟩
    · rw [prepareImage_of_le hdesc, localTable_of_lt hdesc hcut, andThen_ended]
    · simp only [readDescriptor, State.advance]
  · refine ⟨imageRead s, exec_img_of_ended ?_, ?_, imageRead_pos_toNat hle, descriptorRead_imageRead s,
      localTableRead_imageRead s⟩
    · rw [prepareImage_of_le hdesc, localTable_of_le hdesc hle, andThen_go, checkCapacity_of_not_fits hfull,
        andThen_ended]
    · simp only [imageRead]

/-- Settles O36: the DATA_SIZE byte is missing or bad on the frame that `setUpFrame` has reserved for `imageRead`. -/
theorem dataSizeAnomalies : Obligations.DataSizeAnomalies := by
  unfold Obligations.DataSizeAnomalies
  refine fun s hdesc hfits => ⟨fun hend => ?_, fun hlt hbad => ?_⟩
  · refine ⟨_, exec_img_of_end hdesc hend hfits, ⟨?_, imageSetUp_setUpFrame s⟩,
      BitVec.eq_of_toNat_eq ((setUpFrame_pos_toNat hend.le).trans hend)⟩
    simp only [setUpFrame, imageRead]
  · refine ⟨(setUpFrame (imageRead s)).advance 1, ?_, ⟨?_, imageSetUp_advance 1 (imageSetUp_setUpFrame s)⟩,
      advance_setUpFrame_pos_toNat hlt⟩
    · rw [exec_img_of_lt hdesc hlt hfits, startStream_of_bad hbad, result_ended]
    · simp only [setUpFrame, imageRead, State.advance]

end Sys2Proof.Proofs
end

section
/-!
PROOFS. The streaming bit unpacker (spec/44_bit_unpacker.md, family 44_bit_unpacker): the choice among its steps, the
length byte that starts a sub-block, a data byte above the bits held, and the DECODE step as the row of its code's class,
which a sound dictionary lets complete.
-/
namespace Sys2Proof.Proofs
open Sys2Proof Sys2Proof.Machine Sys2Proof.Laws

variable {s : State} {b : Byte} {i : Instr} {c : BitVec 12}

/-! ### The choice of a step (R36, R240) -/

theorem engineOp_of_image_done (hst : s.st = .lzw) (h : s.place.pix = s.img.total) :
    engineOp s = some .lzwComplete := by
  rw [engineOp_of_lzw hst, if_pos h]

theorem engineOp_of_stack (hst : s.st = .lzw) (hpix : s.place.pix ≠ s.img.total) (h : s.lzw.sp ≠ 0) :
    engineOp s = some .emit := by
  rw [engineOp_of_lzw hst, if_neg hpix, if_pos h]

/-- With pixels missing and none on the stack, the bits held decide. -/
theorem engineOp_of_stack_empty (hst : s.st = .lzw) (hpix : s.place.pix ≠ s.img.total) (h : s.lzw.sp = 0) :
    engineOp s =
      some (if s.lzw.bits.toNat < s.lzw.codeSize.toNat then (if s.lzw.count = 0 then .fetchLen else .fetchByte)
        else .decodeCode) := by
  rw [engineOp_of_lzw hst, if_neg hpix, if_neg (not_not.2 h)]

/-- Settles O8: outside LZW the step is the one of `engineOp_of_st`, in LZW the first of the five whose condition
holds. -/
theorem engineStepSelection : Obligations.EngineStepSelection := by
  unfold Obligations.EngineStepSelection
  intro s
  obtain ⟨hidle, hident, hhdr, htag, hext, himg, hdrain, hcommit, hfinish⟩ := engineOp_of_st (s := s)
  refine ⟨hidle, hident, hhdr, htag, hext, himg, fun hst => ?_, hdrain, hcommit, hfinish⟩
  refine ⟨engineOp_of_image_done hst, fun hpix hsp => ?_, fun hpix hsp hshort hcount => ?_,
    fun hpix hsp hshort hcount => ?_, fun hpix hsp hbits => ?_⟩
  · exact engineOp_of_stack hst hpix fun h => by simp [h] at hsp
  · rw [engineOp_of_stack_empty hst hpix hsp, if_pos hshort, if_pos hcount]
  · rw [engineOp_of_stack_empty hst hpix hsp, if_pos hshort, if_neg hcount]
  · rw [engineOp_of_stack_empty hst hpix hsp, if_neg (Nat.not_lt.2 hbits)]

/-! ### LZW_COMPLETE and FETCH_LEN (R241, R242) -/

/-- Settles O38: it is `execLzwComplete`. -/
theorem lzwCompletes : Obligations.LzwCompletes := by
  unfold Obligations.LzwCompletes
  intro s
  rw [exec, execLzwComplete]

/-- The zero length ends the code data (R249). -/
theorem startSubBlock_zero (s : State) :
    startSubBlock 0 s = .go () { s with lzw := { s.lzw with termSeen := true }, st := .drain } :=
  if_pos rfl

/-- A sub-block whose bytes are there is counted. -/
theorem startSubBlock_of_le (hb : b ≠ 0) (h : s.pos.toNat + b.toNat ≤ s.inLen.toNat) :
    startSubBlock b s = .go () { s with lzw := { s.lzw with count := b } } := by
  rw [startSubBlock, if_neg hb, need_of_le h, andThen_go]

/-- A sub-block that is cut off raises. -/
theorem startSubBlock_of_lt (hb : b ≠ 0) (h : s.inLen.toNat < s.pos.toNat + b.toNat) :
    startSubBlock b s = .ended (anomaly .truncatedStream s) := by
  rw [startSubBlock, if_neg hb, need_of_lt h, andThen_ended, raise]

theorem exec_fetchLen_of_le (h : s.inLen.toNat ≤ s.pos.toNat) :
    exec .fetchLen s = .next (anomaly .truncatedStream s) := by
  rw [exec, execFetchLen, readByte_of_le h, andThen_ended, result_ended, raise]

theorem exec_fetchLen_of_lt (h : s.pos.toNat < s.inLen.toNat) :
    exec .fetchLen s = (startSubBlock (s.inByte s.pos.toNat) (s.advance 1)).result := by
  rw [exec, execFetchLen, readByte_andThen_of_lt _ h]

/-- Settles O39: with its byte read, the step is `startSubBlock` on that byte. -/
theorem fetchLenReadsSubBlock : Obligations.FetchLenReadsSubBlock := by
  unfold Obligations.FetchLenReadsSubBlock
  refine fun s => ⟨exec_fetchLen_of_le, fun hlt => ?_⟩
  have hpos : (s.advance 1).pos.toNat = s.pos.toNat + 1 := advance_pos_toNat hlt
  rw [exec_fetchLen_of_lt hlt]
  refine ⟨fun hzero => ?_, fun hlen hthere => ?_, fun hlen hcut => ?_⟩
  · rw [hzero, startSubBlock_zero, result_go, advance_eq]; rfl
  · rw [startSubBlock_of_le hlen (by rw [hpos]; exact hthere), result_go, advance_eq]; rfl
  · rw [startSubBlock_of_lt hlen (by rw [hpos]; exact hcut), result_ended, advance_eq]; rfl

/-! ### FETCH_BYTE (R243) -/

theorem exec_fetchByte_of_le (h : s.inLen.toNat ≤ s.pos.toNat) :
    exec .fetchByte s = .next (anomaly .truncatedStream s) := by
  rw [exec, execFetchByte, readByte_of_le h, andThen_ended, result_ended, raise]

theorem exec_fetchByte_of_lt (h : s.pos.toNat < s.inLen.toNat) :
    exec .fetchByte s = .next (takeByte (s.inByte s.pos.toNat) (s.advance 1)) := by
  rw [exec, execFetchByte, readByte_andThen_of_lt _ h, result_go]

/-- A byte above n bits of an accumulator makes n + 8 bits of it. -/
theorem add_byte_lt {d n : Nat} (hd : d < 2 ^ n) (b : Byte) : d + b.toNat * 2 ^ n < 2 ^ (n + 8) := by
  have hb : (b.toNat + 1) * 2 ^ n ≤ 2 ^ 8 * 2 ^ n := Nat.mul_le_mul_right _ b.isLt
  rw [Nat.add_mul] at hb
  rw [pow_add, mul_comm (2 ^ n)]
  omega

/-- The accumulator after a byte, whose at most 19 bits the 32 bits of DATUM hold (R245). -/
theorem takeByte_datum_toNat (hbits : s.lzw.bits.toNat ≤ 11) (hdatum : s.lzw.datum.toNat < 2 ^ s.lzw.bits.toNat)
    (b : Byte) :
    (takeByte b s).lzw.datum.toNat = s.lzw.datum.toNat + b.toNat * 2 ^ s.lzw.bits.toNat := by
  have hle : 2 ^ (s.lzw.bits.toNat + 8) ≤ 2 ^ 32 := Nat.pow_le_pow_right (by decide) (by omega)
  exact Nat.mod_eq_of_lt ((add_byte_lt hdatum b).trans_le hle)

/-- No bit of the byte meets a bit already held, so the sum is a bitwise or (R243). -/
theorem takeByte_datum (hbits : s.lzw.bits.toNat ≤ 11) (hdatum : s.lzw.datum.toNat < 2 ^ s.lzw.bits.toNat) (b : Byte) :
    (takeByte b s).lzw.datum = s.lzw.datum ||| (b.zeroExtend 32 <<< s.lzw.bits.toNat) := by
  have hsum := takeByte_datum_toNat hbits hdatum b
  have hlt := (takeByte b s).lzw.datum.isLt
  have hshift : (b.zeroExtend 32 <<< s.lzw.bits.toNat).toNat = b.toNat <<< s.lzw.bits.toNat := by
    rw [BitVec.toNat_shiftLeft, BitVec.toNat_setWidth_of_le (by decide), Nat.shiftLeft_eq, Nat.mod_eq_of_lt (by omega)]
  apply BitVec.eq_of_toNat_eq
  rw [hsum, BitVec.toNat_or, hshift, Nat.or_comm, ← Nat.shiftLeft_add_eq_or_of_lt hdatum, Nat.shiftLeft_eq, Nat.add_comm]

theorem takeByte_bits_toNat (hbits : s.lzw.bits.toNat ≤ 11) (b : Byte) :
    (takeByte b s).lzw.bits.toNat = s.lzw.bits.toNat + 8 :=
  Nat.mod_eq_of_lt (by omega)

theorem takeByte_count_toNat (s : State) (b : Byte) :
    (takeByte b s).lzw.count.toNat = s.lzw.count.toNat - 1 :=
  Nat.mod_eq_of_lt (by omega)

/-- Settles O41: with its byte read, the step is `takeByte`. -/
theorem fetchByteFillsAccumulator : Obligations.FetchByteFillsAccumulator := by
  unfold Obligations.FetchByteFillsAccumulator
  refine fun s => ⟨exec_fetchByte_of_le, fun hlt hbits hdatum _ => ?_⟩
  refine ⟨_, exec_fetchByte_of_lt hlt, ?_, ?_, ?_, ?_, ?_⟩
  · rw [takeByte, advance_eq]; rfl
  · exact takeByte_datum (s := s.advance 1) hbits hdatum _
  · rw [takeByte_datum_toNat (s := s.advance 1) hbits hdatum, takeByte_bits_toNat (s := s.advance 1) hbits]
    exact add_byte_lt hdatum _
  · exact takeByte_bits_toNat (s := s.advance 1) hbits _
  · exact takeByte_count_toNat (s.advance 1) _

/-! ### DECODE (R244, R260) -/

theorem codeOf_classify (r : CodeRegs) (c : BitVec 12) : codeOf (classify r c) = some c := by
  unfold classify
  split_ifs <;> rfl

/-- The eight rows that carry a code. -/
theorem mem_rows_of_codeOf (h : codeOf i = some c) :
    i ∈ [.invalid c, .eoi c, .clear c, .first c, .firstBad c, .full c, .kwkwk c, .dict c] := by
  cases i <;> simp_all [codeOf]

/-- A row that carries a code and whose class conditions hold is the class of that code. -/
theorem classify_of_codeOf {r : CodeRegs} (hfits : i.fitsCode r = true) (hcode : codeOf i = some c) :
    classify r c = i :=
  (classify_of_fits hfits (mem_rows_of_codeOf hcode)).2

/-- The DECODE step is the row of the class of its code. -/
theorem exec_decodeCode (s : State) : exec .decodeCode s = exec (classify s.codeRegs s.topCode) s :=
  (exec_classify s s.topCode).symm

/-! On an empty stack every class completes: FIRST pushes one index, and the stack has room for the string of a code of a
sound dictionary (R274), with KWKWK's one index below it. -/

/-- The state with v as the only index on the stack (R270). -/
def pushedOne (v : Byte) (s : State) : State :=
  { s with stack := writeCell s.stack 0 v, lzw := { s.lzw with sp := 1 } }

theorem push_of_empty (h : s.lzw.sp = 0) (v : Byte) : push v s = .go () (pushedOne v s) := by
  rw [push_of_lt (by simp [h]), h]; rfl

theorem pushedOne_stackAt_zero (v : Byte) (s : State) : (pushedOne v s).stackAt 0 = v :=
  readCell_writeCell_self _ _

theorem firstCode_completes (hsp : s.lzw.sp = 0) (c : BitVec 12) : ∃ t, firstCode c s = .go () t := by
  rw [firstCode, push_of_empty hsp, andThen_go]
  exact ⟨_, rfl⟩

theorem dictCode_completes (h : DictionarySound s) (hsp : s.lzw.sp = 0) (hold : s.lzw.oldValid = true)
    (hav : s.lzw.avail.toNat < 4096) (hk : Known s c.toNat) : ∃ t, dictCode c s = .go () t := by
  have hempty : s.lzw.sp.toNat = 0 := by rw [hsp]; rfl
  have hsize := h.clear
  have hliterals := literals_bounds h.dataSize
  have hlt := hk.1
  have hroom : s.lzw.sp.toNat + max 1 (c.toNat - s.lzw.clear.toNat) ≤ 4091 := by omega
  obtain ⟨t, ht, -⟩ := dictionarySound_extended h hk (v := s) rfl hroom h.stackIndices hold hav ⟨hlt.le, hk.2⟩
  exact ⟨t, ht⟩

theorem kwkwkCode_completes (h : DictionarySound s) (hsp : s.lzw.sp = 0) (hold : s.lzw.oldValid = true)
    (hav : s.lzw.avail.toNat < 4096)
    (hc : c.toNat ≤ s.lzw.avail.toNat ∧ c.toNat ≠ s.lzw.clear.toNat ∧ c.toNat ≠ s.lzw.eoi.toNat) :
    ∃ t, kwkwkCode c s = .go () t := by
  have hsize := h.clear
  have hliterals := literals_bounds h.dataSize
  have hk : Known s s.lzw.oldCode.toNat := h.oldCode hold
  have hlt := hk.1
  have hroom : 1 + max 1 (s.lzw.oldCode.toNat - s.lzw.clear.toNat) ≤ 4091 := by omega
  have hstack : ∀ j < 1, ((pushedOne s.lzw.first s).stackAt j).toNat < s.lzw.clear.toNat := by
    intro j hj
    rw [Nat.lt_one_iff.1 hj, pushedOne_stackAt_zero]
    exact h.first
  obtain ⟨t, ht, -⟩ :=
    dictionarySound_extended (v := pushedOne s.lzw.first s) h hk rfl hroom hstack hold hav hc
  exact ⟨t, by rw [kwkwkCode, push_of_empty hsp, andThen_go]; exact ht⟩

/-- A rule that goes on has not stopped. -/
theorem meets_of_go {m : Flow Unit} (h : ∃ t, m = .go () t) : Meets m (fun _ _ => True) (fun _ => True) := by
  obtain ⟨t, rfl⟩ := h
  trivial

/-- R260: no class stops the machine. -/
theorem classifyCode_meets (h : DictionarySound s) (hsp : s.lzw.sp = 0) (c : BitVec 12) :
    Meets (classifyCode c s) (fun _ _ => True) (fun _ => True) := by
  have hav := avail_le h
  unfold classifyCode
  split_ifs with hinvalid heoi hclear hold hfirst hfull hkwkwk
  · trivial
  · trivial
  · trivial
  · exact meets_of_go (firstCode_completes hsp c)
  · trivial
  · trivial
  · exact meets_of_go (kwkwkCode_completes h hsp (Bool.eq_true_of_not_eq_false hold) (by omega)
      ⟨by omega, hclear, heoi⟩)
  · exact meets_of_go (dictCode_completes h hsp (Bool.eq_true_of_not_eq_false hold) (by omega)
      ⟨by omega, hclear, heoi⟩)

theorem exec_decodeCode_completes (h : DictionarySound s) (hsp : s.lzw.sp = 0)
    (hbits : s.lzw.codeSize.toNat ≤ s.lzw.bits.toNat) : ∃ t, exec .decodeCode s = .next t := by
  obtain ⟨t, ht, -⟩ := result_of_meets (classifyCode_meets (dictionarySound_dropCode h hbits) hsp s.topCode)
  exact ⟨t, ht⟩

/-- Settles O42: the step is the row that `classify` finds, and a row whose class conditions hold is that one. -/
theorem decodeStepRunsClass : Obligations.DecodeStepRunsClass := by
  unfold Obligations.DecodeStepRunsClass
  refine fun s hmask hbits => ⟨topCode_toNat hmask, dropCode_spec hbits, fun _ i hfits hcode => ?_, fun hsound hsp => ?_⟩
  · rw [exec_decodeCode, classify_of_codeOf hfits hcode]
  · obtain ⟨t, ht⟩ := exec_decodeCode_completes hsound hsp hbits
    exact ⟨classify s.codeRegs s.topCode, t, classify_fits (topCode_and_mask s) (avail_le hsound),
      codeOf_classify _ _, ht, (exec_decodeCode s).symm.trans ht⟩

end Sys2Proof.Proofs
end

section
/-!
PROOFS. The code classes (spec/45_lzw_codes.md, family 45_lzw_codes): the classes that push nothing, FIRST's literal, and
the string that a DICT or a KWKWK code pushes before it adds an entry to the dictionary.
-/
namespace Sys2Proof.Proofs
open Sys2Proof Sys2Proof.Machine Sys2Proof.Laws

variable {s t v : State} {c : BitVec 12} {x : Nat} {stack : Cells Byte} {sp : BitVec 13}

/-! ### The classes that push nothing (R261 to R263, R265, R266) -/

/-- A DATA_SIZE of at most 8 and its CLEAR fit the registers that `ClearCode()` makes of them. -/
theorem clearCode_sizes (hsize : s.lzw.dataSize.toNat ≤ 8) (hclear : s.lzw.clear.toNat ≤ 256) :
    (clearCode s).lzw.codeSize.toNat = s.lzw.dataSize.toNat + 1 ∧
      (clearCode s).lzw.codeMask.toNat = 2 ^ (s.lzw.dataSize.toNat + 1) - 1 ∧
      (clearCode s).lzw.avail.toNat = s.lzw.clear.toNat + 2 :=
  ⟨Nat.mod_eq_of_lt (by omega), maskOf_toNat (by omega), Nat.mod_eq_of_lt (by omega)⟩

/-- Settles O43: each of these rows is written out in `exec`, and CLEAR is `clearCode`. -/
theorem codesThatPushNothing : Obligations.CodesThatPushNothing := by
  unfold Obligations.CodesThatPushNothing
  refine fun s c => ⟨rfl, rfl, rfl, rfl, fun hsize hclear => ⟨clearCode (dropCode s), rfl, rfl, ?_⟩⟩
  exact clearCode_sizes (s := dropCode s) hsize hclear

/-! ### FIRST (R264) -/

theorem pushedOne_stackAt_of_ne {k : Nat} (hk : k ≠ 0) (v : Byte) (s : State) :
    (pushedOne v s).stackAt k = s.stackAt k :=
  readCell_writeCell_ne hk v

theorem exec_first_of_empty (hsp : s.lzw.sp = 0) (c : BitVec 12) :
    exec (.first c) s =
      let t := pushedOne (s.suffixOf c.toNat) (dropCode s)
      .next { t with lzw := { t.lzw with oldCode := c, oldValid := true, first := c.setWidth 8 } } := by
  rw [exec, execFirst, firstCode, push_of_empty (s := dropCode s) hsp, andThen_go, result_go, BitVec.ofNat_toNat]
  rfl

/-- Settles O44: the one push goes to the stack's entry 0. -/
theorem firstCodeIsPushed : Obligations.FirstCodeIsPushed := by
  unfold Obligations.FirstCodeIsPushed
  intro s c hsp
  refine ⟨_, exec_first_of_empty hsp c, rfl, ?_, fun k hk => ?_⟩
  · exact pushedOne_stackAt_zero (s.suffixOf c.toNat) (dropCode s)
  · exact pushedOne_stackAt_of_ne hk (s.suffixOf c.toNat) (dropCode s)

/-! ### The stack from its top -/

/-- The state with another pixel stack. -/
def withStack (stack : Cells Byte) (sp : BitVec 13) (s : State) : State :=
  { s with stack := stack, lzw := { s.lzw with sp := sp } }

theorem stackTopDown_congr (hstack : t.stack = s.stack) (hsp : t.lzw.sp = s.lzw.sp) (hr : t.resets = s.resets) :
    t.stackTopDown = s.stackTopDown := by
  unfold State.stackTopDown
  rw [hsp, show t.stackAt = s.stackAt from funext (stackAt_congr hstack hr)]

theorem stackTopDown_of_empty (h : s.lzw.sp = 0) : s.stackTopDown = [] := by
  simp [State.stackTopDown, h]

theorem pushedOne_stackTopDown (b : Byte) (s : State) : (pushedOne b s).stackTopDown = [b] :=
  congrArg (fun w => [w]) (pushedOne_stackAt_zero b s)

/-- The indices w above those of v's stack. -/
theorem stackTopDown_append {w : List Byte} (hsp : t.lzw.sp.toNat = v.lzw.sp.toNat + w.length)
    (htop : ∀ k, (hk : k < w.length) → t.stackAt (t.lzw.sp.toNat - 1 - k) = w[k])
    (hbelow : ∀ i < v.lzw.sp.toNat, t.stackAt i = v.stackAt i) : t.stackTopDown = w ++ v.stackTopDown := by
  have hlen : v.stackTopDown.length = v.lzw.sp.toNat := by simp [State.stackTopDown]
  refine stackTopDown_eq (by rw [List.length_append, hlen]; omega) fun k hk => ?_
  rw [List.length_append, hlen] at hk
  rcases Nat.lt_or_ge k w.length with hlt | hge
  · rw [List.getElem_append_left hlt, htop k hlt]
  · rw [List.getElem_append_right hge, hbelow _ (by omega)]
    simp only [State.stackTopDown, List.getElem_map, List.getElem_reverse, List.getElem_range, List.length_range]
    congr 1
    omega

/-! ### The string of a known code, and the entry after it (R267 to R269, R271 to R273) -/

/-- R269: on a stack with room for it, the string of a known code is pushed and its first index is FIRST. -/
theorem unwind_withStack (h : DictionarySound s) (hk : Known s x)
    (hroom : sp.toNat + max 1 (x - s.lzw.clear.toNat) ≤ 4096) :
    ∃ stack' sp' f rest,
      unwind x (withStack stack sp (dropCode s)) =
        .go () (withStack stack' sp' { dropCode s with lzw := { (dropCode s).lzw with first := f } }) ∧
      s.stringOf x = f :: rest ∧
      (withStack stack' sp' s).stackTopDown = f :: rest ++ (withStack stack sp s).stackTopDown := by
  have hlt : x < 4096 := hk.1.trans_le (avail_le h)
  have hlen : (s.stringOf x).length ≤ max 1 (x - s.lzw.clear.toNat) := codeString_length h hk
  have hstr : (withStack stack sp (dropCode s)).stringOf x = s.stringOf x :=
    stringOf_congr (s := s) (t := withStack stack sp (dropCode s)) rfl rfl rfl rfl x
  obtain ⟨t, f, rest, hgo, hfr, -, ht, hsp, htop, hbelow⟩ :=
    unwind_string (s := withStack stack sp (dropCode s)) (closed_known (s := s) h) hk hlt
      (by rw [hstr]; exact (Nat.add_le_add_left hlen _).trans hroom)
  refine ⟨t.stack, t.lzw.sp, f, rest, hgo.trans (congrArg (Flow.go ()) ht), hstr.symm.trans hfr, ?_⟩
  have hresets : t.resets = s.resets := congrArg (·.resets) ht
  calc
    (withStack t.stack t.lzw.sp s).stackTopDown
    _ = t.stackTopDown := stackTopDown_congr rfl rfl hresets.symm
    _ = f :: rest ++ (withStack stack sp (dropCode s)).stackTopDown := stackTopDown_append hsp htop hbelow
    _ = f :: rest ++ (withStack stack sp s).stackTopDown := rfl

/-- R271 to R273: with FIRST = f the entry added to a dictionary that is not full is (OLD_CODE, f). -/
theorem entryAdded_extendDictionary (h : DictionarySound s) (hav : s.lzw.avail.toNat < 4096) (f : Byte)
    (c : BitVec 12) :
    let v := withStack stack sp { dropCode s with lzw := { (dropCode s).lzw with first := f } }
    entryAdded s (extendDictionary c v) c f ∧
      (extendDictionary c v).stackTopDown = (withStack stack sp s).stackTopDown := by
  intro v
  have hroom := h.availHigh
  obtain ⟨t, rfl, ht, -, -, hprefix, hsuffix, havail, hsize, hmask⟩ :=
    extendDictionary_spec (s := v) (c := c) h.codeSize h.codeMask (hroom.resolve_right (by omega))
  have hstack : (extendDictionary c v).stack = stack := congrArg (·.stack) ht
  have hsp : (extendDictionary c v).lzw.sp = sp := congrArg (·.lzw.sp) ht
  have hresets : (extendDictionary c v).resets = v.resets := congrArg (·.resets) ht
  refine ⟨⟨?_, hprefix, hsuffix, havail, hsize, hmask⟩, stackTopDown_congr hstack hsp hresets⟩
  rw [hstack, hsp]
  exact ht

/-- What a DICT and a KWKWK code have in common: the string of a known code x goes above what the stack holds, and the
dictionary is extended. -/
theorem unwind_extendDictionary (h : DictionarySound s) (hav : s.lzw.avail.toNat < 4096) (hk : Known s x)
    (hroom : sp.toNat + max 1 (x - s.lzw.clear.toNat) ≤ 4096) (c : BitVec 12) :
    ∃ t f rest,
      ((unwind x (withStack stack sp (dropCode s))).andThen fun _ s => .go () (extendDictionary c s)) = .go () t ∧
      s.stringOf x = f :: rest ∧ t.stackTopDown = f :: rest ++ (withStack stack sp s).stackTopDown ∧
      entryAdded s t c f := by
  obtain ⟨stack', sp', f, rest, hgo, hfr, hstack⟩ := unwind_withStack (stack := stack) h hk hroom
  obtain ⟨hentry, htop⟩ := entryAdded_extendDictionary (stack := stack') (sp := sp') h hav f c
  exact ⟨_, f, rest, by rw [hgo, andThen_go], hfr, htop.trans hstack, hentry⟩

/-- The string of a known code leaves room on the stack for one index more (R274). -/
theorem stack_room_of_known (h : DictionarySound s) (hk : Known s x) : 1 + max 1 (x - s.lzw.clear.toNat) ≤ 4096 := by
  have hsize := h.clear
  have hliterals := literals_bounds h.dataSize
  have hav := avail_le h
  have hlt := hk.1
  omega

/-! ### DICT (R268) -/

/-- R118: a DICT code has a string, and the dictionary is not full. -/
theorem known_of_fitsCode_dict (h : Instr.fitsCode s.codeRegs (.dict c) = true) :
    Known s c.toNat ∧ s.lzw.avail.toNat < 4096 := by
  simp only [Instr.fitsCode, Instr.fitsCode.plain, Bool.and_eq_true, decide_eq_true_eq] at h
  obtain ⟨⟨⟨-, -, heoi, hclear⟩, -⟩, hlt, hav⟩ := h
  exact ⟨⟨hlt, hclear, heoi⟩, hav⟩

/-- Settles O45: the string of the code itself goes on the empty stack. -/
theorem dictCodePushesString : Obligations.DictCodePushesString := by
  unfold Obligations.DictCodePushesString
  intro s c h hsp hfits
  obtain ⟨hk, hav⟩ := known_of_fitsCode_dict hfits
  have hempty : (withStack s.stack s.lzw.sp s).stackTopDown = [] := stackTopDown_of_empty hsp
  obtain ⟨t, f, rest, hgo, hfr, htop, hentry⟩ :=
    unwind_extendDictionary (stack := s.stack) (sp := s.lzw.sp) h hav hk
      ((Nat.add_le_add_right (by simp [hsp]) _).trans (stack_room_of_known h hk)) c
  rw [hempty, List.append_nil] at htop
  refine ⟨t, f, rest, ?_, hfr, htop, hentry⟩
  rw [exec, execDict, dictCode]
  exact congrArg Flow.result hgo

/-! ### KWKWK (R267) -/

/-- R118: before a KWKWK code there is a code, and the dictionary is not full. -/
theorem oldValid_of_fitsCode_kwkwk (h : Instr.fitsCode s.codeRegs (.kwkwk c) = true) :
    s.lzw.oldValid = true ∧ s.lzw.avail.toNat < 4096 := by
  simp only [Instr.fitsCode, Bool.and_eq_true, decide_eq_true_eq] at h
  obtain ⟨⟨-, hold⟩, -, hav⟩ := h
  exact ⟨hold, hav⟩

/-- Settles O46: FIRST goes on the empty stack and the string of OLD_CODE above it. -/
theorem kwkwkCodePushesString : Obligations.KwkwkCodePushesString := by
  unfold Obligations.KwkwkCodePushesString
  intro s c h hsp hfits
  obtain ⟨hold, hav⟩ := oldValid_of_fitsCode_kwkwk hfits
  have hk : Known s s.lzw.oldCode.toNat := h.oldCode hold
  obtain ⟨t, f, rest, hgo, hfr, htop, hentry⟩ :=
    unwind_extendDictionary (stack := (pushedOne s.lzw.first s).stack) (sp := 1) h hav hk (stack_room_of_known h hk) c
  have hone : (withStack (pushedOne s.lzw.first s).stack 1 s).stackTopDown = [s.lzw.first] :=
    pushedOne_stackTopDown s.lzw.first s
  rw [hone] at htop
  refine ⟨t, f, rest, ?_, hfr, htop, hentry⟩
  rw [exec, execKwkwk, kwkwkCode, push_of_empty (s := dropCode s) hsp, andThen_go]
  exact congrArg Flow.result hgo

end Sys2Proof.Proofs
end

section
/-!
PROOFS. The pixels of an image and its end (spec/46_pixel_output.md, family 46_pixel_output): the four bytes that EMIT
writes and the placement it advances, the drain of what is left of the code stream, and the frame's record with the
fields of its STAT.
-/
namespace Sys2Proof.Proofs
open Sys2Proof Sys2Proof.Machine Sys2Proof.Laws

variable {s : State} {groups : List (List Byte)}

/-- A register counts up modulo its width (R11). -/
theorem ofNat_toNat_add {w : Nat} (x : BitVec w) (n : Nat) : BitVec.ofNat w (x.toNat + n) = x + BitVec.ofNat w n := by
  rw [BitVec.ofNat_add, BitVec.ofNat_toNat, BitVec.setWidth_eq]

/-! ### EMIT (R290 to R294) -/

/-- The bytes of a pixel's value, in the order they are stored (R290). -/
theorem pixelValue_bytes (c : Rgb) (a : Byte) :
    BitVec.ofNat 8 (pixelValue c a / 256 ^ 0) = c.r ∧ BitVec.ofNat 8 (pixelValue c a / 256 ^ 1) = c.g ∧
      BitVec.ofNat 8 (pixelValue c a / 256 ^ 2) = c.b ∧ BitVec.ofNat 8 (pixelValue c a / 256 ^ 3) = a := by
  have hr := c.r.isLt
  have hg := c.g.isLt
  have hb := c.b.isLt
  have ha := a.isLt
  refine ⟨?_, ?_, ?_, ?_⟩ <;> apply BitVec.eq_of_toNat_eq <;> rw [BitVec.toNat_ofNat, pixelValue] <;> omega

/-- A byte of a memory with a pixel's four bytes stored at p. -/
theorem readCell_writePixel {d : Byte} {m : Memory} (p : Nat) (c : Rgb) (alpha : Byte) (a : Nat) :
    readCell d (m.writeBytes p 4 (pixelValue c alpha)) a =
      if a = p then c.r else if a = p + 1 then c.g else if a = p + 2 then c.b else if a = p + 3 then alpha
      else readCell d m a := by
  obtain ⟨hr, hg, hb, halpha⟩ := pixelValue_bytes c alpha
  rw [readCell_writeBytes]
  by_cases hin : p ≤ a ∧ a < p + 4
  · rw [if_pos hin]
    obtain rfl | rfl | rfl | rfl : a = p ∨ a = p + 1 ∨ a = p + 2 ∨ a = p + 3 := by omega
    · rw [Nat.sub_self, hr, if_pos rfl]
    · rw [Nat.add_sub_cancel_left, hg, if_neg (by omega), if_pos rfl]
    · rw [Nat.add_sub_cancel_left, hb, if_neg (by omega), if_neg (by omega), if_pos rfl]
    · rw [Nat.add_sub_cancel_left, halpha, if_neg (by omega), if_neg (by omega), if_neg (by omega), if_pos rfl]
  · rw [if_neg hin, if_neg (by omega), if_neg (by omega), if_neg (by omega), if_neg (by omega)]

/-- The state EMIT leaves, its pixel inside OUTBUF (R290). -/
def emitted (s : State) : State :=
  { s with
    lzw := { s.lzw with sp := s.lzw.sp - 1 },
    status := { s.status with wIdx := s.status.wIdx || s.outsideTable s.topIndex },
    outbuf := s.outbuf.writeBytes s.pixelAddr 4 (pixelValue (s.lookup s.topIndex) (s.alpha s.topIndex)),
    place := { s.advancePlace with pix := BitVec.ofNat 32 (s.place.pix.toNat + 1) } }

theorem exec_emit_of_le (h : s.pixelAddr + 4 ≤ s.cfg.outCap) (hsp : 0 < s.lzw.sp.toNat) :
    exec .emit s = .next (emitted s) := by
  have hpop : BitVec.ofNat 13 (s.lzw.sp.toNat - 1) = s.lzw.sp - 1 := by
    rw [← BitVec.ofNat_sub_ofNat_of_le _ 1 (by decide) hsp, BitVec.ofNat_toNat, BitVec.setWidth_eq]
    rfl
  rw [exec, execEmit, if_neg (Nat.not_lt.2 h), hpop]
  rfl

theorem emitted_outByte (a : Nat) :
    (emitted s).outByte a =
      if a = s.pixelAddr then (s.lookup s.topIndex).r else if a = s.pixelAddr + 1 then (s.lookup s.topIndex).g
      else if a = s.pixelAddr + 2 then (s.lookup s.topIndex).b else if a = s.pixelAddr + 3 then s.alpha s.topIndex
      else s.outByte a :=
  readCell_writePixel s.pixelAddr (s.lookup s.topIndex) (s.alpha s.topIndex) a

theorem emitted_pix_toNat (h : s.place.pix.toNat < s.img.total.toNat) :
    (emitted s).place.pix.toNat = s.place.pix.toNat + 1 :=
  ofNat32_toNat (Nat.lt_of_le_of_lt h s.img.total.isLt)

/-! Where the next pixel goes (R294). -/

theorem advancePlace_of_lt (h : s.place.x.toNat + 1 < s.img.w.toNat) :
    s.advancePlace = { s.place with x := BitVec.ofNat 16 (s.place.x.toNat + 1) } :=
  if_neg (Nat.ne_of_lt h)

theorem advancePlace_of_row_end (h : s.place.x.toNat + 1 = s.img.w.toNat) (hil : s.img.il = false) :
    s.advancePlace = { s.place with x := 0, row := s.place.row + 1 } := by
  rw [State.advancePlace, if_pos h, if_neg (by simp [hil]), ofNat_toNat_add]
  rfl

theorem advancePlace_of_interlaced_row_end (h : s.place.x.toNat + 1 = s.img.w.toNat) (hil : s.img.il = true) :
    s.advancePlace =
      { s.place with
        x := 0, pass := (nextInterlacedRow s.img.h.toNat s.place.pass s.place.row).1,
        row := (nextInterlacedRow s.img.h.toNat s.place.pass s.place.row).2 } := by
  rw [State.advancePlace, if_pos h, if_pos hil]

theorem emitted_place_of_lt (h : s.place.x.toNat + 1 < s.img.w.toNat) :
    (emitted s).place.x.toNat = s.place.x.toNat + 1 ∧ (emitted s).place.row = s.place.row ∧
      (emitted s).place.pass = s.place.pass := by
  rw [emitted, advancePlace_of_lt h]
  exact ⟨Nat.mod_eq_of_lt (h.trans s.img.w.isLt), rfl, rfl⟩

theorem emitted_place_of_row_end (h : s.place.x.toNat + 1 = s.img.w.toNat) :
    (emitted s).place.x = 0 ∧
      (s.img.il = false →
        (emitted s).place.row = s.place.row + 1 ∧ (emitted s).place.pass = s.place.pass) ∧
      (s.img.il = true →
        ((emitted s).place.pass, (emitted s).place.row) =
          nextInterlacedRow s.img.h.toNat s.place.pass s.place.row) := by
  cases hil : s.img.il with
  | false =>
    rw [emitted, advancePlace_of_row_end h hil]
    exact ⟨rfl, fun _ => ⟨rfl, rfl⟩, nofun⟩
  | true =>
    rw [emitted, advancePlace_of_interlaced_row_end h hil]
    exact ⟨rfl, nofun, fun _ => rfl⟩

/-- Settles O47: the state is `emitted`, whose parts have their own lemmas. -/
theorem emitWritesPixel : Obligations.EmitWritesPixel := by
  unfold Obligations.EmitWritesPixel
  intro s hfits hsp hpix _
  exact ⟨emitted s, exec_emit_of_le hfits hsp, rfl, emitted_outByte, emitted_pix_toNat hpix, emitted_place_of_lt,
    emitted_place_of_row_end⟩

/-! ### DRAIN (R298, R299) -/

/-! What the stream holds is read from INBUF, below IN_LEN. -/

theorem inBytes_congr {t : State} (h : t.inbuf = s.inbuf) (hr : t.resets = s.resets) (a n : Nat) :
    t.inBytes a n = s.inBytes a n := by
  induction n generalizing a with
  | zero => rfl
  | succ n ih => rw [State.inBytes, State.inBytes, inByte_congr h hr, ih]

theorem holdsSubBlocks_congr {t : State} (h : t.inbuf = s.inbuf) (hr : t.resets = s.resets) (hlen : t.inLen = s.inLen)
    (a : Nat) : t.holdsSubBlocks a groups ↔ s.holdsSubBlocks a groups := by
  simp only [State.holdsSubBlocks, hlen, inBytes_congr h hr]

theorem cutsSubBlocks_congr {t : State} (h : t.inbuf = s.inbuf) (hr : t.resets = s.resets) (hlen : t.inLen = s.inLen)
    (a p : Nat) : t.cutsSubBlocks a groups p ↔ s.cutsSubBlocks a groups p := by
  simp only [State.cutsSubBlocks, hlen, inBytes_congr h hr, inByte_congr h hr]

/-- The state in which DRAIN starts to skip: past what is left of the current sub-block (R298). -/
def drainStart (s : State) : State := { s with lzw := { s.lzw with count := 0 } }.advance s.lzw.count.toNat

theorem drainStart_pos_toNat (h : s.pos.toNat + s.lzw.count.toNat ≤ s.inLen.toNat) :
    (drainStart s).pos.toNat = s.pos.toNat + s.lzw.count.toNat :=
  advance_pos_toNat (s := { s with lzw := { s.lzw with count := 0 } }) h

theorem exec_drain_of_terminated (h : s.lzw.termSeen = true) : exec .drain s = .next { s with st := .commit } :=
  if_pos h

theorem exec_drain_of_open (h : s.lzw.termSeen = false) :
    exec .drain s =
      ((skipSubBlocks (.anomaly .truncatedStream) (drainStart s)).andThen fun _ s =>
        .go () { s with lzw := { s.lzw with termSeen := true }, st := .commit }).result :=
  if_neg (by simp [h])

/-- A place where the stream holds sub-blocks, or is cut, is inside it; so DRAIN reaches it without wrapping. -/
theorem drainStart_holds (h : s.holdsSubBlocks (s.pos.toNat + s.lzw.count.toNat) groups) :
    (drainStart s).holdsSubBlocks (drainStart s).pos.toNat groups := by
  obtain ⟨-, hle, -⟩ := id h
  rw [drainStart_pos_toNat (by omega)]
  exact (holdsSubBlocks_congr (s := s) (t := drainStart s) rfl rfl rfl _).2 h

theorem drainStart_cuts {p : Nat} (h : s.cutsSubBlocks (s.pos.toNat + s.lzw.count.toNat) groups p) :
    (drainStart s).cutsSubBlocks (drainStart s).pos.toNat groups p := by
  obtain ⟨-, hle, -⟩ := id h
  rw [drainStart_pos_toNat (by omega)]
  exact (cutsSubBlocks_congr (s := s) (t := drainStart s) rfl rfl rfl _ _).2 h

theorem exec_drain_of_holds (hopen : s.lzw.termSeen = false)
    (h : s.holdsSubBlocks (s.pos.toNat + s.lzw.count.toNat) groups) :
    exec .drain s = .next
      { s with
        pos := s.pos + s.lzw.count.zeroExtend 32 + BitVec.ofNat 32 (groups.flatMap subBlock ++ [0]).length,
        lzw := { s.lzw with count := 0, termSeen := true }, st := .commit } := by
  rw [exec_drain_of_open hopen, skipSubBlocks_holds (drainStart_holds h), andThen_go, result_go, drainStart, advance_eq,
    advance_eq, BitVec.ofNat_toNat]

theorem exec_drain_of_cuts {p : Nat} (hopen : s.lzw.termSeen = false)
    (h : s.cutsSubBlocks (s.pos.toNat + s.lzw.count.toNat) groups p) :
    exec .drain s = .next
      (anomaly .truncatedStream { s with pos := BitVec.ofNat 32 p, lzw := { s.lzw with count := 0 } }) := by
  rw [exec_drain_of_open hopen, skipSubBlocks_cuts (drainStart_cuts h), andThen_ended, result_ended]
  rfl

/-- Settles O50: the three cases of what is left of the stream. -/
theorem drainSkipsStream : Obligations.DrainSkipsStream := by
  unfold Obligations.DrainSkipsStream
  exact fun _ _ => ⟨exec_drain_of_terminated, exec_drain_of_holds, fun _ => exec_drain_of_cuts⟩

/-! ### The fields of STAT (R32, R301) -/

theorem errKind_code_lt (k : ErrKind) : k.code < 16 := by
  cases k <;> decide

/-- The field of IDX: what stands there without a pending state is 0 (R301). -/
def statIdx (s : State) : Byte := if s.pend.valid = true then s.pend.idx else 0

/-- STAT's fields do not overlap and fit its 32 bits. -/
theorem frameStat_toNat (s : State) :
    s.frameStat.toNat =
      s.img.anom.code + 16 * s.shortFrame.toNat + 32 * s.img.il.toNat + 64 * s.img.loc.toNat
        + 128 * s.pend.valid.toNat + 256 * (statIdx s).toNat := by
  have hcode := errKind_code_lt s.img.anom
  have hshort := s.shortFrame.toNat_le
  have hil := s.img.il.toNat_le
  have hloc := s.img.loc.toNat_le
  have hvalid := s.pend.valid.toNat_le
  have hidx := (statIdx s).isLt
  have hfield : (if s.pend.valid then s.pend.idx.toNat else 0) = (statIdx s).toNat :=
    (apply_ite BitVec.toNat (s.pend.valid = true) s.pend.idx 0).symm
  rw [State.frameStat, hfield]
  exact ofNat32_toNat (by omega)

/-- A bit of a word is the digit there. -/
theorem getLsbD_eq_of_digit {x : Word} {k : Nat} {b : Bool} (h : x.toNat / 2 ^ k % 2 = b.toNat) : x.getLsbD k = b := by
  rw [← BitVec.testBit_toNat, Nat.testBit_eq_decide_div_mod_eq, h]
  cases b <;> rfl

/-- STAT is laid out as R32 says. -/
theorem frameStat_fields (s : State) :
    (s.frameStat.extractLsb' 0 4).toNat = s.img.anom.code ∧
      s.frameStat.getLsbD 4 = s.shortFrame ∧ s.frameStat.getLsbD 5 = s.img.il ∧
      s.frameStat.getLsbD 6 = s.img.loc ∧ s.frameStat.getLsbD 7 = s.pend.valid ∧
      s.frameStat.extractLsb' 8 8 = statIdx s ∧ s.frameStat.extractLsb' 16 16 = 0 := by
  have hstat := frameStat_toNat s
  have hcode := errKind_code_lt s.img.anom
  have hshort := s.shortFrame.toNat_le
  have hil := s.img.il.toNat_le
  have hloc := s.img.loc.toNat_le
  have hvalid := s.pend.valid.toNat_le
  have hidx := (statIdx s).isLt
  refine ⟨?_, getLsbD_eq_of_digit (by omega), getLsbD_eq_of_digit (by omega), getLsbD_eq_of_digit (by omega),
    getLsbD_eq_of_digit (by omega), BitVec.eq_of_toNat_eq ?_, BitVec.eq_of_toNat_eq ?_⟩
  · rw [BitVec.extractLsb'_toNat, Nat.shiftRight_zero]; omega
  · rw [BitVec.extractLsb'_toNat, Nat.shiftRight_eq_div_pow]; omega
  · rw [BitVec.extractLsb'_toNat, Nat.shiftRight_eq_div_pow, Nat.div_eq_of_lt (by omega)]; rfl

/-! ### COMMIT (R300, R302, R303) -/

theorem exec_commit_of_discarded (hanom : s.img.anom ≠ .none) (hpolicy : s.ctrl.policy = .discard) :
    exec .commit s = .next { s with pend := ⟨false, 0⟩, st := .tag } := by
  rw [exec, execCommit, commitFrame, if_pos ⟨hanom, hpolicy⟩]

/-- The state COMMIT leaves with the frame recorded (R300). -/
def recorded (s : State) : State :=
  { s with
    ft := writeCell s.ft s.frameCount.toNat s.frameRecord, frameCount := s.frameCount + 1,
    outUsed := s.outUsed + 4 * s.img.total, pend := ⟨false, 0⟩, st := .tag }

theorem exec_commit_of_recorded (h : s.img.anom = .none ∨ s.ctrl.policy ≠ .discard) :
    exec .commit s = .next (recorded s) := by
  have hused : BitVec.ofNat 32 (s.outUsed.toNat + 4 * s.img.total.toNat) = s.outUsed + 4 * s.img.total := by
    rw [ofNat_toNat_add, BitVec.ofNat_mul, BitVec.ofNat_toNat, BitVec.setWidth_eq]
    rfl
  rw [exec, execCommit, commitFrame, if_neg (by tauto), ofNat_toNat_add, hused]
  rfl

theorem recorded_frameAt_self (s : State) : (recorded s).frameAt s.frameCount.toNat = s.frameRecord :=
  readCell_writeCell_self _ _

theorem recorded_frameAt_of_ne {k : Nat} (h : k ≠ s.frameCount.toNat) : (recorded s).frameAt k = s.frameAt k :=
  readCell_writeCell_ne h _

/-- Settles O51: the record that is read back is `FrameRecord()`. -/
theorem commitRecordsFrame : Obligations.CommitRecordsFrame := by
  unfold Obligations.CommitRecordsFrame
  refine fun s => ⟨exec_commit_of_discarded, fun h => ⟨recorded s, exec_commit_of_recorded h, rfl, ?_, ?_⟩⟩
  · exact fun _ => recorded_frameAt_of_ne
  · rw [recorded_frameAt_self]
    exact ⟨rfl, rfl, rfl, frameStat_fields s⟩

end Sys2Proof.Proofs
end

section
/-!
PROOFS. The end of the frame sequence (spec/47_frame_sequence.md, family 47_frame_sequence): what the FINISH step
answers without a frame and with one.
-/
namespace Sys2Proof.Proofs
open Sys2Proof Sys2Proof.Machine Sys2Proof.Laws

variable {s : State}

/-- FINISH tests FRAME_COUNT's number, the statements its word. -/
theorem frameCount_toNat_eq_zero : s.frameCount.toNat = 0 ↔ s.frameCount = 0 :=
  BitVec.toNat_inj (y := 0)

/-- R330's first line, `raise Fatal(EmptyResult)`. -/
theorem exec_finish_of_no_frame (h : s.frameCount = 0) : exec .finish s = .next (fatal .emptyResult s) := by
  rw [exec, execFinish, if_pos (frameCount_toNat_eq_zero.2 h)]

/-- R330's second line, `Complete(0)`. -/
theorem exec_finish_of_frame (h : s.frameCount ≠ 0) : exec .finish s = .next (complete .none s) := by
  rw [exec, execFinish, if_neg (mt frameCount_toNat_eq_zero.1 h)]

/-- Settles O52: the state written out for a result with a frame is `complete .none s`, which writes none of the other
status bits. -/
theorem finishReportsResult : Obligations.FinishReportsResult := by
  unfold Obligations.FinishReportsResult
  exact fun s => ⟨exec_finish_of_no_frame, exec_finish_of_frame⟩

end Sys2Proof.Proofs
end

section
/-!
PROOFS. The two raises (spec/60_exceptions.md R404, R405, family 60_exceptions): what a fatal error saves and changes,
and what an anomaly does under each policy.
-/
namespace Sys2Proof.Proofs
open Sys2Proof Sys2Proof.Machine Sys2Proof.Laws

variable {k : ErrKind} {s : State}

/-- Settles O22: the state written out is `complete k` after the save of ERR_POS, as the rule's two lines have it
(R404), and neither writes any other register. -/
theorem fatalEndsCommand : Obligations.FatalEndsCommand := by
  unfold Obligations.FatalEndsCommand
  exact fun _ _ => rfl

theorem raise_anomaly_of_abort (h : s.ctrl.policy = .abort) : raise (.anomaly k) s = raise (.fatal k) s :=
  if_pos h

theorem raise_anomaly_of_ne_abort (h : s.ctrl.policy ≠ .abort) : raise (.anomaly k) s = endImage k s :=
  if_neg h

/-- A truncation leaves nothing of the stream to drain. -/
theorem endImage_of_truncatedStream (h : k = .truncatedStream) :
    (endImage k s).pos = s.inLen ∧ (endImage k s).lzw.termSeen = true ∧ (endImage k s).st = .commit :=
  ⟨if_pos h, if_pos h, if_pos h⟩

/-- After another kind the rest of the image's sub-blocks is drained from POS on. -/
theorem endImage_of_ne_truncatedStream (h : k ≠ .truncatedStream) :
    (endImage k s).pos = s.pos ∧ (endImage k s).lzw.termSeen = s.lzw.termSeen ∧ (endImage k s).st = .drain :=
  ⟨if_neg h, if_neg h, if_neg h⟩

/-- Settles O23: the policy selects the fatal error or `endImage`, and the kind what `endImage` does to the stream. -/
theorem anomalyFollowsPolicy : Obligations.AnomalyFollowsPolicy := by
  unfold Obligations.AnomalyFollowsPolicy
  refine fun k s => ⟨raise_anomaly_of_abort, fun hpolicy => ⟨endImage k s, raise_anomaly_of_ne_abort hpolicy, ?_⟩⟩
  exact ⟨endImage_img k s, endImage_errPos k s, endImage_status k s, rfl,
    endImage_of_truncatedStream, endImage_of_ne_truncatedStream, rfl⟩

end Sys2Proof.Proofs
end

section
/-!
PROOFS. The encodings (spec/30_encoding.md): the decoder's answer fits its place, and decoding and encoding undo each
other.
-/
namespace Sys2Proof.Proofs
open Sys2Proof Sys2Proof.Laws

variable {b : Byte} {bs : List Byte} {r : CodeRegs} {v : EngineView} {k : BitVec 12} {i : Instr}

/-- Settles O1: each word is decoded by evaluation. -/
theorem decodesWrittenWords : Obligations.DecodesWrittenWords := by
  unfold Obligations.DecodesWrittenWords
  decide

/-! ### Decode after encode -/

/-- Settles O2: each row has its round trip. -/
theorem decodeAfterEncode : Obligations.DecodeAfterEncode := by
  unfold Obligations.DecodeAfterEncode
  intro c i h
  cases i with
  | cmdNone => exact Roundtrip.cmdNone c h
  | identify => exact Roundtrip.identify c h
  | decode => exact Roundtrip.decode c h
  | illegalCmd op => exact Roundtrip.illegalCmd op c h
  | sigGif87 => exact Roundtrip.sigGif87 c h
  | sigGif89 => exact Roundtrip.sigGif89 c h
  | sigInvalid => exact Roundtrip.sigInvalid c h
  | hdrShort => exact Roundtrip.hdrShort c h
  | endOfBuffer => exact Roundtrip.endOfBuffer c h
  | extTag => exact Roundtrip.extTag c h
  | imageTag => exact Roundtrip.imageTag c h
  | trailer => exact Roundtrip.trailer c h
  | noise t => exact Roundtrip.noise t c h
  | gce => exact Roundtrip.gce c h
  | otherExt l => exact Roundtrip.otherExt l c h
  | subEnd => exact Roundtrip.subEnd c h
  | subData len => exact Roundtrip.subData len c h
  | dataSizeOk d => exact Roundtrip.dataSizeOk d c h
  | dataSizeBad d => exact Roundtrip.dataSizeBad d c h
  | invalid k => exact Roundtrip.invalid k c h
  | eoi k => exact Roundtrip.eoi k c h
  | clear k => exact Roundtrip.clear k c h
  | first k => exact Roundtrip.first k c h
  | firstBad k => exact Roundtrip.firstBad k c h
  | full k => exact Roundtrip.full k c h
  | kwkwk k => exact Roundtrip.kwkwk k c h
  | dict k => exact Roundtrip.dict k c h
  | ident => exact Roundtrip.ident c h
  | hdr => exact Roundtrip.hdr c h
  | tag => exact Roundtrip.tag c h
  | img => exact Roundtrip.img c h
  | lzwComplete => exact Roundtrip.lzwComplete c h
  | fetchLen => exact Roundtrip.fetchLen c h
  | fetchByte => exact Roundtrip.fetchByte c h
  | decodeCode => exact Roundtrip.decodeCode c h
  | emit => exact Roundtrip.emit c h
  | drain => exact Roundtrip.drain c h
  | commit => exact Roundtrip.commit c h
  | finish => exact Roundtrip.finish c h

/-! ### What is decoded fits -/

/-- At a place that reads its format, a row fits if its operand condition holds. -/
theorem fits_of_operand {p : Prop} [Decidable p] (h : p) : (decide p && true) = true := by
  rw [decide_eq_true h, Bool.and_self]

theorem fits_decodeCmd (w : Word) : (decodeCmd w).fits .cmd = true := by
  unfold decodeCmd
  split_ifs with h0 h1 h2
  · rfl
  · rfl
  · rfl
  · have hw : 3 ≤ w.toNat := by bv_omega
    exact fits_of_operand hw

/-- A byte string begins with one of the two signatures, or has none (R114). -/
theorem decodeSig_cases (bs : List Byte) :
    decodeSig bs = .sigGif87 ∨ decodeSig bs = .sigGif89 ∨ decodeSig bs = .sigInvalid := by
  unfold decodeSig
  split_ifs <;> simp

theorem fits_decodeSig (bs : List Byte) : (decodeSig bs).fits .ident = true := by
  rcases decodeSig_cases bs with h | h | h <;> rw [h] <;> rfl

theorem fits_decodeHeader (bs : List Byte) : (decodeHeader bs).fits .hdr = true := by
  unfold decodeHeader
  rcases decodeSig_cases bs with h | h | h <;> rw [h]
  · dsimp only
    split_ifs <;> rfl
  · dsimp only
    split_ifs <;> rfl
  · rfl

theorem fits_decodeTag (t : Byte) : (decodeTag t).fits .tag = true := by
  unfold decodeTag
  split_ifs with hext himage htrailer
  · rfl
  · rfl
  · rfl
  · exact fits_of_operand ⟨hext, himage, htrailer⟩

theorem fits_decodeBoundary (bs : List Byte) : (decodeBoundary bs).fits .tag = true := by
  cases bs with
  | nil => rfl
  | cons t _ => exact fits_decodeTag t

theorem fits_decodeLabel (l : Byte) : (decodeLabel l).fits .ext = true := by
  unfold decodeLabel
  split_ifs with h
  · rfl
  · exact fits_of_operand h

theorem fits_decodeSub (l : Byte) : (decodeSub l).fits .sub = true := by
  unfold decodeSub
  split_ifs with h
  · rfl
  · exact fits_of_operand h

theorem fits_decodeDataSize (d : Byte) : (decodeDataSize d).fits .lzws = true := by
  unfold decodeDataSize
  split_ifs with h
  · exact fits_of_operand h
  · have hd : 2 ≤ d.toNat ∧ d.toNat ≤ 8 := by omega
    exact fits_of_operand hd

/-- A code row has no condition but its class's. -/
theorem wf_classify (r : CodeRegs) (k : BitVec 12) : (classify r k).wf = true := by
  unfold classify
  split_ifs <;> rfl

/-- The low CODE_SIZE bits are a code that CODE_MASK keeps whole, and its class fits (R118). -/
theorem fits_classify_masked (r : CodeRegs) (k : BitVec 12) (h : r.avail.toNat ≤ 4096) :
    (classify r (k &&& r.codeMask)).fits (.code r) = true := by
  have hmask : k &&& r.codeMask &&& r.codeMask = k &&& r.codeMask := by rw [BitVec.and_assoc, BitVec.and_self]
  simp only [Instr.fits, Instr.fitsFormat, wf_classify, classify_fits hmask h, Bool.and_self]

theorem fits_selectStep (h : selectStep v = .ok i) : i.fits (.engine v) = true := by
  obtain ⟨st, done, empty, short, zero, label⟩ := v
  cases st with
  | idle => cases h
  | ext =>
    cases h
    unfold decodeLabel
    split_ifs with hl <;> simp_all [Instr.fits, Instr.wf, Instr.fitsFormat, Instr.fitsEngine]
  | lzw =>
    cases h
    cases done <;> cases empty <;> cases short <;> cases zero <;> rfl
  | _ => cases h; rfl

/-- An item of one byte is what its place makes of the byte. -/
theorem decodeByte_eq_ok {f : Byte → Instr} (h : decodeByte f bs = .ok i) : ∃ b, i = f b := by
  cases bs with
  | nil => cases h
  | cons b _ => cases h; exact ⟨b, rfl⟩

theorem decodeCmdBytes_eq_ok (h : decodeCmdBytes bs = .ok i) : ∃ w, i = decodeCmd w := by
  unfold decodeCmdBytes at h
  split at h
  · cases h; exact ⟨_, rfl⟩
  · cases h

theorem decodeCodeBits_eq_ok (h : decodeCodeBits r bs = .ok i) : ∃ k, i = classify r (k &&& r.codeMask) := by
  unfold decodeCodeBits at h
  split_ifs at h
  cases h
  exact ⟨_, rfl⟩

/-- Settles O3: each place's decoder answers a row of its format with the row's operand condition. -/
theorem decodedInstructionFits : Obligations.DecodedInstructionFits := by
  unfold Obligations.DecodedInstructionFits
  intro c bs i havail h
  cases c with
  | cmd => obtain ⟨w, rfl⟩ := decodeCmdBytes_eq_ok h; exact fits_decodeCmd w
  | ident => cases h; exact fits_decodeSig bs
  | hdr => cases h; exact fits_decodeHeader bs
  | tag => cases h; exact fits_decodeBoundary bs
  | ext => obtain ⟨b, rfl⟩ := decodeByte_eq_ok h; exact fits_decodeLabel b
  | sub => obtain ⟨b, rfl⟩ := decodeByte_eq_ok h; exact fits_decodeSub b
  | lzws => obtain ⟨b, rfl⟩ := decodeByte_eq_ok h; exact fits_decodeDataSize b
  | code r => obtain ⟨k, rfl⟩ := decodeCodeBits_eq_ok h; exact fits_classify_masked r k (havail r rfl)
  | engine v => exact fits_selectStep h

/-! ### Encode after decode -/

theorem encode_decodeTag (c : Context) (t : Byte) : encode c (decodeTag t) = [t] := by
  unfold decodeTag
  split_ifs with hext himage htrailer
  · rw [hext]; rfl
  · rw [himage]; rfl
  · rw [htrailer]; rfl
  · rfl

theorem encode_decodeLabel (c : Context) (l : Byte) : encode c (decodeLabel l) = [l] := by
  unfold decodeLabel
  split_ifs with h
  · rw [h]; rfl
  · rfl

theorem encode_decodeSub (c : Context) (l : Byte) : encode c (decodeSub l) = [l] := by
  unfold decodeSub
  split_ifs with h
  · rw [h]; rfl
  · rfl

theorem encode_decodeDataSize (c : Context) (d : Byte) : encode c (decodeDataSize d) = [d] := by
  unfold decodeDataSize
  split_ifs <;> rfl

theorem encode_decodeCmd (c : Context) (w : Word) : encode c (decodeCmd w) = bytesOfNat 4 w.toNat := by
  unfold decodeCmd
  split_ifs with h0 h1 h2
  · rw [h0]; rfl
  · rw [h1]; rfl
  · rw [h2]; rfl
  · rfl

/-- Four bytes spell a word whose bytes they are. -/
theorem bytesOfNat_word (b0 b1 b2 b3 : Byte) :
    bytesOfNat 4 (BitVec.ofNat 32 (natOfBytes [b0, b1, b2, b3])).toNat = [b0, b1, b2, b3] := by
  have h0 := b0.isLt
  have h1 := b1.isLt
  have h2 := b2.isLt
  have h3 := b3.isLt
  simp only [bytesOfNat, natOfBytes, BitVec.toNat_ofNat, List.cons.injEq, and_true]
  refine ⟨?_, ?_, ?_, ?_⟩ <;> apply BitVec.eq_of_toNat_eq <;> rw [BitVec.toNat_ofNat] <;> omega

/-- Settles O4: a row that a byte or a word selects carries it, or stands for the one value tested. -/
theorem encodeAfterDecode : Obligations.EncodeAfterDecode := by
  unfold Obligations.EncodeAfterDecode
  refine ⟨fun c b rest i hc h => ?_, fun b0 b1 b2 b3 rest i h => ?_⟩
  · rcases hc with rfl | rfl | rfl | rfl <;> cases h
    · exact encode_decodeTag _ b
    · exact encode_decodeLabel _ b
    · exact encode_decodeSub _ b
    · exact encode_decodeDataSize _ b
  · cases h
    rw [encode_decodeCmd, bytesOfNat_word]

/-! ### The classes of a code -/

/-- Settles O5: `classify` finds a class that holds, and a row whose conditions hold is the one it finds. -/
theorem codeClassesPartition : Obligations.CodeClassesPartition := by
  unfold Obligations.CodeClassesPartition
  intro r k hmask havail
  refine ⟨classify r k, ⟨classify_fits hmask havail, codeOf_classify r k⟩, fun i ⟨hfits, hcode⟩ => ?_⟩
  exact (classify_of_codeOf hfits hcode).symm

end Sys2Proof.Proofs
end

section
/-!
PROOFS. Sub-blocks (spec/30_encoding.md R106, spec/42_block_parser.md section 2): every place of the stream starts
sub-blocks that end or are cut, and the rows of a length byte by the state that reads them.
-/
namespace Sys2Proof.Proofs
open Sys2Proof Sys2Proof.Machine Sys2Proof.Laws

variable {s : State} {a p : Nat} {b : Byte} {g : List Byte} {gs : List (List Byte)}

/-! ### Sub-blocks end or are cut (R106, R186) -/

/-- The stream at a starts with the sub-block whose data bytes are g (R106). -/
def startsSubBlock (s : State) (a : Nat) (g : List Byte) : Prop :=
  s.inByte a = BitVec.ofNat 8 g.length ∧ s.inBytes (a + 1) g.length = g ∧ g ≠ [] ∧ g.length ≤ 255

/-- A length byte other than 0 starts the sub-block of that many bytes. -/
theorem startsSubBlock_of_ne_zero (h : s.inByte a ≠ 0) :
    startsSubBlock s a (s.inBytes (a + 1) (s.inByte a).toNat) := by
  have hlen : (s.inBytes (a + 1) (s.inByte a).toNat).length = (s.inByte a).toNat := inBytes_length _ _ _
  have hlt := (s.inByte a).isLt
  have hpos : 0 < (s.inByte a).toNat := Nat.pos_of_ne_zero fun h0 => h (BitVec.eq_of_toNat_eq h0)
  refine ⟨?_, by rw [hlen], List.ne_nil_of_length_pos (by omega), by omega⟩
  rw [hlen, BitVec.ofNat_toNat, BitVec.setWidth_eq]

theorem inBytes_subBlock (h : startsSubBlock s a g) : s.inBytes a (subBlock g).length = subBlock g := by
  obtain ⟨hlen, hdata, -, -⟩ := h
  rw [subBlock_length, State.inBytes, hlen, hdata, subBlock]

theorem holdsSubBlocks_cons_of (h : startsSubBlock s a g) (hrest : s.holdsSubBlocks (a + 1 + g.length) gs) :
    s.holdsSubBlocks a (g :: gs) := by
  obtain ⟨hgs, hle, hbytes⟩ := hrest
  have hshape : (g :: gs).flatMap subBlock ++ [0] = subBlock g ++ (gs.flatMap subBlock ++ [0]) := by
    rw [List.flatMap_cons, List.append_assoc]
  rw [State.holdsSubBlocks, hshape, List.length_append, inBytes_append, inBytes_subBlock h, subBlock_length,
    show a + (g.length + 1) = a + 1 + g.length by omega, hbytes]
  refine ⟨List.forall_mem_cons.2 ⟨⟨h.2.2.1, h.2.2.2⟩, hgs⟩, by omega, rfl⟩

theorem cutsSubBlocks_cons_of (h : startsSubBlock s a g) (hrest : s.cutsSubBlocks (a + 1 + g.length) gs p) :
    s.cutsSubBlocks a (g :: gs) p := by
  obtain ⟨hgs, hle, hbytes, hcut⟩ := hrest
  have hnext : a + ((g :: gs).flatMap subBlock).length = a + 1 + g.length + (gs.flatMap subBlock).length := by
    rw [List.flatMap_cons, List.length_append, subBlock_length]; omega
  rw [State.cutsSubBlocks, hnext]
  refine ⟨List.forall_mem_cons.2 ⟨⟨h.2.2.1, h.2.2.2⟩, hgs⟩, hle, ?_, hcut⟩
  rw [List.flatMap_cons, List.length_append, inBytes_append, inBytes_subBlock h, subBlock_length,
    show a + (g.length + 1) = a + 1 + g.length by omega, hbytes]

theorem holdsSubBlocks_nil_of (hlt : a < s.inLen.toNat) (h : s.inByte a = 0) : s.holdsSubBlocks a [] :=
  ⟨nofun, hlt, congrArg (fun b => [b]) h⟩

theorem cutsSubBlocks_nil_of_end (h : a = s.inLen.toNat) : s.cutsSubBlocks a [] s.inLen.toNat :=
  ⟨nofun, h.le, rfl, .inl ⟨h, rfl⟩⟩

theorem cutsSubBlocks_nil_of_overlong (hlt : a < s.inLen.toNat) (h : s.inLen.toNat < a + 1 + (s.inByte a).toNat) :
    s.cutsSubBlocks a [] (a + 1) :=
  ⟨nofun, hlt.le, rfl, .inr ⟨hlt, rfl, h⟩⟩

/-- Settles O30, by induction on the bytes left: a length byte that is there ends the sub-blocks, is overlong, or starts a
sub-block with fewer bytes left behind it. -/
theorem subBlocksEndOrAreCut : Obligations.SubBlocksEndOrAreCut := by
  unfold Obligations.SubBlocksEndOrAreCut
  intro s a ha
  induction hleft : s.inLen.toNat - a using Nat.strong_induction_on generalizing a with
  | _ left ih =>
    rcases Nat.lt_or_eq_of_le ha with hlt | hend
    · by_cases hzero : s.inByte a = 0
      · exact .inl ⟨[], holdsSubBlocks_nil_of hlt hzero⟩
      · rcases Nat.lt_or_ge s.inLen.toNat (a + 1 + (s.inByte a).toNat) with hover | hfits
        · exact .inr ⟨[], a + 1, cutsSubBlocks_nil_of_overlong hlt hover⟩
        · have hstart := startsSubBlock_of_ne_zero hzero
          have hnext := ih _ (by omega) (a + 1 + (s.inByte a).toNat) hfits rfl
          rw [← inBytes_length s (a + 1) (s.inByte a).toNat] at hnext
          rcases hnext with ⟨gs, hrest⟩ | ⟨gs, p, hrest⟩
          · exact .inl ⟨_, holdsSubBlocks_cons_of hstart hrest⟩
          · exact .inr ⟨_, p, cutsSubBlocks_cons_of hstart hrest⟩
    · exact .inr ⟨[], _, cutsSubBlocks_nil_of_end hend⟩

/-! ### The rows of a length byte -/

/-- In an extension a truncation is fatal (R187). -/
theorem subBlockRaise_of_ext (h : s.st = .ext) : subBlockRaise s = .fatal .truncatedStream :=
  if_pos h

/-- In a code stream and its drain a truncation is an anomaly (R242, R298). -/
theorem subBlockRaise_of_ne_ext (h : s.st ≠ .ext) : subBlockRaise s = .anomaly .truncatedStream :=
  if_neg h

theorem exec_subEnd_of_lzw (hst : s.st = .lzw) (h : s.pos.toNat < s.inLen.toNat) :
    exec .subEnd s = (startSubBlock 0 (s.advance 1)).result := by
  rw [exec, execSubEnd, readByte_andThen_of_lt _ h]
  simp only [advance_st, hst]

theorem exec_subEnd_of_ext (hst : s.st = .ext) (h : s.pos.toNat < s.inLen.toNat) :
    exec .subEnd s = .next { s with pos := s.pos + 1, st := .tag } := by
  rw [exec, execSubEnd, readByte_andThen_of_lt _ h]
  simp only [hst, result_go, advance_eq]
  rfl

theorem exec_subEnd_of_drain (hst : s.st = .drain) (h : s.pos.toNat < s.inLen.toNat) :
    exec .subEnd s = .next { s with pos := s.pos + 1, lzw := { s.lzw with termSeen := true }, st := .commit } := by
  rw [exec, execSubEnd, readByte_andThen_of_lt _ h]
  simp only [hst, result_go, advance_eq]
  rfl

theorem exec_subData_of_lzw (hst : s.st = .lzw) (h : s.pos.toNat < s.inLen.toNat) :
    exec (.subData b) s = (startSubBlock b (s.advance 1)).result := by
  rw [exec, execSubData, readByte_andThen_of_lt _ h]
  simp only [advance_st, hst]

/-- In an extension and in a drain the data bytes are needed and skipped (R186). -/
theorem exec_subData_of_skipped (hst : s.st = .ext ∨ s.st = .drain) (h : s.pos.toNat < s.inLen.toNat) :
    exec (.subData b) s =
      ((need b.toNat (subBlockRaise s) (s.advance 1)).andThen fun _ t => .go () (t.advance b.toNat)).result := by
  rw [exec, execSubData, readByte_andThen_of_lt _ h]
  rcases hst with hst | hst <;> simp only [advance_st, hst, subBlockRaise]

/-- With a code stream's length byte there, the row it is decoded to is FETCH_LEN on it (R242). -/
theorem exec_decodeSub_of_lzw (hst : s.st = .lzw) (h : s.pos.toNat < s.inLen.toNat) :
    exec (decodeSub b) s = (startSubBlock b (s.advance 1)).result := by
  unfold decodeSub
  split_ifs with hzero
  · rw [exec_subEnd_of_lzw hst h, hzero]
  · exact exec_subData_of_lzw hst h

theorem exec_subData_of_lzw_counted (hst : s.st = .lzw) (h : s.pos.toNat < s.inLen.toNat) (hb : b ≠ 0)
    (hfits : s.pos.toNat + 1 + b.toNat ≤ s.inLen.toNat) :
    exec (.subData b) s = .next { s with pos := s.pos + 1, lzw := { s.lzw with count := b } } := by
  have hpos : (s.advance 1).pos.toNat = s.pos.toNat + 1 := advance_pos_toNat h
  rw [exec_subData_of_lzw hst h, startSubBlock_of_le hb (by rw [hpos]; exact hfits), result_go, advance_eq]
  rfl

theorem exec_subData_of_lzw_cut (hst : s.st = .lzw) (h : s.pos.toNat < s.inLen.toNat) (hb : b ≠ 0)
    (hcut : s.inLen.toNat < s.pos.toNat + 1 + b.toNat) :
    exec (.subData b) s = .next (anomaly .truncatedStream { s with pos := s.pos + 1 }) := by
  have hpos : (s.advance 1).pos.toNat = s.pos.toNat + 1 := advance_pos_toNat h
  rw [exec_subData_of_lzw hst h, startSubBlock_of_lt hb (by rw [hpos]; exact hcut), result_ended, advance_eq]
  rfl

theorem exec_subData_of_skipped_whole (hst : s.st = .ext ∨ s.st = .drain) (h : s.pos.toNat < s.inLen.toNat)
    (hfits : s.pos.toNat + 1 + b.toNat ≤ s.inLen.toNat) :
    exec (.subData b) s = .next { s with pos := s.pos + 1 + b.zeroExtend 32 } := by
  have hpos : (s.advance 1).pos.toNat = s.pos.toNat + 1 := advance_pos_toNat h
  rw [exec_subData_of_skipped hst h, need_of_le (by rw [hpos]; exact hfits), andThen_go, result_go, advance_eq, advance_eq,
    BitVec.ofNat_toNat]
  rfl

theorem exec_subData_of_skipped_cut (hst : s.st = .ext ∨ s.st = .drain) (h : s.pos.toNat < s.inLen.toNat)
    (hcut : s.inLen.toNat < s.pos.toNat + 1 + b.toNat) :
    exec (.subData b) s = .next (raise (subBlockRaise s) { s with pos := s.pos + 1 }) := by
  have hpos : (s.advance 1).pos.toNat = s.pos.toNat + 1 := advance_pos_toNat h
  rw [exec_subData_of_skipped hst h, need_of_lt (by rw [hpos]; exact hcut), andThen_ended, result_ended, advance_eq]
  rfl

/-- Settles O40: each row in each state has its own lemma. -/
theorem subBlockRows : Obligations.SubBlockRows := by
  unfold Obligations.SubBlockRows
  intro s hlt
  refine ⟨fun hst => ?_, fun hst => exec_subEnd_of_ext hst hlt, fun hst => exec_subEnd_of_drain hst hlt,
    fun len hlen hfits => ⟨fun hst => exec_subData_of_lzw_counted hst hlt hlen hfits,
      fun hst => exec_subData_of_skipped_whole hst hlt hfits⟩,
    fun len hlen hcut => ⟨fun hst => ?_, fun hst => ?_⟩⟩
  · rw [exec_subEnd_of_lzw hst hlt, startSubBlock_zero, result_go, advance_eq]
    rfl
  · rcases hst with hst | hst
    · exact exec_subData_of_lzw_cut hst hlt hlen hcut
    · rw [exec_subData_of_skipped_cut (.inr hst) hlt hcut, subBlockRaise_of_ne_ext (by rw [hst]; decide), raise]
  · rw [exec_subData_of_skipped_cut (.inl hst) hlt hcut, subBlockRaise_of_ext hst, raise]

end Sys2Proof.Proofs
end

section
/-!
PROOFS. The step of the whole machine (spec/00_scope.md, spec/10_state.md section 3): the instruction it runs, and the item
of the stream that the engine's next step meets.
-/
namespace Sys2Proof.Proofs
open Sys2Proof Sys2Proof.Machine Sys2Proof.Laws

variable {s : State} {i : Instr} {ms : List HostMove}

/-! ### What a step runs -/

theorem step_of_no_moves (hm : s.moves = []) : step s = engineStep s := by
  unfold step
  rw [hm]

theorem step_of_engineTurn (hm : s.moves = .engineTurn :: ms) : step s = engineStep { s with moves := ms } := by
  unfold step
  rw [hm]
  exact if_pos rfl

/-- A host write to CMD is a command (R140). -/
theorem step_of_command {m : HostMove} {v : Word} (hm : s.moves = m :: ms) (hv : commandWrite m = some v) :
    step s = exec (decodeCmd v) { s with moves := ms } := by
  have hturn : m ≠ .engineTurn := by rintro rfl; cases hv
  unfold step
  rw [hm]
  simp only [if_neg hturn, hv]

theorem engineStep_of_engineOp (hi : engineOp s = some i) : engineStep s = exec i s := by
  rw [engineStep, hi]

theorem engineStep_of_idle (h : s.st = .idle) : engineStep s = .next s := by
  rw [engineStep, engineOp_of_st.1 h]

/-- Settles O6: each clause is the branch of `step` that its first move selects. -/
theorem stepRunsSelected : Obligations.StepRunsSelected := by
  unfold Obligations.StepRunsSelected
  refine ⟨fun s i hm hi => step_of_engineOp hm hi, fun s ms i hm hi => ?_, fun s ms v hm => step_of_command hm rfl,
    fun s hidle hm => ?_⟩
  · rw [step_of_engineTurn hm, engineStep_of_engineOp hi]
  · rw [step_of_no_moves hm, engineStep_of_idle hidle]

/-! ### The item that the engine meets -/

/-- The item is what the decoder makes of the bytes where the engine looks. -/
theorem decode_of_itemAt {c : Context} {bs : List Byte} (hplace : s.itemPlace = some (c, bs))
    (hi : itemAt s = some i) : decode c bs = .ok i := by
  rw [itemAt, hplace] at hi
  cases hd : decode c bs <;> simp_all [accepted]

/-- The IDENT step is the row of the signature there (R145). -/
theorem exec_ident_eq_exec_decodeSig (hst : s.st = .ident) :
    exec .ident s = exec (decodeSig (s.streamBytes 0 5)) s := by
  obtain ⟨h87, h89, hinvalid⟩ := exec_signature_of_ident hst
  rcases decodeSig_stream s (Nat.le_refl 5) with ⟨hvalid, hsig | hsig⟩ | ⟨hvalid, hsig⟩ <;>
    rw [hsig, exec_ident_of_validHeader hvalid]
  · exact h87.symm
  · exact h89.symm
  · exact hinvalid.symm

/-- The HDR step is the row of the header there (R160). -/
theorem exec_hdr_eq_exec_decodeHeader (hst : s.st = .hdr) :
    exec .hdr s = exec (decodeHeader (s.streamBytes 0 13)) s := by
  have hlen : (s.streamBytes 0 13).length < 13 ↔ s.inLen.toNat < 13 := by rw [streamBytes_length]; omega
  obtain ⟨h87, h89, hinvalid⟩ := exec_signature_of_hdr hst
  rw [decodeHeader]
  rcases decodeSig_stream s (show 5 ≤ 13 by decide) with ⟨hvalid, hsig⟩ | ⟨hvalid, hsig⟩
  · have hgood := (validHeader_iff_goodSignature s).1 hvalid
    rcases Nat.lt_or_ge s.inLen.toNat 13 with hshort | hlong
    · rw [exec_hdr_of_badHeader (.inr hshort)]
      rcases hsig with hsig | hsig <;> simp only [hsig, if_pos (hlen.2 hshort)] <;> rfl
    · have hnot := mt hlen.1 (Nat.not_lt.2 hlong)
      rw [exec_hdr_of_goodSignature hgood]
      rcases hsig with hsig | hsig <;> simp only [hsig, if_neg hnot, h87, h89]
  · have hbad : ¬ goodSignature s := by rw [← validHeader_iff_goodSignature, hvalid]; decide
    simp only [hsig, exec_hdr_of_not_goodSignature hbad, hinvalid]

/-- The TAG step is the row of the boundary there (R180). -/
theorem exec_tag_eq_exec_decodeBoundary (s : State) :
    exec .tag s = exec (decodeBoundary (s.streamBytes s.pos.toNat 1)) s := by
  rcases Nat.lt_or_ge s.pos.toNat s.inLen.toNat with h | h
  · rw [streamBytes_one_of_lt h, exec_tag_of_lt h, decodeBoundary]
  · rw [streamBytes_one_of_le h, exec_tag_of_le h, decodeBoundary]

/-- FETCH_LEN is the row of the length byte there (R242). -/
theorem exec_fetchLen_of_decode (hst : s.st = .lzw)
    (hd : decode .sub (s.streamBytes s.pos.toNat 1) = .ok i) : exec .fetchLen s = exec i s := by
  rcases Nat.lt_or_ge s.pos.toNat s.inLen.toNat with h | h
  · rw [streamBytes_one_of_lt h] at hd
    cases hd
    rw [exec_fetchLen_of_lt h, exec_decodeSub_of_lzw hst h]
  · rw [streamBytes_one_of_le h] at hd
    cases hd

/-- The accumulator's bytes begin with the code that the engine takes off it (R244). -/
theorem decode_datum (s : State) :
    decode (.code s.codeRegs) (bytesOfNat 4 s.lzw.datum.toNat) = .ok (classify s.codeRegs s.topCode) := by
  have hsize : s.codeRegs.codeSize.toNat < 16 := s.lzw.codeSize.isLt
  have hlen : (bytesOfNat 4 s.lzw.datum.toNat).length = 4 := rfl
  rw [decode, decodeCodeBits, hlen, if_neg (by omega), natOfBytes_datum, State.topCode]

/-- DECODE is the row of the code on top of the accumulator (R244, R260). -/
theorem exec_decodeCode_of_decode (hd : decode (.code s.codeRegs) (bytesOfNat 4 s.lzw.datum.toNat) = .ok i) :
    exec .decodeCode s = exec i s := by
  rw [decode_datum] at hd
  cases hd
  exact exec_decodeCode s

/-- In LZW the item is a length byte or a code. -/
theorem exec_engineOp_of_lzw {c : Context} {bs : List Byte} (hst : s.st = .lzw)
    (hplace : s.itemPlace = some (c, bs)) (hd : decode c bs = .ok i) :
    ∃ j, engineOp s = some j ∧ exec j s = exec i s := by
  rw [State.itemPlace, hst] at hplace
  dsimp only at hplace
  split at hplace
  · rename_i hj
    cases hplace
    exact ⟨_, hj, exec_fetchLen_of_decode hst hd⟩
  · rename_i hj
    cases hplace
    exact ⟨_, hj, exec_decodeCode_of_decode hd⟩
  · cases hplace

/-- The engine's step on an item is that item's. -/
theorem exec_engineOp_of_item {c : Context} {bs : List Byte} (hplace : s.itemPlace = some (c, bs))
    (hd : decode c bs = .ok i) : ∃ j, engineOp s = some j ∧ exec j s = exec i s := by
  obtain ⟨-, hident, hhdr, htag, hext, -⟩ := engineOp_of_st (s := s)
  cases hst : s.st with
  | lzw => exact exec_engineOp_of_lzw hst hplace hd
  | ident =>
    simp only [State.itemPlace, hst] at hplace
    cases hplace; cases hd
    exact ⟨_, hident hst, exec_ident_eq_exec_decodeSig hst⟩
  | hdr =>
    simp only [State.itemPlace, hst] at hplace
    cases hplace; cases hd
    exact ⟨_, hhdr hst, exec_hdr_eq_exec_decodeHeader hst⟩
  | tag =>
    simp only [State.itemPlace, hst] at hplace
    cases hplace; cases hd
    exact ⟨_, htag hst, exec_tag_eq_exec_decodeBoundary s⟩
  | ext =>
    simp only [State.itemPlace, hst] at hplace
    cases hplace; cases hd
    exact ⟨_, hext hst, rfl⟩
  | _ => simp only [State.itemPlace, hst] at hplace; cases hplace

/-- Settles O7: the selected step and the item do the same. -/
theorem stepRunsDecodedItem : Obligations.StepRunsDecodedItem := by
  unfold Obligations.StepRunsDecodedItem
  intro s i hm hi
  cases hplace : s.itemPlace with
  | none => rw [itemAt, hplace] at hi; cases hi
  | some p =>
    obtain ⟨j, hj, hexec⟩ := exec_engineOp_of_item hplace (decode_of_itemAt hplace hi)
    rw [step_of_engineOp hm hj, hexec]

end Sys2Proof.Proofs
end

section
/-!
PROOFS. The host's hazards (spec/70_reset_and_hazards.md, family 70_reset_and_hazards): what an access of the host does
while the engine is busy.
-/
namespace Sys2Proof.Proofs
open Sys2Proof Sys2Proof.Machine Sys2Proof.Laws

variable {s : State} {offset : Nat} {size : AccessSize} {m : HostMove}

/-- The one listed register that a write reaches while BUSY is FSEL (R29, R446). -/
theorem writeReg_of_busy (h : s.status.busy = true) (v : Word) :
    writeReg offset size v s = if hostReg offset size = some .fsel then { s with fsel := v } else s := by
  unfold writeReg
  split <;> simp_all

theorem hostReg_eq_fsel (h : hostReg offset size = some .fsel) : offset = 0x1C ∧ size = .word := by
  unfold hostReg at h
  split at h <;> cases h
  exact ⟨rfl, rfl⟩

/-- A command written while BUSY is ignored, whatever its value (R140). -/
theorem exec_decodeCmd_of_busy (h : s.status.busy = true) (v : Word) : exec (decodeCmd v) s = .next s := by
  obtain ⟨hidentify, hdecode, hillegal⟩ := (ignoredCommands s).2 h
  unfold decodeCmd
  split_ifs
  · exact exec_cmdNone s
  · exact hidentify
  · exact hdecode
  · exact hillegal v

/-- From s a move of the host leaves t: FSEL, which only a write to FSEL changes, and what the host holds apart, t is s
with the moves ms still to come (R446 to R448). -/
def Uninterfered (m : HostMove) (ms : List HostMove) (s t : State) : Prop :=
  t = { s with moves := ms, fsel := t.fsel, readData := t.readData, draws := t.draws } ∧
    ((∀ v, m ≠ .writeReg 0x1C .word v) → t.fsel = s.fsel)

variable {ms : List HostMove}

theorem uninterfered_ignored : Uninterfered m ms s { s with moves := ms } :=
  ⟨rfl, fun _ => rfl⟩

theorem uninterfered_returned (v : Word) : Uninterfered m ms s ({ s with moves := ms }.returned v) :=
  ⟨rfl, fun _ => rfl⟩

theorem uninterfered_readReg : Uninterfered m ms s (readReg offset size { s with moves := ms }) := by
  unfold readReg
  split
  · exact uninterfered_returned 0
  · exact uninterfered_returned _

/-- A write to a register other than CMD reaches FSEL or nothing. -/
theorem uninterfered_writeReg (h : s.status.busy = true) (v : Word) :
    Uninterfered (.writeReg offset size v) ms s (writeReg offset size v { s with moves := ms }) := by
  rw [writeReg_of_busy (s := { s with moves := ms }) h]
  split
  · rename_i hfsel
    obtain ⟨rfl, rfl⟩ := hostReg_eq_fsel hfsel
    exact ⟨rfl, fun hne => absurd rfl (hne v)⟩
  · exact uninterfered_ignored

/-- Settles O17: a command and a memory write are ignored, a read returns a value, and a register write reaches FSEL or
nothing. -/
theorem busyHostCannotInterfere : Obligations.BusyHostCannotInterfere := by
  unfold Obligations.BusyHostCannotInterfere
  intro s m ms hbusy hm hreset hturn
  cases m with
  | writeReg offset size v =>
    by_cases hcmd : hostReg offset size = some .cmd
    · have hstep := step_of_command hm (if_pos hcmd)
      exact ⟨_, hstep.trans (exec_decodeCmd_of_busy (s := { s with moves := ms }) hbusy v), uninterfered_ignored⟩
    · exact ⟨_, step_of_writeReg hm hcmd, uninterfered_writeReg hbusy v⟩
  | readReg offset size => exact ⟨_, step_of_readReg hm, uninterfered_readReg⟩
  | writeIn a v =>
    refine ⟨_, step_of_hostMove hm hturn rfl, ?_⟩
    rw [hostMove, writeIn, if_pos (.inl hbusy)]
    exact uninterfered_ignored
  | readIn a => exact ⟨_, step_of_hostMove hm hturn rfl, uninterfered_returned _⟩
  | writeOut a v =>
    refine ⟨_, step_of_hostMove hm hturn rfl, ?_⟩
    rw [hostMove, writeOut, if_pos (.inl hbusy)]
    exact uninterfered_ignored
  | readOut a => exact ⟨_, step_of_hostMove hm hturn rfl, uninterfered_returned _⟩
  | resetInput => exact absurd rfl hreset
  | engineTurn => exact absurd rfl hturn

end Sys2Proof.Proofs
end

section
/-!
PROOFS. The host registers (spec/10_state.md section 2): what CTRL, IN_LEN and FSEL store, and what each register reads as.
-/
namespace Sys2Proof.Proofs
open Sys2Proof Sys2Proof.Machine Sys2Proof.Laws

variable {s : State}

/-! ### CTRL (R22) -/

/-- CTRL stores nothing of a word but its low four bits. -/
theorem ctrl_ofWord_low (v : Word) : Ctrl.ofWord (v &&& 0xF) = Ctrl.ofWord v := by
  have hlow : (v &&& 0xF).toNat = v.toNat % 16 := Nat.and_two_pow_sub_one_eq_mod v.toNat 4
  have hbits : (v &&& 0xF).toNat / 2 % 4 = v.toNat / 2 % 4 := by omega
  rw [Ctrl.ofWord, Ctrl.ofWord, hbits, BitVec.getLsbD_and, BitVec.getLsbD_and, show (0xF : Word).getLsbD 0 = true from rfl,
    show (0xF : Word).getLsbD 3 = true from rfl, Bool.and_true, Bool.and_true]

/-- What is stored of each of the sixteen values of those bits. -/
theorem ctrl_word_ofWord_of_lt (n : Fin 16) :
    (Ctrl.ofWord (BitVec.ofNat 32 n)).word =
      (BitVec.ofNat 32 n &&& 0x9) ||| (if BitVec.ofNat 32 n &&& 0x6 = 0x6 then 0x4 else BitVec.ofNat 32 n &&& 0x6) := by
  revert n
  decide

theorem ctrl_word_ofWord (v : Word) :
    (Ctrl.ofWord v).word = (v &&& 0x9) ||| (if v &&& 0x6 = 0x6 then 0x4 else v &&& 0x6) := by
  have hlow : (v &&& 0xF).toNat = v.toNat % 16 := Nat.and_two_pow_sub_one_eq_mod v.toNat 4
  have h := ctrl_word_ofWord_of_lt ⟨(v &&& 0xF).toNat, by omega⟩
  rw [BitVec.ofNat_toNat, BitVec.setWidth_eq, ctrl_ofWord_low, BitVec.and_assoc, BitVec.and_assoc] at h
  exact h

theorem writeReg_ctrl_of_busy (h : s.status.busy = true) (v : Word) : writeReg 0x00 .word v s = s :=
  if_pos h

theorem writeReg_ctrl_of_idle (h : s.status.busy = false) (v : Word) :
    writeReg 0x00 .word v s = { s with ctrl := .ofWord v } :=
  if_neg (by simp [h])

/-- Settles O10: while idle CTRL is what `Ctrl.ofWord` makes of the word. -/
theorem ctrlWriteReadBack : Obligations.CtrlWriteReadBack := by
  unfold Obligations.CtrlWriteReadBack
  refine fun s ms v hm => ⟨fun hbusy => ?_, fun hidle => ?_⟩ <;> rw [step_of_writeReg hm nofun]
  · rw [writeReg_ctrl_of_busy (s := { s with moves := ms }) hbusy]
  · rw [writeReg_ctrl_of_idle (s := { s with moves := ms }) hidle]
    exact ⟨_, rfl, rfl, ctrl_word_ofWord v⟩

/-! ### IN_LEN and FSEL (R25, R29) -/

theorem writeReg_inLen_of_idle (h : s.status.busy = false) (v : Word) :
    writeReg 0x0C .word v s = { s with inLen := BitVec.ofNat 32 (min v.toNat s.cfg.inCap) } :=
  if_neg (by simp [h])

/-- Settles O12: the smaller of a word and IN_CAP is a word. -/
theorem inLenAndFselWrites : Obligations.InLenAndFselWrites := by
  unfold Obligations.InLenAndFselWrites
  refine fun s ms v _ => ⟨fun hm hidle => ?_, fun hm => ?_⟩ <;> rw [step_of_writeReg hm nofun]
  · rw [writeReg_inLen_of_idle (s := { s with moves := ms }) hidle]
    exact ⟨_, rfl, rfl, ofNat32_toNat (Nat.lt_of_le_of_lt (Nat.min_le_left _ _) v.isLt)⟩
  · rfl

/-! ### Reads (R22 to R32, R34) -/

theorem readReg_of_hostReg {offset : Nat} {size : AccessSize} {r : HostReg} (h : hostReg offset size = some r)
    (s : State) : readReg offset size s = s.returned (s.regValue (Config.freeWord s.draws) r) := by
  rw [readReg, h]

/-- A whole-word read of a listed register returns its value. -/
theorem step_of_readReg_listed {offset : Nat} {r : HostReg} {ms : List HostMove}
    (hm : s.moves = .readReg offset .word :: ms) (h : hostReg offset .word = some r) :
    step s = .next { s with
      moves := ms, readData := s.regValue (Config.freeWord s.draws) r, draws := s.draws + 1 } := by
  rw [step_of_readReg hm, readReg_of_hostReg h]
  rfl

/-- FDIM is the height above the width (R31). -/
theorem dimWord_eq (f : FrameRecord) : f.dimWord = f.h ++ f.w := by
  have hw := f.w.isLt
  have hh := f.h.isLt
  apply BitVec.eq_of_toNat_eq
  rw [FrameRecord.dimWord, BitVec.toNat_append, ← Nat.shiftLeft_add_eq_or_of_lt hw, Nat.shiftLeft_eq, BitVec.toNat_ofNat]
  omega

/-- What FBASE, FDIM and FSTAT show is of the record that FSEL selects, or 0 (R30 to R32). -/
theorem selectedFrame_fields (s : State) :
    s.selectedFrame.base = (if s.fsel.toNat < s.frameCount.toNat then (s.frameAt s.fsel.toNat).base else 0) ∧
      s.selectedFrame.dimWord = (if s.fsel.toNat < s.frameCount.toNat then
        (s.frameAt s.fsel.toNat).h ++ (s.frameAt s.fsel.toNat).w else 0) ∧
      s.selectedFrame.stat = (if s.fsel.toNat < s.frameCount.toNat then (s.frameAt s.fsel.toNat).stat else 0) := by
  rw [State.selectedFrame]
  split
  · exact ⟨rfl, dimWord_eq _, rfl⟩
  · exact ⟨rfl, rfl, rfl⟩

/-- The register at each offset, with what the host reads of it: four at any time, the others while idle (R34). -/
theorem regValue_listed {r : Nat} {v : Word} (drawn : Word)
    (h : (r, v) ∈ [(0x00, s.ctrl.word), (0x04, 0), (0x0C, s.inLen), (0x1C, s.fsel)] ∨
      s.status.busy = false ∧ (r, v) ∈
        [(0x08, s.status.word), (0x10, s.frameCount), (0x14, s.outUsed), (0x18, s.errPos),
          (0x20, s.selectedFrame.base), (0x24, s.selectedFrame.dimWord), (0x28, s.selectedFrame.stat)]) :
    ∃ reg, hostReg r .word = some reg ∧ s.regValue drawn reg = v := by
  simp only [List.mem_cons, List.not_mem_nil, or_false, Prod.mk.injEq] at h
  rcases h with (⟨rfl, rfl⟩ | ⟨rfl, rfl⟩ | ⟨rfl, rfl⟩ | ⟨rfl, rfl⟩) |
      ⟨hidle, ⟨rfl, rfl⟩ | ⟨rfl, rfl⟩ | ⟨rfl, rfl⟩ | ⟨rfl, rfl⟩ | ⟨rfl, rfl⟩ | ⟨rfl, rfl⟩ | ⟨rfl, rfl⟩⟩
  · exact ⟨.ctrl, rfl, rfl⟩
  · exact ⟨.cmd, rfl, rfl⟩
  · exact ⟨.inLen, rfl, rfl⟩
  · exact ⟨.fsel, rfl, rfl⟩
  all_goals
    refine ⟨_, rfl, ?_⟩
    simp only [State.regValue, hidle]
    rfl

/-- Settles O13: each listed offset reaches a register, which reads as `regValue_listed` says. -/
theorem registerReads : Obligations.RegisterReads := by
  unfold Obligations.RegisterReads
  intro s ms r v hm h
  obtain ⟨hbase, hdim, hstat⟩ := selectedFrame_fields s
  rw [← hbase, ← hdim, ← hstat] at h
  obtain ⟨reg, hreg, hvalue⟩ := regValue_listed (Config.freeWord s.draws) h
  rw [step_of_readReg_listed hm hreg, hvalue]

/-- Whatever is drawn, BUSY reads 1, DONE 0, and the reserved bits 0 (R24, R34). -/
theorem busyStatusWord_bits (drawn : Word) :
    (busyStatusWord drawn).getLsbD 0 = true ∧ (busyStatusWord drawn).getLsbD 1 = false ∧
      (busyStatusWord drawn).getLsbD 3 = false ∧ ∀ k, 10 ≤ k → (busyStatusWord drawn).getLsbD k = false := by
  have hbit (k : Nat) : (busyStatusWord drawn).getLsbD k =
      (drawn.getLsbD k && (0x3F4 : Word).getLsbD k || (1 : Word).getLsbD k) := by
    rw [busyStatusWord, BitVec.getLsbD_or, BitVec.getLsbD_and]
  have hhigh {x : Word} {k : Nat} (hx : x.toNat < 2 ^ 10) (hk : 10 ≤ k) : x.getLsbD k = false :=
    Nat.testBit_lt_two_pow (hx.trans_le (Nat.pow_le_pow_right (by decide) hk))
  refine ⟨?_, ?_, ?_, fun k hk => ?_⟩ <;> rw [hbit]
  · exact Bool.or_true _
  · exact (Bool.or_false _).trans (Bool.and_false _)
  · exact (Bool.or_false _).trans (Bool.and_false _)
  · rw [hhigh (x := 0x3F4) (by decide) hk, hhigh (x := 1) (by decide) hk, Bool.and_false, Bool.or_false]

/-- Settles O14: the read returns `busyStatusWord` of the value drawn. -/
theorem busyStatusRead : Obligations.BusyStatusRead := by
  unfold Obligations.BusyStatusRead
  intro s ms hbusy hm
  refine ⟨_, step_of_readReg_listed hm (r := .status) rfl, rfl, ?_⟩
  rw [State.regValue, if_pos hbusy]
  exact busyStatusWord_bits _

end Sys2Proof.Proofs
end

section
/-!
PROOFS. What every instruction keeps, from the course any instruction takes: what it works on, and how it raises or
completes (spec/10_state.md, spec/20_memory.md section 4, spec/60_exceptions.md).
-/
namespace Sys2Proof.Proofs
open Sys2Proof Sys2Proof.Machine Sys2Proof.Laws

variable {s t u : State} {i : Instr}

/-! ### The course of any instruction -/

/-- How an instruction goes that is no command and no COMMIT: it works on, raises or completes. -/
def Courses (s t : State) : Prop := Works s t ∨ Raised s t ∨ Completed s t

/-- The pending state alone is another one. -/
theorem exec_gce_courses (h : exec .gce s = .next t) : ∃ q, Courses (withPending q s) t := by
  obtain ⟨q, hcourse⟩ := exec_gce_course h
  exact ⟨q, hcourse.imp_right .inl⟩

/-- A command does nothing while BUSY; while idle it starts, and an illegal one completes as well (R140 to R144). -/
theorem exec_command_cases (h : exec i s = .next t) (hi : i.isCmd = true) :
    t = s ∨ s.status.busy = false ∧
      (t = startIdentify s ∨ i = .decode ∧ t = startDecode s ∨
        (∃ op, i = .illegalCmd op) ∧ t = complete .illegalCommand (startCommand s)) := by
  have gate {f : State → State} (hf : whenIdle f s = .next t) : t = s ∨ s.status.busy = false ∧ t = f s := by
    cases hbusy : s.status.busy with
    | true => rw [whenIdle_of_busy f hbusy] at hf; cases hf; exact .inl rfl
    | false => rw [whenIdle_of_idle f hbusy] at hf; cases hf; exact .inr ⟨rfl, rfl⟩
  cases i with
  | cmdNone => rw [exec_cmdNone] at h; cases h; exact .inl rfl
  | identify => exact (gate h).imp_right fun ⟨hidle, ht⟩ => ⟨hidle, .inl ht⟩
  | decode => exact (gate h).imp_right fun ⟨hidle, ht⟩ => ⟨hidle, .inr (.inl ⟨rfl, ht⟩)⟩
  | illegalCmd op =>
    rw [exec_illegalCmd] at h
    exact (gate h).imp_right fun ⟨hidle, ht⟩ => ⟨hidle, .inr (.inr ⟨⟨op, rfl⟩, ht⟩)⟩
  | _ => cases hi

/-- COMMIT records the frame or discards it (R300, R303). -/
theorem exec_commit_cases (h : exec .commit s = .next t) :
    t = recorded s ∨ t = { s with pend := ⟨false, 0⟩, st := .tag } := by
  by_cases hdiscard : s.img.anom = .none ∨ s.ctrl.policy ≠ .discard
  · rw [exec_commit_of_recorded hdiscard] at h
    cases h
    exact .inl rfl
  · rw [not_or, not_not] at hdiscard
    rw [exec_commit_of_discarded hdiscard.1 hdiscard.2] at h
    cases h
    exact .inr rfl

/-- A property of the state before and after that every way an instruction can go has. -/
theorem exec_induction {P : State → State → Prop} (h : exec i s = .next t) (hcourse : Courses s t → P s t)
    (hgce : ∀ q, i = .gce → Courses (withPending q s) t → P s t) (hcommand : i.isCmd = true → P s t)
    (hcommit : i = .commit → P s t) : P s t := by
  by_cases hgce' : i = .gce
  · obtain ⟨q, hq⟩ := exec_gce_courses (hgce' ▸ h)
    exact hgce q hgce' hq
  by_cases hcommit' : i = .commit
  · exact hcommit hcommit'
  cases hcmd : i.isCmd with
  | true => exact hcommand hcmd
  | false => exact hcourse (exec_course h hcmd hgce' hcommit')

/-! ### The input and what is the host's (R77, R88) -/

/-- INBUF, IN_LEN, CTRL, FSEL, the parameters, the count of resets and what is the host's are as before. -/
def InputKept (s t : State) : Prop :=
  t.inbuf = s.inbuf ∧ t.inLen = s.inLen ∧ t.ctrl = s.ctrl ∧ t.fsel = s.fsel ∧ t.cfg = s.cfg ∧ t.moves = s.moves ∧
    t.readData = s.readData ∧ t.draws = s.draws ∧ t.resets = s.resets

theorem inputKept_rfl : InputKept s s := ⟨rfl, rfl, rfl, rfl, rfl, rfl, rfl, rfl, rfl⟩

theorem inputKept_raise (r : Raise) (s : State) : InputKept s (raise r s) := by
  rcases raise_cases r s with ⟨k, h⟩ | ⟨k, h, -⟩ <;> rw [h] <;> exact inputKept_rfl

theorem inputKept_works (h : Works s t) : InputKept s t :=
  ⟨h.inbuf, h.inLen, h.ctrl, h.fsel, h.cfg, h.moves, h.readData, h.draws, h.resets⟩

theorem inputKept_courses (h : Courses s t) : InputKept s t := by
  rcases h with hworks | ⟨r, u, hworks, rfl⟩ | ⟨m, rfl⟩
  · exact inputKept_works hworks
  · obtain ⟨h1, h2, h3, h4, h5, h6, h7, h8, h9⟩ := inputKept_raise r u
    obtain ⟨k1, k2, k3, k4, k5, k6, k7, k8, k9⟩ := inputKept_works hworks
    exact ⟨h1.trans k1, h2.trans k2, h3.trans k3, h4.trans k4, h5.trans k5, h6.trans k6, h7.trans k7, h8.trans k8,
      h9.trans k9⟩
  · exact inputKept_rfl

/-- Settles O53: no course writes them, and no command does. -/
theorem engineLeavesInputAlone : Obligations.EngineLeavesInputAlone := by
  unfold Obligations.EngineLeavesInputAlone
  intro i s t h
  refine exec_induction (P := InputKept) h inputKept_courses (fun q _ => inputKept_courses (s := withPending q s)) (fun hi => ?_)
    fun hi => ?_
  · rcases exec_command_cases h hi with rfl | ⟨-, rfl | ⟨-, rfl⟩ | ⟨-, rfl⟩⟩ <;> exact inputKept_rfl
  · rcases exec_commit_cases (hi ▸ h) with rfl | rfl <;> exact inputKept_rfl

/-! ### The pending state (R190) -/

theorem pend_raise (r : Raise) (s : State) : (raise r s).pend = s.pend := by
  rcases raise_cases r s with ⟨k, h⟩ | ⟨k, h, -⟩ <;> rw [h] <;> rfl

theorem pend_courses (h : Courses s t) : t.pend = s.pend := by
  rcases h with hworks | ⟨r, u, hworks, rfl⟩ | ⟨m, rfl⟩
  · exact hworks.pend
  · exact (pend_raise r u).trans hworks.pend
  · rfl

/-- Settles O33: no course writes it, nor do the commands but DECODE. -/
theorem pendingChangesOnlyThere : Obligations.PendingChangesOnlyThere := by
  unfold Obligations.PendingChangesOnlyThere
  intro i s t h hgce hdecode hcommit
  refine exec_induction (P := fun s t => t.pend = s.pend) h pend_courses (fun _ hi => absurd hi hgce) (fun hi => ?_)
    fun hi => absurd hi hcommit
  rcases exec_command_cases h hi with rfl | ⟨-, rfl | ⟨hi, -⟩ | ⟨-, rfl⟩⟩
  · rfl
  · rfl
  · exact absurd hi hdecode
  · rfl

/-! ### Anomalies under ABORT (R408) -/

/-- W_ANOM and the image's anomaly are as before, or cleared. -/
def NoNewAnomaly (s t : State) : Prop :=
  (t.status.wAnom = true → s.status.wAnom = true) ∧ (t.img.anom = .none ∨ t.img.anom = s.img.anom)

theorem noNewAnomaly_rfl : NoNewAnomaly s s := ⟨id, .inr rfl⟩

theorem noNewAnomaly_works (h : Works s t) : NoNewAnomaly s t :=
  ⟨fun hanom => by rw [h.status] at hanom; exact hanom, h.anom.symm⟩

/-- Under ABORT every raise is a fatal error. -/
theorem raise_of_abort (r : Raise) (h : s.ctrl.policy = .abort) : ∃ k, raise r s = fatal k s := by
  rcases raise_cases r s with hk | ⟨k, -, hne⟩
  · exact hk
  · exact absurd h hne

theorem noNewAnomaly_courses (habort : s.ctrl.policy = .abort) (h : Courses s t) : NoNewAnomaly s t := by
  rcases h with hworks | ⟨r, u, hworks, rfl⟩ | ⟨m, rfl⟩
  · exact noNewAnomaly_works hworks
  · obtain ⟨k, hk⟩ := raise_of_abort r (s := u) (by rw [hworks.ctrl]; exact habort)
    have hkept : NoNewAnomaly s u := noNewAnomaly_works hworks
    rw [hk]
    exact hkept
  · exact noNewAnomaly_rfl

/-- Settles O24: a rule that works on records none, and its raise is fatal. -/
theorem abortRecordsNoAnomaly : Obligations.AbortRecordsNoAnomaly := by
  unfold Obligations.AbortRecordsNoAnomaly
  intro i s t habort h
  refine exec_induction (P := NoNewAnomaly) h (noNewAnomaly_courses habort)
    (fun q _ => noNewAnomaly_courses (s := withPending q s) habort) (fun hi => ?_) fun hi => ?_
  · rcases exec_command_cases h hi with rfl | ⟨-, rfl | ⟨-, rfl⟩ | ⟨-, rfl⟩⟩
    · exact noNewAnomaly_rfl
    all_goals exact ⟨nofun, .inr rfl⟩
  · rcases exec_commit_cases (hi ▸ h) with rfl | rfl <;> exact noNewAnomaly_rfl

/-! ### Where a command ends (R402) -/

/-- The command is over, and an error is where POS stands. -/
def EndedAtPos (t : State) : Prop :=
  t.status.busy = false ∧ t.status.done = true ∧ (t.status.err ≠ .none → t.errPos = t.pos)

theorem endImage_st_ne_idle (k : ErrKind) (s : State) : (endImage k s).st ≠ .idle := by
  rw [endImage_st]
  split <;> decide

/-- A course that comes to IDLE is a fatal error or a completion. -/
theorem endedAtPos_courses (hst : s.st ≠ .idle) (h : Courses s t) (hidle : t.st = .idle) : EndedAtPos t := by
  rcases h with hworks | ⟨r, u, -, rfl⟩ | ⟨m, rfl⟩
  · exact absurd (hworks.st hidle) hst
  · rcases raise_cases r u with ⟨k, hk⟩ | ⟨k, hk, -⟩ <;> rw [hk] at hidle ⊢
    · exact ⟨rfl, rfl, fun _ => rfl⟩
    · exact absurd hidle (endImage_st_ne_idle k u)
  · exact ⟨rfl, rfl, fun herr => absurd rfl herr⟩

/-- Settles O25: beside such a course only an illegal command comes to IDLE. -/
theorem errorPositionIsPos : Obligations.ErrorPositionIsPos := by
  unfold Obligations.ErrorPositionIsPos
  intro i s t hst hillegal h
  refine exec_induction (P := fun _ t => t.st = .idle → EndedAtPos t) h (endedAtPos_courses hst)
    (fun q _ => endedAtPos_courses (s := withPending q s) hst) (fun hi hidle => ?_) fun hi hidle => ?_
  · rcases exec_command_cases h hi with rfl | ⟨-, rfl | ⟨-, rfl⟩ | ⟨⟨op, hop⟩, -⟩⟩
    · exact absurd hidle hst
    · cases hidle
    · cases hidle
    · exact absurd hop (hillegal op)
  · rcases exec_commit_cases (hi ▸ h) with rfl | rfl <;> cases hidle

end Sys2Proof.Proofs
end

section
/-!
PROOFS. The interlace schedule as the order of a frame's rows (spec/46_pixel_output.md R297), and the pixel that no frame
reserves (log entry 11).
-/
namespace Sys2Proof.Proofs
open Sys2Proof Sys2Proof.Machine Sys2Proof.Laws

variable {h k r : Nat}

/-! ### The rows, each once -/

/-- The rows of each pass by their last binary digits (R295). -/
theorem mem_passRows :
    (r ∈ passRows h 0 ↔ r < h ∧ r % 8 = 0) ∧ (r ∈ passRows h 1 ↔ r < h ∧ r % 8 = 4) ∧
      (r ∈ passRows h 2 ↔ r < h ∧ r % 4 = 2) ∧ (r ∈ passRows h 3 ↔ r < h ∧ r % 2 = 1) := by
  refine ⟨?_, ?_, ?_, ?_⟩ <;>
    simp only [passRows, Config.interlaceStart, Config.interlaceStride, List.mem_filter, List.mem_range,
      decide_eq_true_eq, List.getD_cons_zero, List.getD_cons_succ] <;>
    omega

theorem nodup_passRows (h p : Nat) : (passRows h p).Nodup :=
  List.nodup_range.filter _

/-- No row is in two passes. -/
theorem nodup_displayRows (h : Nat) : (displayRows h).Nodup := by
  have hmem (r : Nat) := mem_passRows (h := h) (r := r)
  simp only [displayRows, List.nodup_append, nodup_passRows, true_and, List.mem_append, hmem]
  refine ⟨⟨?_, ?_⟩, ?_⟩ <;> rintro a ha b hb rfl <;> omega

/-- The four passes together are the rows of the frame, each once. -/
theorem displayRows_perm (h : Nat) : (displayRows h).Perm (List.range h) := by
  refine (List.perm_ext_iff_of_nodup (nodup_displayRows h) List.nodup_range).2 fun r => ?_
  obtain ⟨h0, h1, h2, h3⟩ := mem_passRows (h := h) (r := r)
  simp only [displayRows, List.mem_append, h0, h1, h2, h3, List.mem_range]
  omega

/-! ### The order of the rows -/

theorem getElem?_map_range {f : Nat → Nat} {n j : Nat} (hj : j < n) : ((List.range n).map f)[j]? = some (f j) := by
  rw [List.getElem?_map, List.getElem?_range hj, Option.map_some]

/-- The k-th row of the frame in the order of the passes, by the pass it falls in. -/
theorem displayRows_getElem? (hk : k < h) : (displayRows h)[k]? = some (scheduledRow h k).2 := by
  simp only [displayRows, passRows_zero, passRows_one, passRows_two, passRows_three, List.getElem?_append,
    List.length_append, List.length_map, List.length_range, scheduledRow]
  rcases Nat.lt_or_ge k ((h + 7) / 8) with h0 | h0
  · rw [if_pos (by omega), if_pos (by omega), if_pos h0, if_pos h0, getElem?_map_range h0]
  rcases Nat.lt_or_ge k ((h + 7) / 8 + (h + 3) / 8) with h1 | h1
  · rw [if_pos (by omega), if_pos h1, if_neg (by omega), if_neg (by omega), if_pos h1, getElem?_map_range (by omega)]
  rcases Nat.lt_or_ge k ((h + 7) / 8 + (h + 3) / 8 + (h + 1) / 4) with h2 | h2
  · rw [if_pos h2, if_neg (by omega), if_neg (by omega), if_neg (by omega), if_pos h2, getElem?_map_range (by omega)]
  · rw [if_neg (by omega), if_neg (by omega), if_neg (by omega), if_neg (by omega), getElem?_map_range (by omega)]

/-- ROW of the k-th row is a 32-bit register's value (R40). -/
theorem interlacedPlace_row_toNat (h0 : 0 < h) (h16 : h < 65536) (hk : k < h) :
    (interlacedPlace h k).2.toNat = (scheduledRow h k).2 := by
  rw [interlacedPlace_eq h0 h16 k hk.le]
  exact ofNat32_toNat (by have := scheduledRow_lt hk; omega)

/-- After its last row a frame stands behind pass 3. -/
theorem scheduledRow_self (h : Nat) : scheduledRow h h = (3, 1 + 2 * (h / 2)) := by
  rw [scheduledRow, if_neg (by omega), if_neg (by omega), if_neg (by omega)]
  congr 3
  omega

/-- Settles O49: the order is `scheduledRow`'s, which PASS and ROW follow. -/
theorem interlaceSchedule : Obligations.InterlaceSchedule := by
  unfold Obligations.InterlaceSchedule
  intro h h0 h16
  refine ⟨fun k hk => ?_, displayRows_perm h, ?_, ?_⟩
  · rw [displayRows_getElem? hk, interlacedPlace_row_toNat h0 h16 hk]
  · rw [interlacedPlace_eq h0 h16 h le_rfl, scheduledRow_self]
    rfl
  · rw [interlacedPlace_eq h0 h16 h le_rfl, scheduledRow_self]
    have hrow : (BitVec.ofNat 32 (1 + 2 * (h / 2))).toNat = 1 + 2 * (h / 2) := ofNat32_toNat (by omega)
    exact (show h ≤ 1 + 2 * (h / 2) by omega).trans hrow.ge

/-! ### Outside OUTBUF -/

/-- Settles O48: the address is PIXELADDR's, which EMIT tests (log entry 11). -/
theorem emitOutsideOutbufStops : Obligations.EmitOutsideOutbufStops := by
  unfold Obligations.EmitOutsideOutbufStops
  exact fun s h => if_pos h

end Sys2Proof.Proofs
end

section
/-!
PROOFS. What keeps each part of the invariant of a run (spec/10_state.md, spec/20_memory.md, spec/44_bit_unpacker.md to
spec/46_pixel_output.md): what a part looks at, and the operations after which it still holds.
-/
namespace Sys2Proof.Proofs
open Sys2Proof Sys2Proof.Machine Sys2Proof.Laws

variable {s t u : State} {i : Instr}

/-! ### What each part looks at -/

/-- The cells written since reset, of every table and memory. -/
def cellsView (s : State) : Memory × Memory × Cells (BitVec 12) × Cells Byte × Cells Byte × Cells Rgb × Cells Rgb ×
    Cells FrameRecord :=
  (s.inbuf, s.outbuf, s.prefixTab, s.suffixTab, s.stack, s.gct, s.lct, s.ft)

theorem canonicalCells_congr (h : CanonicalCells s) (e : cellsView t = cellsView s) : CanonicalCells t := by
  simp only [cellsView, Prod.mk.injEq] at e
  obtain ⟨hin, hout, hprefix, hsuffix, hstack, hgct, hlct, hft⟩ := e
  exact ⟨hin ▸ h.inbuf, hout ▸ h.outbuf, hprefix ▸ h.prefixTab, hsuffix ▸ h.suffixTab, hstack ▸ h.stack, hgct ▸ h.gct,
    hlct ▸ h.lct, hft ▸ h.ft⟩

/-- What the reservation of the current frame rests on. -/
def frameView (s : State) : BitVec 32 × Config × BitVec 32 × Cells FrameRecord × Nat × BitVec 32 × BitVec 32 ×
    BitVec 16 × BitVec 16 × BitVec 32 :=
  (s.frameCount, s.cfg, s.outUsed, s.ft, s.resets, s.img.base, s.img.total, s.img.w, s.img.h, s.place.pix)

theorem frameReserved_congr (h : FrameReserved s) (e : frameView t = frameView s) : FrameReserved t := by
  simp only [frameView, Prod.mk.injEq] at e
  obtain ⟨hcount, hcfg, hused, hft, hresets, hbase, htotal, hw, hh, hpix⟩ := e
  have hbytes := usedBytes_congr hcfg hused hcount hft hresets
  constructor
  · rw [hcount, hcfg]; exact h.recordLeft
  · rw [hbase, hused]; exact h.baseIsUsed
  · rw [htotal, hw, hh]; exact h.totalIsArea
  · rw [hbytes, htotal, hcfg]; exact h.bytesFit
  · rw [hpix, htotal]; exact h.pixFits

/-- What the placement rests on. -/
def placeView (s : State) : Place × BitVec 16 × BitVec 16 × Bool := (s.place, s.img.w, s.img.h, s.img.il)

theorem placeSound_congr (h : PlaceSound s) (e : placeView t = placeView s) : PlaceSound t := by
  simp only [placeView, Prod.mk.injEq] at e
  obtain ⟨hplace, hw, hh, hil⟩ := e
  constructor <;> simp only [hplace, hw, hh, hil]
  · exact h.column
  · exact h.sequentialRow
  · exact h.interlacedRow

/-- What the decoder's soundness rests on, the sub-block's registers left out. -/
def dictionaryView (s : State) : Lzw × Cells (BitVec 12) × Cells Byte × Cells Byte × Nat :=
  ({ s.lzw with count := 0, termSeen := false }, s.prefixTab, s.suffixTab, s.stack, s.resets)

theorem dictionarySound_congr (h : DictionarySound s) (e : dictionaryView t = dictionaryView s) : DictionarySound t := by
  simp only [dictionaryView, Prod.mk.injEq, Lzw.mk.injEq, true_and] at e
  obtain ⟨⟨hsize, hclear, heoi, havail, hcode, hmask, hvalid, hold, hfirst, hdatum, hbits, hsp⟩, hprefix, hsuffix, hstack,
    hresets⟩ := e
  constructor <;>
    simp only [hsize, hclear, heoi, havail, hcode, hmask, hvalid, hold, hfirst, hdatum, hbits, hsp,
      prefixOf_congr hprefix hresets, suffixOf_congr hsuffix hresets, stackAt_congr hstack hresets]
  · exact h.dataSize
  · exact h.clear
  · exact h.eoi
  · exact h.codeSize
  · exact h.codeMask
  · exact h.availLow
  · exact h.availHigh
  · exact h.fresh
  · exact h.literals
  · exact h.entries
  · exact h.oldCode
  · exact h.first
  · exact h.stackDepth
  · exact h.stackIndices
  · exact h.datum
  · exact h.bits

/-! ### The host registers (R24 to R27, R36, R147) -/

/-- The bounds among them, which do not look at whether the engine is busy. -/
theorem hostRegsSound_of_same (h : HostRegsSound s) (hcfg : t.cfg = s.cfg) (hlen : t.inLen = s.inLen)
    (hused : t.outUsed = s.outUsed) (hcount : t.frameCount = s.frameCount)
    (hbusy : t.status.busy = true ↔ t.st ≠ .idle) (hdone : t.status.busy = true → t.status.done = false) :
    HostRegsSound t := by
  constructor
  · rw [hcfg]; exact h.cfgOk
  · rw [hcfg, hlen]; exact h.inLenFits
  · rw [hcfg, hused]; exact h.outUsedFits
  · rw [hcfg, hcount]; exact h.frameCountFits
  · exact hbusy
  · exact hdone

theorem hostRegsSound_works (h : HostRegsSound s) (hst : s.st ≠ .idle) (hw : Works s t) : HostRegsSound t := by
  have hbusy : s.status.busy = true := h.busyIffStep.2 hst
  refine hostRegsSound_of_same h hw.cfg hw.inLen hw.outUsed hw.frameCount ?_ ?_ <;> rw [hw.status]
  · exact ⟨fun _ => mt hw.st hst, fun _ => hbusy⟩
  · exact h.busyNotDone

theorem hostRegsSound_raise (h : HostRegsSound s) (hst : s.st ≠ .idle) (r : Raise) : HostRegsSound (raise r s) := by
  rcases raise_cases r s with ⟨k, hk⟩ | ⟨k, hk, -⟩ <;> rw [hk]
  · exact hostRegsSound_of_same h rfl rfl rfl rfl ⟨nofun, fun hst => absurd rfl hst⟩ nofun
  · exact hostRegsSound_of_same h rfl rfl rfl rfl
      ⟨fun _ => endImage_st_ne_idle k s, fun _ => h.busyIffStep.2 hst⟩ h.busyNotDone

theorem hostRegsSound_courses (h : HostRegsSound s) (hst : s.st ≠ .idle) (hc : Courses s t) : HostRegsSound t := by
  rcases hc with hw | ⟨r, u, hw, rfl⟩ | ⟨m, rfl⟩
  · exact hostRegsSound_works h hst hw
  · exact hostRegsSound_raise (hostRegsSound_works h hst hw) (mt hw.st hst) r
  · exact hostRegsSound_of_same h rfl rfl rfl rfl ⟨nofun, fun hst => absurd rfl hst⟩ nofun

theorem hostRegsSound_command (h : HostRegsSound s) (hi : i.isCmd = true) (he : exec i s = .next t) :
    HostRegsSound t := by
  rcases exec_command_cases he hi with rfl | ⟨-, rfl | ⟨-, rfl⟩ | ⟨-, rfl⟩⟩
  · exact h
  · exact hostRegsSound_of_same h rfl rfl rfl rfl ⟨fun _ => nofun, fun _ => rfl⟩ fun _ => rfl
  · exact ⟨h.cfgOk, h.inLenFits, Nat.zero_le _, Nat.zero_le _, ⟨fun _ => nofun, fun _ => rfl⟩, fun _ => rfl⟩
  · exact hostRegsSound_of_same h rfl rfl rfl rfl ⟨nofun, fun hst => absurd rfl hst⟩ nofun

theorem recorded_outUsed_toNat (s : State) :
    (recorded s).outUsed.toNat = (s.outUsed.toNat + 4 * s.img.total.toNat) % 2 ^ 32 := by
  simp [recorded, BitVec.toNat_add, BitVec.toNat_mul]

theorem recorded_frameCount_toNat (hcfg : s.cfg.ok) (hf : FrameReserved s) :
    (recorded s).frameCount.toNat = s.frameCount.toNat + 1 := by
  have hmax := hcfg.2.2.2
  have hrecord := hf.recordLeft
  show (s.frameCount + 1).toNat = _
  rw [BitVec.toNat_add, show (1 : BitVec 32).toNat = 1 from rfl, Nat.mod_eq_of_lt (by omega)]

/-- The frame that a commit records has its record and its bytes (R300). -/
theorem hostRegsSound_recorded (h : HostRegsSound s) (hf : FrameReserved s) (hst : s.st ≠ .idle) :
    HostRegsSound (recorded s) := by
  have hused := outUsed_le_usedBytes s
  have hfits := hf.bytesFit
  constructor
  · exact h.cfgOk
  · exact h.inLenFits
  · show (recorded s).outUsed.toNat ≤ s.cfg.outCap
    rw [recorded_outUsed_toNat]
    exact (Nat.mod_le _ _).trans (by omega)
  · rw [recorded_frameCount_toNat h.cfgOk hf]
    exact hf.recordLeft
  · exact ⟨fun _ => nofun, fun _ => h.busyIffStep.2 hst⟩
  · exact h.busyNotDone

theorem hostRegsSound_exec (h : HostRegsSound s) (hst : s.st ≠ .idle) (hf : i = .commit → FrameReserved s)
    (he : exec i s = .next t) : HostRegsSound t := by
  refine exec_induction (P := fun _ t => HostRegsSound t) he (hostRegsSound_courses h hst) (fun q _ hq => ?_)
    (fun hi => hostRegsSound_command h hi he) fun hi => ?_
  · have hpend : HostRegsSound (withPending q s) :=
      hostRegsSound_of_same h rfl rfl rfl rfl h.busyIffStep h.busyNotDone
    exact hostRegsSound_courses hpend hst hq
  · rcases exec_commit_cases (hi ▸ he) with rfl | rfl
    · exact hostRegsSound_recorded h (hf hi) hst
    · exact hostRegsSound_of_same h rfl rfl rfl rfl ⟨fun _ => nofun, fun _ => h.busyIffStep.2 hst⟩ h.busyNotDone

end Sys2Proof.Proofs
end

section
/-!
PROOFS. What every step of the engine in a run has: the next state meets the invariant, the committed frames' bytes of
OUTBUF are as before, and there is less left to do (spec/10_state.md section 3, spec/20_memory.md section 5,
spec/40_host_commands.md R149). One lemma per way that a rule can end, then one per step.
-/
namespace Sys2Proof.Proofs
open Sys2Proof Sys2Proof.Machine Sys2Proof.Laws

variable {s t u : State} {i : Instr} {k : ErrKind}

/-! ### What is left to do (R149) -/

/-- How far a state of the engine is from IDLE while no byte is read. -/
def stageRank : EngineState → Nat
  | .idle => 0
  | .finish => 1
  | .tag => 2
  | .commit => 3
  | .drain => 4
  | .lzw => 5
  | .ext | .img | .hdr | .ident => 6

/-- What is left to do: the bytes of the stream, then the stages, then the bits of the accumulator, then the stack. -/
def work (s : State) : Nat :=
  (((s.inLen.toNat - s.pos.toNat) * 8 + stageRank s.st) * 32 + s.lzw.bits.toNat) * 8192 + s.lzw.sp.toNat

theorem stageRank_le (e : EngineState) : stageRank e ≤ 6 := by
  cases e <;> decide

theorem work_lt_of_read (hlen : t.inLen = s.inLen) (hleft : s.pos.toNat < s.inLen.toNat)
    (hpos : s.pos.toNat < t.pos.toNat) : work t < work s := by
  have hrank := stageRank_le t.st
  have hbits := t.lzw.bits.isLt
  have hsp := t.lzw.sp.isLt
  unfold work
  rw [hlen]
  omega

theorem work_lt_of_stage (hlen : t.inLen = s.inLen) (hpos : s.pos.toNat ≤ t.pos.toNat)
    (hrank : stageRank t.st < stageRank s.st) : work t < work s := by
  have hbits := t.lzw.bits.isLt
  have hsp := t.lzw.sp.isLt
  unfold work
  rw [hlen]
  omega

theorem work_lt_of_bits (hlen : t.inLen = s.inLen) (hpos : t.pos = s.pos) (hst : t.st = s.st)
    (hbits : t.lzw.bits.toNat < s.lzw.bits.toNat) : work t < work s := by
  have hsp := t.lzw.sp.isLt
  unfold work
  rw [hlen, hpos, hst]
  omega

theorem work_lt_of_pop (hlen : t.inLen = s.inLen) (hpos : t.pos = s.pos) (hst : t.st = s.st)
    (hbits : t.lzw.bits = s.lzw.bits) (hsp : t.lzw.sp.toNat < s.lzw.sp.toNat) : work t < work s := by
  unfold work
  rw [hlen, hpos, hst, hbits]
  omega

/-! ### How a step ends -/

/-- What a step of the engine from s leaves in t. The host registers have a lemma of their own
(`hostRegsSound_exec`). -/
structure RunStep (s t : State) : Prop where
  inv : HostRegsSound t → Inv t
  committed : ∀ a < s.usedBytes, t.outByte a = s.outByte a
  progress : t.st = .idle ∨ work t < work s

/-- What a rule begun in s has reached in u, wherever it goes from there. -/
structure Reached (s u : State) : Prop where
  cells : CanonicalCells u
  committed : ∀ a < s.usedBytes, u.outByte a = s.outByte a
  inLen : u.inLen = s.inLen
  posLow : s.pos.toNat ≤ u.pos.toNat
  posFits : u.pos.toNat ≤ u.inLen.toNat

theorem reached_self (h : CanonicalCells s) (hpos : s.pos.toNat ≤ s.inLen.toNat) : Reached s s :=
  ⟨h, fun _ _ => rfl, rfl, le_rfl, hpos⟩

theorem reached_of_pos (h : CanonicalCells s) (hcells : cellsView t = cellsView s) (hresets : t.resets = s.resets)
    (hlen : t.inLen = s.inLen) (hlow : s.pos.toNat ≤ t.pos.toNat) (hfits : t.pos.toNat ≤ s.inLen.toNat) :
    Reached s t := by
  refine ⟨canonicalCells_congr h hcells, fun a _ => outByte_congr ?_ hresets a, hlen, hlow, hlen ▸ hfits⟩
  exact congrArg (·.2.1) hcells

/-- In IDLE the invariant is one of the cells and of the host registers. -/
theorem inv_of_idle (hst : t.st = .idle) (hc : CanonicalCells t) (hh : HostRegsSound t) : Inv t := by
  refine ⟨hc, hh, ⟨fun hne => absurd hst hne, fun h => ?_, fun h => ?_, fun h => ?_⟩, fun h => ?_, fun h => ?_,
    fun h => ?_⟩ <;> rw [hst] at h
  · cases h
  · rcases h with h | h <;> cases h
  all_goals cases h

/-- The command is over. -/
theorem runStep_idle (hst : t.st = .idle) (hc : CanonicalCells t)
    (hout : ∀ a < s.usedBytes, t.outByte a = s.outByte a) : RunStep s t :=
  ⟨inv_of_idle hst hc, hout, .inl hst⟩

theorem runStep_fatal (h : Reached s u) (k : ErrKind) : RunStep s (fatal k u) :=
  runStep_idle rfl (canonicalCells_congr h.cells rfl) h.committed

/-- The states of the engine between images, past the header. -/
def betweenImages : EngineState → Bool
  | .tag | .ext | .img | .finish => true
  | _ => false

theorem inImage_of_betweenImages {e : EngineState} (h : betweenImages e = true) : inImage e = false := by
  cases e <;> simp_all [betweenImages, inImage]

/-- The engine is between images. -/
theorem runStep_between (h : Reached s t) (hst : betweenImages t.st = true) (hwork : work t < work s) : RunStep s t where
  inv hh := by
    refine ⟨h.cells, hh, ⟨fun _ _ => h.posFits, fun e => ?_, fun e => ?_, fun e => ?_⟩, fun e => ?_, fun e => ?_,
      fun e => ?_⟩
    · rw [e] at hst; cases hst
    · rcases e with e | e <;> rw [e] at hst <;> cases hst
    · rw [e] at hst; cases hst
    · rw [inImage_of_betweenImages hst] at e; cases e
    · rw [e] at hst; cases hst
    · rw [e] at hst; cases hst
  committed := h.committed
  progress := .inr hwork

/-- The image's code stream is over, and what is left of it is drained. -/
theorem runStep_drain (h : Reached s t) (hst : t.st = .drain) (hf : FrameReserved t)
    (hsub : t.lzw.termSeen = false → t.pos.toNat + t.lzw.count.toNat ≤ t.inLen.toNat)
    (hrank : stageRank .drain < stageRank s.st) : RunStep s t where
  inv hh := by
    refine ⟨h.cells, hh, ⟨fun _ _ => h.posFits, fun e => ?_, fun _ => hsub, fun e => ?_⟩, fun _ => hf, fun e => ?_,
      fun e => ?_⟩ <;> rw [hst] at e <;> cases e
  committed := h.committed
  progress := .inr (work_lt_of_stage h.inLen h.posLow (by rw [hst]; exact hrank))

/-- The image's stream is over. -/
theorem runStep_commit (h : Reached s t) (hst : t.st = .commit) (hf : FrameReserved t)
    (hrank : stageRank .commit < stageRank s.st) : RunStep s t where
  inv hh := by
    refine ⟨h.cells, hh, ⟨fun _ _ => h.posFits, fun e => ?_, fun e => ?_, fun e => ?_⟩, fun _ => hf, fun e => ?_,
      fun e => ?_⟩ <;> rw [hst] at e
    · cases e
    · rcases e with e | e <;> cases e
    all_goals cases e
  committed := h.committed
  progress := .inr (work_lt_of_stage h.inLen h.posLow (by rw [hst]; exact hrank))

/-- A truncation in an image leaves POS at IN_LEN and nothing to drain (R405). -/
theorem runStep_anomaly_truncated (h : Reached s u) (hf : FrameReserved u)
    (hrank : stageRank .commit < stageRank s.st) : RunStep s (anomaly .truncatedStream u) := by
  unfold anomaly
  split_ifs
  · exact runStep_fatal h _
  · have hreached : Reached s (endImage .truncatedStream u) :=
      ⟨canonicalCells_congr h.cells rfl, h.committed, h.inLen, h.posLow.trans h.posFits, le_rfl⟩
    exact runStep_commit hreached rfl (frameReserved_congr hf rfl) hrank

/-- Any other anomaly leaves the rest of the image's sub-blocks to drain (R405). -/
theorem runStep_anomaly (h : Reached s u) (hk : k ≠ .truncatedStream) (hf : FrameReserved u)
    (hsub : u.lzw.termSeen = false → u.pos.toNat + u.lzw.count.toNat ≤ u.inLen.toNat)
    (hrank : stageRank .drain < stageRank s.st) : RunStep s (anomaly k u) := by
  unfold anomaly
  split_ifs
  · exact runStep_fatal h _
  · obtain ⟨hpos, hterm, hst⟩ := endImage_of_ne_truncatedStream (s := u) hk
    have hreached : Reached s (endImage k u) := by
      refine ⟨canonicalCells_congr h.cells rfl, h.committed, h.inLen, ?_, ?_⟩ <;> rw [hpos]
      · exact h.posLow
      · exact h.posFits
    refine runStep_drain hreached hst (frameReserved_congr hf rfl) ?_ hrank
    rw [hpos, hterm]
    exact hsub

/-- The image's code stream goes on. -/
theorem runStep_lzw (h : Reached s t) (hst : t.st = .lzw) (hf : FrameReserved t) (hopen : t.lzw.termSeen = false)
    (hsub : t.pos.toNat + t.lzw.count.toNat ≤ t.inLen.toNat) (hplace : PlaceSound t) (hdict : DictionarySound t)
    (hwork : work t < work s) : RunStep s t where
  inv hh := by
    refine ⟨h.cells, hh, ⟨fun _ _ => h.posFits, fun e => ?_, fun _ _ => hsub, fun _ => hopen⟩, fun _ => hf,
      fun _ => hplace, fun _ => hdict⟩
    rw [hst] at e
    cases e
  committed := h.committed
  progress := .inr hwork

end Sys2Proof.Proofs
end

section
/-!
PROOFS. The engine's steps outside an image in a run: IDENT, HDR, TAG, the extensions, IMG, COMMIT and FINISH.
-/
namespace Sys2Proof.Proofs
open Sys2Proof Sys2Proof.Machine Sys2Proof.Laws

variable {s t u : State} {i : Instr} {k : ErrKind}

/-- The instruction takes a state of a run to one. -/
def Runs (i : Instr) (s : State) : Prop := ∃ t, exec i s = .next t ∧ RunStep s t

/-- A cursor within the stream does not wrap. -/
theorem pos_add_toNat {n : Nat} (h : s.pos.toNat + n ≤ s.inLen.toNat) :
    (s.pos + BitVec.ofNat 32 n).toNat = s.pos.toNat + n := by
  have hadvance := advance_pos_toNat h
  rwa [advance_eq] at hadvance

theorem reached_advance (hc : CanonicalCells s) {n : Nat} (h : s.pos.toNat + n ≤ s.inLen.toNat) :
    Reached s (s.advance n) := by
  have hpos := advance_pos_toNat h
  exact reached_of_pos hc rfl rfl rfl (by omega) (by omega)

/-! ### IDENT and HDR -/

theorem runs_ident (hc : CanonicalCells s) : Runs .ident s :=
  ⟨_, rfl, runStep_idle rfl (canonicalCells_congr hc rfl) fun _ _ => rfl⟩

theorem canonicalCells_withGlobalTable (hc : CanonicalCells s) (n : Nat) : CanonicalCells (withGlobalTable n s) :=
  ⟨hc.inbuf, hc.outbuf, hc.prefixTab, hc.suffixTab, hc.stack, cellsWf_loadTable hc.gct, hc.lct, hc.ft⟩

/-- HDR starts at POS 0 and leaves POS behind what it has read (R162, R164 to R167). -/
theorem runs_hdr (h : Inv s) (hst : s.st = .hdr) : Runs .hdr s := by
  have hc := h.cells
  have hzero : s.pos.toNat = 0 := by rw [h.cursor.headerAtZero hst]; rfl
  by_cases hbad : ¬ goodSignature s ∨ s.inLen.toNat < 13
  · exact ⟨_, exec_hdr_of_badHeader hbad, runStep_fatal (reached_self hc (by omega)) _⟩
  · rw [not_or, not_not, Nat.not_lt] at hbad
    obtain ⟨hsig, hlong⟩ := hbad
    have hexec : exec .hdr s = (screenDescriptor s).result := by
      rw [exec_hdr_of_goodSignature hsig, afterSignature_of_long hlong]
    have hrank : stageRank .tag < stageRank s.st := by rw [hst]; decide
    by_cases hflag : s.inByte 10 &&& 0x80 = 0
    · rw [screenDescriptor_without_table hflag] at hexec
      have hreached : Reached s { s with pos := 13, gctSize := 0, st := .tag } :=
        reached_of_pos hc rfl rfl rfl (hzero.trans_le (Nat.zero_le _)) hlong
      exact ⟨_, hexec, runStep_between hreached rfl (work_lt_of_stage rfl hreached.posLow hrank)⟩
    · rw [screenDescriptor_with_table hflag] at hexec
      rcases Nat.lt_or_ge s.inLen.toNat (13 + 3 * tableEntries (packedSizeField (s.inByte 10))) with hcut | hfits
      · rw [loadGct_of_lt hcut] at hexec
        have hreached : Reached s { s with pos := 13 } :=
          reached_of_pos hc rfl rfl rfl (hzero.trans_le (Nat.zero_le _)) hlong
        exact ⟨_, hexec, runStep_fatal hreached _⟩
      · rw [loadGct_of_le hfits] at hexec
        have hpos := withGlobalTable_pos_toNat hfits
        have hreached : Reached s (withGlobalTable (tableEntries (packedSizeField (s.inByte 10))) s) :=
          ⟨canonicalCells_withGlobalTable hc _, fun _ _ => rfl, rfl, hzero.trans_le (Nat.zero_le _),
            hpos.trans_le hfits⟩
        exact ⟨_, hexec, runStep_between hreached rfl (work_lt_of_stage rfl hreached.posLow hrank)⟩

/-! ### TAG and the extensions -/

/-- A step that has read n bytes and goes on between images. -/
theorem runStep_of_read {n : Nat} (hc : CanonicalCells s) (hn : 0 < n) (hle : s.pos.toNat + n ≤ s.inLen.toNat)
    (hpos : t.pos = s.pos + BitVec.ofNat 32 n) (hcells : cellsView t = cellsView s) (hresets : t.resets = s.resets)
    (hlen : t.inLen = s.inLen) (hst : betweenImages t.st = true) : RunStep s t := by
  have hto : t.pos.toNat = s.pos.toNat + n := by rw [hpos]; exact pos_add_toNat hle
  have hreached : Reached s t := reached_of_pos hc hcells hresets hlen (by omega) (by omega)
  exact runStep_between hreached hst (work_lt_of_read hlen (by omega) (by omega))

/-- The label of an extension is read, or missing (R182). -/
theorem runs_extTag (hc : CanonicalCells s) (h : s.pos.toNat < s.inLen.toNat) : Runs .extTag s := by
  obtain ⟨-, -, hlabel, hlast⟩ := tagRows s
  rcases Nat.lt_or_eq_of_le (Nat.succ_le_of_lt h) with hlt | heq
  · exact ⟨_, hlabel hlt, runStep_of_read (n := 2) hc (by decide) hlt rfl rfl rfl rfl rfl⟩
  · have hreached : Reached s { s with pos := s.inLen } := reached_of_pos hc rfl rfl rfl h.le le_rfl
    exact ⟨_, hlast heq, runStep_fatal hreached _⟩

/-- Every tag consumes its byte; without one TAG goes to FINISH (R180 to R185). -/
theorem runs_tag (h : Inv s) (hst : s.st = .tag) : Runs .tag s := by
  have hc := h.cells
  have hfits : s.pos.toNat ≤ s.inLen.toNat := h.cursor.posFits (by rw [hst]; decide) (by rw [hst]; decide)
  rcases Nat.lt_or_ge s.pos.toNat s.inLen.toNat with hlt | hge
  · rw [Runs, exec_tag_of_lt hlt]
    unfold decodeTag
    split_ifs
    · exact runs_extTag hc hlt
    · exact ⟨_, exec_imageTag_of_lt hlt, runStep_of_read (n := 1) hc (by decide) hlt rfl rfl rfl rfl rfl⟩
    · exact ⟨_, exec_trailer_of_lt hlt, runStep_of_read (n := 1) hc (by decide) hlt rfl rfl rfl rfl rfl⟩
    · exact ⟨_, exec_noise_of_lt _ hlt,
        runStep_of_read (n := 1) hc (by decide) hlt rfl rfl rfl rfl (congrArg betweenImages hst)⟩
  · refine ⟨_, exec_tag_of_le hge, ?_⟩
    have hreached : Reached s { s with st := .finish } := reached_of_pos hc rfl rfl rfl le_rfl hfits
    have hrank : stageRank .finish < stageRank s.st := by rw [hst]; decide
    exact runStep_between hreached rfl (work_lt_of_stage rfl le_rfl hrank)

/-- Sub-blocks that the stream holds end within it, after at least the zero length. -/
theorem holdsSubBlocks_length {a : Nat} {groups : List (List Byte)} (h : s.holdsSubBlocks a groups) :
    0 < (groups.flatMap subBlock ++ [0]).length ∧ a + (groups.flatMap subBlock ++ [0]).length ≤ s.inLen.toNat :=
  ⟨by simp, h.2.1⟩

/-- Where sub-blocks are cut is within the stream. -/
theorem cutsSubBlocks_place {a p : Nat} {groups : List (List Byte)} (h : s.cutsSubBlocks a groups p) :
    a ≤ p ∧ p ≤ s.inLen.toNat := by
  obtain ⟨-, hle, -, hcut⟩ := h
  omega

theorem cut_pos_toNat {p : Nat} (h : p ≤ s.inLen.toNat) : (BitVec.ofNat 32 p).toNat = p :=
  ofNat32_toNat (Nat.lt_of_le_of_lt h s.inLen.isLt)

theorem reached_cut {a p : Nat} {groups : List (List Byte)} (hc : CanonicalCells s)
    (h : s.cutsSubBlocks a groups p) (ha : s.pos.toNat ≤ a) : Reached s { s with pos := BitVec.ofNat 32 p } := by
  obtain ⟨hlow, hhigh⟩ := cutsSubBlocks_place h
  have hpos := cut_pos_toNat hhigh
  exact reached_of_pos hc rfl rfl rfl (by rw [hpos]; omega) (hpos.trans_le hhigh)

/-- Either kind of extension skips its sub-blocks or is cut (R187, R188). -/
theorem runs_extension (h : Inv s) (hst : s.st = .ext) : Runs (decodeLabel s.extLabel) s := by
  have hc := h.cells
  have hfits : s.pos.toNat ≤ s.inLen.toNat := h.cursor.posFits (by rw [hst]; decide) (by rw [hst]; decide)
  unfold decodeLabel
  rcases subBlocksEndOrAreCut s s.pos.toNat hfits with ⟨groups, hholds⟩ | ⟨groups, p, hcuts⟩
  · obtain ⟨hpos, hle⟩ := holdsSubBlocks_length hholds
    split_ifs
    · exact ⟨_, (graphicControlSetsPending s groups).1 hholds, runStep_of_read hc hpos hle rfl rfl rfl rfl rfl⟩
    · exact ⟨_, (otherExtensionSkips s _ groups).1 hholds, runStep_of_read hc hpos hle rfl rfl rfl rfl rfl⟩
  · have hreached := reached_cut hc hcuts le_rfl
    split_ifs
    · refine ⟨_, (graphicControlSetsPending s groups).2 p hcuts, runStep_fatal ?_ _⟩
      exact ⟨canonicalCells_congr hreached.cells rfl, hreached.committed, rfl, hreached.posLow, hreached.posFits⟩
    · exact ⟨_, (otherExtensionSkips s _ groups).2 p hcuts, runStep_fatal hreached _⟩

/-! ### IMG -/

theorem exec_img_of_cut_descriptor (h : s.inLen.toNat < s.pos.toNat + 9) :
    exec .img s = .next (fatal .truncatedStream s) :=
  (imageFatalErrors s).1 h

theorem exec_img_of_cut_table (hdesc : s.pos.toNat + 9 ≤ s.inLen.toNat) (h : s.inLen.toNat < dataSizeAddr s) :
    exec .img s = .next (fatal .truncatedStream (readDescriptor s)) :=
  exec_img_of_ended (by rw [prepareImage_of_le hdesc, localTable_of_lt hdesc h, andThen_ended])

theorem exec_img_of_full (hdesc : s.pos.toNat + 9 ≤ s.inLen.toNat) (h : dataSizeAddr s ≤ s.inLen.toNat)
    (hfull : ¬ imageFits s) : exec .img s = .next (fatal .capacityExceeded (imageRead s)) :=
  exec_img_of_ended (by
    rw [prepareImage_of_le hdesc, localTable_of_le hdesc h, andThen_go, checkCapacity_of_not_fits hfull, andThen_ended])

theorem reached_readDescriptor (hc : CanonicalCells s) (h : s.pos.toNat + 9 ≤ s.inLen.toNat) :
    Reached s (readDescriptor s) := by
  have hpos := readDescriptor_pos_toNat h
  exact reached_of_pos hc rfl rfl rfl (by omega) (by omega)

theorem pos_lt_dataSizeAddr (s : State) : s.pos.toNat < dataSizeAddr s := by
  rw [dataSizeAddr_eq]
  omega

theorem canonicalCells_imageRead (hc : CanonicalCells s) : CanonicalCells (imageRead s) :=
  ⟨hc.inbuf, hc.outbuf, hc.prefixTab, hc.suffixTab, hc.stack, hc.gct, cellsWf_loadTable hc.lct, hc.ft⟩

theorem reached_imageRead (hc : CanonicalCells s) (h : dataSizeAddr s ≤ s.inLen.toNat) : Reached s (imageRead s) := by
  have hpos := imageRead_pos_toNat h
  have hlow := pos_lt_dataSizeAddr s
  exact ⟨canonicalCells_imageRead hc, fun _ _ => rfl, rfl, by omega, hpos.trans_le h⟩

/-- A frame that fits is reserved above the bytes of the frames before it (R26, R82, R215). -/
theorem outByte_setUpFrame_of_lt (hfits : imageFits s) {a : Nat} (ha : a < s.usedBytes) :
    (setUpFrame (imageRead s)).outByte a = s.outByte a := by
  obtain ⟨-, -, -, hout, -⟩ := frameCleared_setUpFrame s
  have hroom := hfits.2
  rw [hout, if_neg]
  rcases usedBytes_cases s with hused | ⟨hused, -, -⟩ <;> omega

theorem reached_setUpFrame (hc : CanonicalCells s) (h : dataSizeAddr s ≤ s.inLen.toNat) (hfits : imageFits s) :
    Reached s (setUpFrame (imageRead s)) := by
  have hread := reached_imageRead hc h
  have hcells := hread.cells
  exact ⟨⟨hcells.inbuf, cellsWf_fillCells hcells.outbuf _ _ _, hcells.prefixTab, hcells.suffixTab, hcells.stack,
    hcells.gct, hcells.lct, hcells.ft⟩, fun a ha => outByte_setUpFrame_of_lt hfits ha, rfl, hread.posLow, hread.posFits⟩

theorem frameReserved_setUpFrame (hfits : imageFits s) : FrameReserved (setUpFrame (imageRead s)) := by
  obtain ⟨-, htotal, -⟩ := frameCleared_setUpFrame s
  obtain ⟨hw, hh, -⟩ := descriptorRead_imageRead s
  have hused : (setUpFrame (imageRead s)).usedBytes = s.usedBytes := usedBytes_congr rfl rfl rfl rfl rfl
  refine ⟨hfits.1, rfl, ?_, ?_, Nat.zero_le _⟩
  · rw [htotal, ← hw, ← hh]; rfl
  · rw [hused, htotal]; exact hfits.2

/-- Placement starts at the first pixel (R216). -/
theorem placeSound_of_start (h : s.place = { pix := 0, x := 0, row := 0, pass := 0 }) : PlaceSound s := by
  constructor <;> simp [h, interlacedPlace]

theorem canonicalCells_streamStarted (hc : CanonicalCells s) (d : Nat) : CanonicalCells (streamStarted d s) := by
  have hseed : CellsWf (initLzw d s).prefixTab ∧ CellsWf (initLzw d s).suffixTab := by
    unfold initLzw
    apply seedDictionary_wf
    · exact hc.prefixTab
    · exact hc.suffixTab
  obtain ⟨hprefix, hsuffix⟩ := hseed
  exact ⟨hc.inbuf, hc.outbuf, hprefix, hsuffix, hc.stack, hc.gct, hc.lct, hc.ft⟩

theorem dictionarySound_streamStarted {d : Nat} (hd : 2 ≤ d ∧ d ≤ 8) (h0 : s.lzw.sp = 0) (h1 : s.lzw.datum = 0)
    (h2 : s.lzw.bits = 0) : DictionarySound (streamStarted d s) := by
  rw [← initLzw_then_lzw]
  exact dictionarySound_congr (dictionarySound_initLzw hd h0 h1 h2) rfl

/-- A frame reserved and the DATA_SIZE byte there, the code stream starts, or its size is an anomaly (R218, R219). -/
theorem runs_img_of_lt (hc : CanonicalCells s) (hst : s.st = .img) (hdesc : s.pos.toNat + 9 ≤ s.inLen.toNat)
    (hlt : dataSizeAddr s < s.inLen.toNat) (hfits : imageFits s) : Runs .img s := by
  have hexec := exec_img_of_lt hdesc hlt hfits
  have hframe := frameReserved_setUpFrame hfits
  have hsetUp := reached_setUpFrame hc hlt.le hfits
  have hpos := advance_setUpFrame_pos_toNat hlt
  have hlow := pos_lt_dataSizeAddr s
  have hreached : Reached s ((setUpFrame (imageRead s)).advance 1) :=
    ⟨canonicalCells_congr hsetUp.cells rfl, hsetUp.committed, rfl, by omega, hpos.trans_le hlt⟩
  rcases Nat.lt_or_ge (s.inByte (dataSizeAddr s)).toNat 2 with hsmall | hmin
  · rw [startStream_of_bad (.inl hsmall)] at hexec
    exact ⟨_, hexec, runStep_anomaly hreached nofun (frameReserved_congr hframe rfl) (fun _ => hpos.trans_le hlt)
      (by rw [hst]; decide)⟩
  rcases Nat.lt_or_ge 8 (s.inByte (dataSizeAddr s)).toNat with hlarge | hmax
  · rw [startStream_of_bad (.inr hlarge)] at hexec
    exact ⟨_, hexec, runStep_anomaly hreached nofun (frameReserved_congr hframe rfl) (fun _ => hpos.trans_le hlt)
      (by rw [hst]; decide)⟩
  · rw [startStream_of_ok ⟨hmin, hmax⟩] at hexec
    refine ⟨_, hexec, runStep_lzw ⟨canonicalCells_streamStarted hreached.cells _, hreached.committed, rfl, hreached.posLow,
      hreached.posFits⟩ rfl (frameReserved_congr hframe rfl) ?_ ?_ (placeSound_of_start rfl)
      (dictionarySound_streamStarted ⟨hmin, hmax⟩ rfl rfl rfl) ?_⟩
    · rw [streamStarted_lzw, initLzw_lzw]; rfl
    · rw [streamStarted_lzw, initLzw_lzw]; exact hpos.trans_le hlt
    · exact work_lt_of_read rfl (by omega) (by rw [streamStarted_pos]; omega)

/-- IMG ends at the first check that fails, or sets the image up (R210). -/
theorem runs_img (h : Inv s) (hst : s.st = .img) : Runs .img s := by
  have hc := h.cells
  have hself := reached_self hc (h.cursor.posFits (by rw [hst]; decide) (by rw [hst]; decide))
  rcases Nat.lt_or_ge s.inLen.toNat (s.pos.toNat + 9) with hcut | hdesc
  · exact ⟨_, exec_img_of_cut_descriptor hcut, runStep_fatal hself _⟩
  rcases Nat.lt_or_ge s.inLen.toNat (dataSizeAddr s) with hcut | hle
  · exact ⟨_, exec_img_of_cut_table hdesc hcut, runStep_fatal (reached_readDescriptor hc hdesc) _⟩
  by_cases hfits : imageFits s
  · rcases Nat.lt_or_eq_of_le hle with hlt | hend
    · exact runs_img_of_lt hc hst hdesc hlt hfits
    · exact ⟨_, exec_img_of_end hdesc hend hfits,
        runStep_anomaly_truncated (reached_setUpFrame hc hle hfits) (frameReserved_setUpFrame hfits)
          (by rw [hst]; decide)⟩
  · exact ⟨_, exec_img_of_full hdesc hle hfits, runStep_fatal (reached_imageRead hc hle) _⟩

/-! ### COMMIT and FINISH -/

theorem runs_commit (h : Inv s) (hst : s.st = .commit) : Runs .commit s := by
  have hc := h.cells
  have hfits : s.pos.toNat ≤ s.inLen.toNat := h.cursor.posFits (by rw [hst]; decide) (by rw [hst]; decide)
  have hrank : stageRank .tag < stageRank s.st := by rw [hst]; decide
  by_cases hrecord : s.img.anom = .none ∨ s.ctrl.policy ≠ .discard
  · have hreached : Reached s (recorded s) :=
      ⟨⟨hc.inbuf, hc.outbuf, hc.prefixTab, hc.suffixTab, hc.stack, hc.gct, hc.lct, cellsWf_writeCell hc.ft _ _⟩,
        fun _ _ => rfl, rfl, le_rfl, hfits⟩
    exact ⟨_, exec_commit_of_recorded hrecord, runStep_between hreached rfl (work_lt_of_stage rfl le_rfl hrank)⟩
  · rw [not_or, not_not] at hrecord
    have hreached : Reached s { s with pend := ⟨false, 0⟩, st := .tag } :=
      reached_of_pos hc rfl rfl rfl le_rfl hfits
    exact ⟨_, exec_commit_of_discarded hrecord.1 hrecord.2,
      runStep_between hreached rfl (work_lt_of_stage rfl le_rfl hrank)⟩

theorem runs_finish (hc : CanonicalCells s) : Runs .finish s := by
  have hidle {t : State} (hst : t.st = .idle) (hcells : cellsView t = cellsView s) (hresets : t.resets = s.resets) :
      RunStep s t :=
    runStep_idle hst (canonicalCells_congr hc hcells) fun a _ => outByte_congr (congrArg (·.2.1) hcells) hresets a
  by_cases hframe : s.frameCount = 0
  · exact ⟨_, exec_finish_of_no_frame hframe, hidle rfl rfl rfl⟩
  · exact ⟨_, exec_finish_of_frame hframe, hidle rfl rfl rfl⟩

end Sys2Proof.Proofs
end

section
/-!
PROOFS. The engine's steps in an image in a run: the five steps of LZW, and DRAIN (spec/44_bit_unpacker.md to
spec/46_pixel_output.md).
-/
namespace Sys2Proof.Proofs
open Sys2Proof Sys2Proof.Machine Sys2Proof.Laws

variable {s t u v : State} {k : ErrKind} {c : BitVec 12}

/-! ### What a class does with its code (R260 to R268) -/

/-- The code is done and the code stream goes on: the stack and the dictionary have changed, the rest of the input has
not. -/
structure Decoded (u t : State) : Prop where
  cells : CanonicalCells u → CanonicalCells t
  sound : DictionarySound t
  frame : t = { u with lzw := t.lzw, prefixTab := t.prefixTab, suffixTab := t.suffixTab, stack := t.stack }
  bits : t.lzw.bits = u.lzw.bits
  count : t.lzw.count = u.lzw.count
  termSeen : t.lzw.termSeen = u.lzw.termSeen

/-- What a class leaves in t of the state u in which the code has left the accumulator. -/
def ClassDone (u t : State) : Prop :=
  (∃ k, k ≠ .truncatedStream ∧ t = anomaly k u) ∨ t = { u with st := .drain } ∨ Decoded u t

theorem decoded_clearCode (h : DictionarySound u) : Decoded u (clearCode u) :=
  ⟨fun hc => canonicalCells_congr hc rfl, dictionarySound_clearCode h, rfl, rfl, rfl, rfl⟩

theorem canonicalCells_pushedOne (h : CanonicalCells u) (b : Byte) : CanonicalCells (pushedOne b u) :=
  ⟨h.inbuf, h.outbuf, h.prefixTab, h.suffixTab, cellsWf_writeCell h.stack _ _, h.gct, h.lct, h.ft⟩

/-- The state after a FIRST code on an empty stack (R264). -/
def firstDone (c : BitVec 12) (u : State) : State :=
  { pushedOne (u.suffixOf c.toNat) u with
    lzw := { u.lzw with sp := 1, oldCode := c, oldValid := true, first := BitVec.ofNat 8 c.toNat } }

theorem firstCode_of_empty (hsp : u.lzw.sp = 0) (c : BitVec 12) : firstCode c u = .go () (firstDone c u) := by
  rw [firstCode, push_of_empty hsp, andThen_go]
  rfl

theorem dictionarySound_firstDone (h : DictionarySound u) (hc : c.toNat < u.lzw.clear.toNat) :
    DictionarySound (firstDone c u) := by
  have heoi := h.eoi
  have hlow := h.availLow
  have hfirst : (BitVec.ofNat 8 c.toNat).toNat < u.lzw.clear.toNat := by
    rw [BitVec.toNat_ofNat]
    exact (Nat.mod_le _ _).trans_lt hc
  have hstack : ∀ i < 1, ((pushedOne (u.suffixOf c.toNat) u).stackAt i).toNat < u.lzw.clear.toNat := by
    intro i hi
    rw [Nat.lt_one_iff.1 hi, pushedOne_stackAt_zero, h.literals _ hc]
    exact hc
  have hknown : Known u c.toNat := ⟨by omega, by omega, by omega⟩
  have hdepth : (1 : BitVec 13).toNat ≤ 4091 := by decide
  exact ⟨h.dataSize, h.clear, heoi, h.codeSize, h.codeMask, hlow, h.availHigh, nofun, h.literals, h.entries,
    fun _ => hknown, hfirst, hdepth, hstack, h.datum, h.bits⟩

theorem decoded_firstDone (h : DictionarySound u) (hc : c.toNat < u.lzw.clear.toNat) : Decoded u (firstDone c u) :=
  ⟨fun hu => canonicalCells_congr (canonicalCells_pushedOne hu (u.suffixOf c.toNat)) rfl,
    dictionarySound_firstDone h hc, rfl, rfl, rfl, rfl⟩

/-- A dictionary extended after the string of a known code, on a stack of at most one index (R271 to R273). -/
theorem decoded_extended {x : Nat} (h : DictionarySound u) (hk : Known u x) (hold : u.lzw.oldValid = true)
    (hav : u.lzw.avail.toNat < 4096)
    (hcode : c.toNat ≤ u.lzw.avail.toNat ∧ c.toNat ≠ u.lzw.clear.toNat ∧ c.toNat ≠ u.lzw.eoi.toNat)
    (hv : v = { u with stack := v.stack, lzw := { u.lzw with sp := v.lzw.sp } }) (hone : v.lzw.sp.toNat ≤ 1)
    (hstack : ∀ i < v.lzw.sp.toNat, (v.stackAt i).toNat < u.lzw.clear.toNat)
    (hcells : CanonicalCells u → CanonicalCells v) :
    ∃ t, (unwind x v).andThen (fun _ s => .go () (extendDictionary c s)) = .go () t ∧ Decoded u t := by
  have hclear := h.clear
  have hliterals := literals_bounds h.dataSize
  have hlt := hk.1
  have hroom : v.lzw.sp.toNat + max 1 (x - u.lzw.clear.toNat) ≤ 4091 := by omega
  obtain ⟨t, hgo, hwf, hsound, ht⟩ := dictionarySound_extended h hk hv hroom hstack hold hav hcode
  have hlzw := congrArg State.lzw ht
  refine ⟨t, hgo, fun hu => hwf (hcells hu), hsound, ?_, ?_, ?_, ?_⟩
  · rw [hlzw]; exact ht
  · rw [hlzw]
  · rw [hlzw]
  · rw [hlzw]

theorem dictCode_decoded (h : DictionarySound u) (hsp : u.lzw.sp = 0) (hold : u.lzw.oldValid = true)
    (hav : u.lzw.avail.toNat < 4096) (hk : Known u c.toNat) : ∃ t, dictCode c u = .go () t ∧ Decoded u t :=
  decoded_extended h hk hold hav ⟨hk.1.le, hk.2⟩ rfl (by simp [hsp]) h.stackIndices id

theorem kwkwkCode_decoded (h : DictionarySound u) (hsp : u.lzw.sp = 0) (hold : u.lzw.oldValid = true)
    (hav : u.lzw.avail.toNat < 4096)
    (hcode : c.toNat ≤ u.lzw.avail.toNat ∧ c.toNat ≠ u.lzw.clear.toNat ∧ c.toNat ≠ u.lzw.eoi.toNat) :
    ∃ t, kwkwkCode c u = .go () t ∧ Decoded u t := by
  have hstack : ∀ i < 1, ((pushedOne u.lzw.first u).stackAt i).toNat < u.lzw.clear.toNat := by
    intro i hi
    rw [Nat.lt_one_iff.1 hi, pushedOne_stackAt_zero]
    exact h.first
  rw [kwkwkCode, push_of_empty hsp, andThen_go]
  exact decoded_extended (v := pushedOne u.lzw.first u) h (h.oldCode hold) hold hav hcode rfl le_rfl hstack
    fun hu => canonicalCells_pushedOne hu _

theorem meets_decoded {m : Flow Unit} (h : ∃ t, m = .go () t ∧ Decoded u t) :
    Meets m (fun _ => ClassDone u) (ClassDone u) := by
  obtain ⟨t, rfl, ht⟩ := h
  exact .inr (.inr ht)

theorem classDone_anomaly (hk : k ≠ .truncatedStream) : ClassDone u (anomaly k u) := .inl ⟨k, hk, rfl⟩

/-- R260: each class raises, ends the code data, or is done. -/
theorem classifyCode_done (h : DictionarySound u) (hsp : u.lzw.sp = 0) (c : BitVec 12) :
    Meets (classifyCode c u) (fun _ => ClassDone u) (ClassDone u) := by
  have hav := avail_le h
  unfold classifyCode
  split_ifs with hinvalid heoi hclear hold hfirst hfull hkwkwk
  · exact classDone_anomaly nofun
  · exact .inr (.inl rfl)
  · exact .inr (.inr (decoded_clearCode h))
  · exact meets_decoded ⟨_, firstCode_of_empty hsp c, decoded_firstDone h hfirst⟩
  · exact classDone_anomaly nofun
  · exact classDone_anomaly nofun
  · exact meets_decoded (kwkwkCode_decoded h hsp (Bool.eq_true_of_not_eq_false hold) (by omega)
      ⟨by omega, hclear, heoi⟩)
  · exact meets_decoded (dictCode_decoded h hsp (Bool.eq_true_of_not_eq_false hold) (by omega)
      ⟨by omega, hclear, heoi⟩)

/-! ### A state of a run in LZW -/

/-- What the invariant gives in LZW. -/
structure InLzw (s : State) : Prop where
  st : s.st = .lzw
  cells : CanonicalCells s
  posFits : s.pos.toNat ≤ s.inLen.toNat
  sub : s.pos.toNat + s.lzw.count.toNat ≤ s.inLen.toNat
  streamOpen : s.lzw.termSeen = false
  frame : FrameReserved s
  place : PlaceSound s
  dictionary : DictionarySound s

theorem inLzw_of_inv (h : Inv s) (hst : s.st = .lzw) : InLzw s where
  st := hst
  cells := h.cells
  posFits := h.cursor.posFits (by rw [hst]; decide) (by rw [hst]; decide)
  sub := h.cursor.subBlockPresent (.inl hst) (h.cursor.streamOpen hst)
  streamOpen := h.cursor.streamOpen hst
  frame := h.frame (by rw [hst]; rfl)
  place := h.place hst
  dictionary := h.dictionary hst

theorem stageRank_drain_lt (h : InLzw s) : stageRank .drain < stageRank s.st := by rw [h.st]; decide

theorem stageRank_commit_lt (h : InLzw s) : stageRank .commit < stageRank s.st := by rw [h.st]; decide

/-! ### LZW_COMPLETE (R241) -/

theorem runs_lzwComplete (h : InLzw s) : Runs .lzwComplete s := by
  have hreached : Reached s { s with st := .drain } := reached_of_pos h.cells rfl rfl rfl le_rfl h.posFits
  exact ⟨_, rfl, runStep_drain hreached rfl (frameReserved_congr h.frame rfl) (fun _ => h.sub) (stageRank_drain_lt h)⟩

/-! ### EMIT (R290) -/

/-- With a pixel missing, the next one's bytes are inside OUTBUF and above those of the frames before (R90). -/
theorem pixel_inside (h : InLzw s) (hpix : s.place.pix ≠ s.img.total) :
    s.place.pix.toNat < s.img.total.toNat ∧ s.usedBytes ≤ s.pixelAddr ∧ s.pixelAddr + 4 ≤ s.cfg.outCap := by
  have hlt : s.place.pix.toNat < s.img.total.toNat :=
    lt_of_le_of_ne h.frame.pixFits (mt BitVec.eq_of_toNat_eq hpix)
  obtain ⟨-, -, hinside⟩ := place_inside h.place h.frame.totalIsArea hlt
  have hbytes := h.frame.bytesFit
  have haddr : s.pixelAddr = s.outUsed.toNat + 4 * (s.place.row.toNat * s.img.w.toNat + s.place.x.toNat) := by
    rw [State.pixelAddr, h.frame.baseIsUsed]
  refine ⟨hlt, ?_⟩
  rcases usedBytes_cases s with hused | ⟨hused, -, -⟩ <;> omega

theorem emitted_sp_toNat (hsp : s.lzw.sp ≠ 0) : (emitted s).lzw.sp.toNat = s.lzw.sp.toNat - 1 := by
  have hpos : 1 ≤ s.lzw.sp.toNat := Nat.pos_of_ne_zero fun h => hsp (BitVec.eq_of_toNat_eq h)
  exact BitVec.toNat_sub_of_le hpos

theorem dictionarySound_emitted (h : DictionarySound s) (hsp : s.lzw.sp ≠ 0) : DictionarySound (emitted s) := by
  have hpop := emitted_sp_toNat hsp
  have hdepth := h.stackDepth
  refine ⟨h.dataSize, h.clear, h.eoi, h.codeSize, h.codeMask, h.availLow, h.availHigh, h.fresh, h.literals, h.entries,
    h.oldCode, h.first, by omega, fun i hi => h.stackIndices i ?_, h.datum, h.bits⟩
  omega

theorem emitted_outByte_of_lt {a : Nat} (h : a < s.pixelAddr) : (emitted s).outByte a = s.outByte a := by
  rw [emitted_outByte, if_neg (by omega), if_neg (by omega), if_neg (by omega), if_neg (by omega)]

theorem frameReserved_emitted (h : FrameReserved s) (hlt : s.place.pix.toNat < s.img.total.toNat) :
    FrameReserved (emitted s) := by
  have hused : (emitted s).usedBytes = s.usedBytes := usedBytes_congr rfl rfl rfl rfl rfl
  refine ⟨h.recordLeft, h.baseIsUsed, h.totalIsArea, ?_, ?_⟩
  · rw [hused]; exact h.bytesFit
  · rw [emitted_pix_toNat hlt]; exact hlt

theorem runs_emit (h : InLzw s) (hpix : s.place.pix ≠ s.img.total) (hsp : s.lzw.sp ≠ 0) : Runs .emit s := by
  obtain ⟨hlt, hlow, hhigh⟩ := pixel_inside h hpix
  have hsome : 0 < s.lzw.sp.toNat := Nat.pos_of_ne_zero fun he => hsp (BitVec.eq_of_toNat_eq he)
  have hc := h.cells
  have hreached : Reached s (emitted s) :=
    ⟨⟨hc.inbuf, memory_wf_writeBytes hc.outbuf _ _ _, hc.prefixTab, hc.suffixTab, hc.stack, hc.gct, hc.lct, hc.ft⟩,
      fun a ha => emitted_outByte_of_lt (ha.trans_le hlow), rfl, le_rfl, h.posFits⟩
  have hpop := emitted_sp_toNat hsp
  exact ⟨_, exec_emit_of_le hhigh hsome,
    runStep_lzw hreached h.st (frameReserved_emitted h.frame hlt) h.streamOpen h.sub
      (placeSound_advance h.place h.frame.totalIsArea hlt rfl rfl) (dictionarySound_emitted h.dictionary hsp)
      (work_lt_of_pop rfl rfl rfl rfl (by omega))⟩

/-! ### FETCH_LEN and FETCH_BYTE (R242, R243) -/

theorem runs_fetchLen (h : InLzw s) : Runs .fetchLen s := by
  obtain ⟨hend, hread⟩ := fetchLenReadsSubBlock s
  rcases Nat.lt_or_ge s.pos.toNat s.inLen.toNat with hlt | hge
  · have hreached := reached_advance h.cells (n := 1) hlt
    have hpos := advance_pos_toNat (n := 1) hlt
    have hnext : s.pos + 1 = (s.advance 1).pos := by rw [advance_eq]; rfl
    obtain ⟨hzero, hthere, hcut⟩ := hread hlt
    rw [hnext] at hzero hthere hcut
    by_cases hlen : s.inByte s.pos.toNat = 0
    · have hdone : Reached s
          { s with pos := (s.advance 1).pos, lzw := { s.lzw with termSeen := true }, st := .drain } :=
        reached_of_pos h.cells rfl rfl rfl hreached.posLow hreached.posFits
      exact ⟨_, hzero hlen, runStep_drain hdone rfl (frameReserved_congr h.frame rfl) nofun (stageRank_drain_lt h)⟩
    rcases Nat.lt_or_ge s.inLen.toNat (s.pos.toNat + 1 + (s.inByte s.pos.toNat).toNat) with hshort | hfits
    · have hat : Reached s { s with pos := (s.advance 1).pos } :=
        reached_of_pos h.cells rfl rfl rfl hreached.posLow hreached.posFits
      exact ⟨_, hcut hlen hshort,
        runStep_anomaly_truncated hat (frameReserved_congr h.frame rfl) (stageRank_commit_lt h)⟩
    · have hcounted : Reached s
          { s with pos := (s.advance 1).pos, lzw := { s.lzw with count := s.inByte s.pos.toNat } } :=
        reached_of_pos h.cells rfl rfl rfl hreached.posLow hreached.posFits
      exact ⟨_, hthere hlen hfits,
        runStep_lzw hcounted h.st (frameReserved_congr h.frame rfl) h.streamOpen (hpos ▸ hfits)
          (placeSound_congr h.place rfl) (dictionarySound_congr h.dictionary rfl)
          (work_lt_of_read rfl hlt (by rw [hpos]; omega))⟩
  · exact ⟨_, hend hge,
      runStep_anomaly_truncated (reached_self h.cells h.posFits) h.frame (stageRank_commit_lt h)⟩

/-- With fewer bits than a code has, a byte more is at most 19 bits (R245). -/
theorem dictionarySound_takeByte (h : DictionarySound s) (hshort : s.lzw.bits.toNat < s.lzw.codeSize.toNat) (b : Byte) :
    DictionarySound (takeByte b s) := by
  have hsize := h.codeSize
  have hbits := takeByte_bits_toNat (s := s) (by omega) b
  refine ⟨h.dataSize, h.clear, h.eoi, h.codeSize, h.codeMask, h.availLow, h.availHigh, h.fresh, h.literals, h.entries,
    h.oldCode, h.first, h.stackDepth, h.stackIndices, ?_, by omega⟩
  rw [takeByte_datum_toNat (by omega) h.datum, hbits]
  exact add_byte_lt h.datum b

theorem runs_fetchByte (h : InLzw s) (hshort : s.lzw.bits.toNat < s.lzw.codeSize.toNat) (hcount : s.lzw.count ≠ 0) :
    Runs .fetchByte s := by
  have hsome : 0 < s.lzw.count.toNat := Nat.pos_of_ne_zero fun he => hcount (BitVec.eq_of_toNat_eq he)
  have hsub := h.sub
  have hlt : s.pos.toNat < s.inLen.toNat := by omega
  have hreached := reached_advance h.cells (n := 1) hlt
  have hpos := advance_pos_toNat (n := 1) hlt
  have hleft := takeByte_count_toNat (s.advance 1) (s.inByte s.pos.toNat)
  have hsound : DictionarySound (s.advance 1) := dictionarySound_congr h.dictionary rfl
  rw [advance_lzw] at hleft
  refine ⟨_, exec_fetchByte_of_lt hlt,
    runStep_lzw (t := takeByte (s.inByte s.pos.toNat) (s.advance 1))
      ⟨canonicalCells_congr h.cells rfl, fun _ _ => rfl, rfl, hreached.posLow, hreached.posFits⟩ h.st
      (frameReserved_congr h.frame rfl) h.streamOpen ?_ (placeSound_congr h.place rfl)
      (dictionarySound_takeByte hsound hshort _) (work_lt_of_read rfl hlt ?_)⟩
  · rw [hleft]
    show (s.advance 1).pos.toNat + _ ≤ s.inLen.toNat
    omega
  · show s.pos.toNat < (s.advance 1).pos.toNat
    omega

/-! ### DECODE (R244) -/

theorem reached_dropCode (h : InLzw s) : Reached s (dropCode s) :=
  reached_of_pos h.cells rfl rfl rfl le_rfl h.posFits

/-- A code's bits are gone, so the step leaves less to do. -/
theorem runStep_decoded (h : InLzw s) (hbits : s.lzw.codeSize.toNat ≤ s.lzw.bits.toNat) (hd : Decoded (dropCode s) t) :
    RunStep s t := by
  obtain ⟨hcells, hsound, hframe, hleft, hcount, hopen⟩ := hd
  obtain ⟨_, _, -, -, hdrop⟩ := dropCode_spec hbits
  have hsize := h.dictionary.codeSize
  have hpos : t.pos = s.pos := (congrArg State.pos hframe :)
  have hlen : t.inLen = s.inLen := (congrArg State.inLen hframe :)
  have hst : t.st = s.st := (congrArg State.st hframe :)
  have hbytes (a : Nat) : t.outByte a = s.outByte a :=
    outByte_congr (congrArg State.outbuf hframe) (congrArg State.resets hframe) a
  have hreached : Reached s t :=
    ⟨hcells (canonicalCells_congr h.cells rfl), fun a _ => hbytes a, hlen, by rw [hpos], by rw [hpos, hlen]; exact h.posFits⟩
  have hfewer : t.lzw.bits.toNat < s.lzw.bits.toNat := by
    rw [hleft]
    show (BitVec.ofNat 5 _).toNat < _
    rw [BitVec.toNat_ofNat]
    exact (Nat.mod_le _ _).trans_lt (by omega)
  refine runStep_lzw hreached (hst.trans h.st) (frameReserved_congr h.frame (congrArg frameView hframe :))
    (hopen.trans h.streamOpen) ?_ (placeSound_congr h.place (congrArg placeView hframe :)) hsound
    (work_lt_of_bits hlen hpos hst hfewer)
  rw [hpos, hlen, hcount]
  exact h.sub

theorem runs_decodeCode (h : InLzw s) (hsp : s.lzw.sp = 0) (hbits : s.lzw.codeSize.toNat ≤ s.lzw.bits.toNat) :
    Runs .decodeCode s := by
  have hframe : FrameReserved (dropCode s) := frameReserved_congr h.frame rfl
  obtain ⟨t, ht, hdone⟩ :=
    result_of_meets (classifyCode_done (dictionarySound_dropCode h.dictionary hbits) hsp s.topCode)
  refine ⟨t, ht, ?_⟩
  rcases hdone with ⟨k, hk, rfl⟩ | rfl | hd
  · exact runStep_anomaly (reached_dropCode h) hk hframe (fun _ => h.sub) (stageRank_drain_lt h)
  · have hreached : Reached s { dropCode s with st := .drain } := reached_of_pos h.cells rfl rfl rfl le_rfl h.posFits
    exact runStep_drain hreached rfl (frameReserved_congr h.frame rfl) (fun _ => h.sub) (stageRank_drain_lt h)
  · exact runStep_decoded h hbits hd

/-! ### DRAIN (R298, R299) -/

theorem runs_drain (h : Inv s) (hst : s.st = .drain) : Runs .drain s := by
  have hc := h.cells
  have hfits : s.pos.toNat ≤ s.inLen.toNat := h.cursor.posFits (by rw [hst]; decide) (by rw [hst]; decide)
  have hframe := h.frame (by rw [hst]; rfl)
  have hrank : stageRank .commit < stageRank s.st := by rw [hst]; decide
  cases hopen : s.lzw.termSeen with
  | true =>
    have hreached : Reached s { s with st := .commit } := reached_of_pos hc rfl rfl rfl le_rfl hfits
    exact ⟨_, exec_drain_of_terminated hopen, runStep_commit hreached rfl (frameReserved_congr hframe rfl) hrank⟩
  | false =>
    have hsub := h.cursor.subBlockPresent (.inr hst) hopen
    have hskip : s.pos + s.lzw.count.zeroExtend 32 = s.pos + BitVec.ofNat 32 s.lzw.count.toNat := by
      rw [BitVec.ofNat_toNat]
    rcases subBlocksEndOrAreCut s _ hsub with ⟨groups, hholds⟩ | ⟨groups, p, hcuts⟩
    · obtain ⟨-, hle⟩ := holdsSubBlocks_length hholds
      have hexec := exec_drain_of_holds hopen hholds
      rw [hskip, BitVec.add_assoc, ← BitVec.ofNat_add] at hexec
      have hpos := pos_add_toNat (s := s) (by rwa [Nat.add_assoc] at hle)
      refine ⟨_, hexec, runStep_commit (reached_of_pos hc rfl rfl rfl ?_ ?_) rfl (frameReserved_congr hframe rfl) hrank⟩
      · exact (Nat.le_add_right _ _).trans hpos.ge
      · exact hpos.trans_le (by rwa [Nat.add_assoc] at hle)
    · obtain ⟨hlow, hhigh⟩ := cutsSubBlocks_place hcuts
      have hpos := cut_pos_toNat (s := s) hhigh
      have hreached : Reached s { s with pos := BitVec.ofNat 32 p, lzw := { s.lzw with count := 0 } } :=
        reached_of_pos hc rfl rfl rfl (by rw [hpos]; omega) (hpos.trans_le hhigh)
      exact ⟨_, exec_drain_of_cuts hopen hcuts,
        runStep_anomaly_truncated hreached (frameReserved_congr hframe rfl) hrank⟩

/-! ### The selected step -/

/-- In LZW the step is the first of the five whose condition holds (R240). -/
theorem runs_lzw (h : InLzw s) : ∃ i, engineOp s = some i ∧ Runs i s := by
  by_cases hpix : s.place.pix = s.img.total
  · exact ⟨_, engineOp_of_image_done h.st hpix, runs_lzwComplete h⟩
  by_cases hsp : s.lzw.sp = 0
  · refine ⟨_, engineOp_of_stack_empty h.st hpix hsp, ?_⟩
    split_ifs with hshort hcount
    · exact runs_fetchLen h
    · exact runs_fetchByte h hshort hcount
    · exact runs_decodeCode h hsp (Nat.not_lt.1 hshort)
  · exact ⟨_, engineOp_of_stack h.st hpix hsp, runs_emit h hpix hsp⟩

/-- In every state but IDLE the engine has a step, and it takes a state of a run to one. -/
theorem runs_engineOp (h : Inv s) (hne : s.st ≠ .idle) : ∃ i, engineOp s = some i ∧ Runs i s := by
  obtain ⟨-, hident, hhdr, htag, hext, himg, hdrain, hcommit, hfinish⟩ := engineOp_of_st (s := s)
  cases hst : s.st with
  | idle => exact absurd hst hne
  | ident => exact ⟨_, hident hst, runs_ident h.cells⟩
  | hdr => exact ⟨_, hhdr hst, runs_hdr h hst⟩
  | tag => exact ⟨_, htag hst, runs_tag h hst⟩
  | ext => exact ⟨_, hext hst, runs_extension h hst⟩
  | img => exact ⟨_, himg hst, runs_img h hst⟩
  | lzw => exact runs_lzw (inLzw_of_inv h hst)
  | drain => exact ⟨_, hdrain hst, runs_drain h hst⟩
  | commit => exact ⟨_, hcommit hst, runs_commit h hst⟩
  | finish => exact ⟨_, hfinish hst, runs_finish h.cells⟩

end Sys2Proof.Proofs
end

section
/-!
PROOFS. Whole runs (spec/10_state.md sections 3 and 7, spec/20_memory.md sections 5 and 6, spec/40_host_commands.md
section 3): every step, the engine's or the host's, keeps the invariant, the committed frames stay and stay packed, and
every command ends.
-/
namespace Sys2Proof.Proofs
open Sys2Proof Sys2Proof.Machine Sys2Proof.Laws

variable {s t u : State} {i : Instr} {ms : List HostMove}

/-! ### The engine's step (R90) -/

/-- The COMMIT step is only that of COMMIT, where the image's frame is reserved. -/
theorem frameReserved_of_engineOp_commit (h : Inv s) (hi : engineOp s = some .commit) : FrameReserved s := by
  have hdecode : decode (.engine s.view) [] = .ok .commit := by
    rw [engineOp] at hi
    cases hd : decode (.engine s.view) [] <;> simp_all [accepted]
  have hfits := fits_selectStep hdecode
  simp only [Instr.fits, Instr.wf, Instr.fitsFormat, Instr.fitsEngine, Bool.true_and, decide_eq_true_eq] at hfits
  exact h.frame (by rw [hfits]; rfl)

/-- What the engine's step is in a state of a run. -/
structure EngineStep (i : Instr) (s t : State) : Prop where
  exec_eq : exec i s = .next t
  inv : Inv t
  committed : ∀ a < s.usedBytes, t.outByte a = s.outByte a
  progress : t.st = .idle ∨ work t < work s

/-- Out of IDLE the engine has a step, and it goes on to a state of a run. -/
theorem engineStep_of_ne_idle (h : Inv s) (hne : s.st ≠ .idle) :
    ∃ i t, engineStep s = .next t ∧ (i = .commit → FrameReserved s) ∧ EngineStep i s t := by
  obtain ⟨i, hi, t, ht, hrun⟩ := runs_engineOp h hne
  have hcommit : i = .commit → FrameReserved s := by
    rintro rfl
    exact frameReserved_of_engineOp_commit h hi
  exact ⟨i, t, (engineStep_of_engineOp hi).trans ht, hcommit, ht, hrun.inv (hostRegsSound_exec h.host hne hcommit ht),
    hrun.committed, hrun.progress⟩

theorem inv_engineStep (h : Inv s) : ∃ t, engineStep s = .next t ∧ Inv t := by
  by_cases hst : s.st = .idle
  · exact ⟨s, engineStep_of_idle hst, h⟩
  · obtain ⟨_, t, ht, -, he⟩ := engineStep_of_ne_idle h hst
    exact ⟨t, ht, he.inv⟩

/-! ### The host's moves -/

theorem isCmd_decodeCmd (v : Word) : (decodeCmd v).isCmd = true := by
  unfold decodeCmd
  split_ifs <;> rfl

/-- A command goes on, whether it starts or is ignored (R140). -/
theorem exec_command_next (hi : i.isCmd = true) (s : State) : ∃ t, exec i s = .next t := by
  have gate (f : State → State) : ∃ t, whenIdle f s = .next t := by
    unfold whenIdle
    split_ifs
    · exact ⟨_, rfl⟩
    · exact ⟨_, rfl⟩
  cases i with
  | cmdNone => exact ⟨s, exec_cmdNone s⟩
  | identify => exact gate _
  | decode => exact gate _
  | illegalCmd op => rw [exec_illegalCmd]; exact gate _
  | _ => cases hi

theorem inv_command (h : Inv s) (hi : i.isCmd = true) (he : exec i s = .next t) : Inv t := by
  have hh := hostRegsSound_command h.host hi he
  rcases exec_command_cases he hi with rfl | ⟨-, rfl | ⟨-, rfl⟩ | ⟨-, rfl⟩⟩
  · exact h
  · exact ⟨canonicalCells_congr h.cells rfl, hh, ⟨fun _ hne => absurd rfl hne, nofun, nofun, nofun⟩, nofun, nofun, nofun⟩
  · exact ⟨canonicalCells_congr h.cells rfl, hh, ⟨fun _ _ => Nat.zero_le _, fun _ => rfl, nofun, nofun⟩, nofun, nofun,
      nofun⟩
  · exact inv_of_idle rfl (canonicalCells_congr h.cells rfl) hh

/-- Not BUSY the engine is in IDLE (R36). -/
theorem st_idle_of_not_busy (h : HostRegsSound s) (hbusy : s.status.busy = false) : s.st = .idle := by
  by_contra hne
  rw [h.busyIffStep.2 hne] at hbusy
  cases hbusy

/-- The invariant does not look at what the host chooses at any time, nor at what is the host's own. -/
theorem inv_hostView (h : Inv s) (ctrl : Ctrl) (fsel readData : Word) (draws : Nat) (ms : List HostMove) :
    Inv { s with ctrl := ctrl, fsel := fsel, readData := readData, draws := draws, moves := ms } where
  cells := canonicalCells_congr h.cells rfl
  host := hostRegsSound_of_same h.host rfl rfl rfl rfl h.host.busyIffStep h.host.busyNotDone
  cursor := ⟨h.cursor.posFits, h.cursor.headerAtZero, h.cursor.subBlockPresent, h.cursor.streamOpen⟩
  frame hst := frameReserved_congr (h.frame hst) rfl
  place hst := placeSound_congr (h.place hst) rfl
  dictionary hst := dictionarySound_congr (h.dictionary hst) rfl

theorem inv_returned (h : Inv s) (v : Word) : Inv (s.returned v) :=
  inv_hostView h s.ctrl s.fsel v (s.draws + 1) s.moves

theorem inv_readReg (h : Inv s) (offset : Nat) (size : AccessSize) : Inv (readReg offset size s) := by
  unfold readReg
  split
  · exact inv_returned h _
  · exact inv_returned h _

/-- IN_LEN stays within INBUF, and it and DONE are written in IDLE only (R24, R25). -/
theorem inv_writeReg (h : Inv s) (offset : Nat) (size : AccessSize) (v : Word) : Inv (writeReg offset size v s) := by
  have hh := h.host
  have hidle : s.status.busy = false → s.st = .idle := st_idle_of_not_busy hh
  unfold writeReg
  split
  · split_ifs
    · exact h
    · exact inv_hostView h (.ofWord v) s.fsel s.readData s.draws s.moves
  · split_ifs with hclear
    · exact inv_of_idle (hidle hclear.2) (canonicalCells_congr h.cells rfl)
        (hostRegsSound_of_same hh rfl rfl rfl rfl hh.busyIffStep fun _ => rfl)
    · exact h
  · split_ifs with hbusy
    · exact h
    · refine inv_of_idle (hidle (Bool.eq_false_of_not_eq_true hbusy)) (canonicalCells_congr h.cells rfl)
        ⟨hh.cfgOk, ?_, hh.outUsedFits, hh.frameCountFits, hh.busyIffStep, hh.busyNotDone⟩
      rw [ofNat32_toNat (Nat.lt_of_le_of_lt (Nat.min_le_left _ _) v.isLt)]
      exact Nat.min_le_right _ _
  · exact inv_hostView h s.ctrl v s.readData s.draws s.moves
  · exact h

theorem inv_writeIn (h : Inv s) (a : Nat) (v : Byte) : Inv (writeIn a v s) := by
  have hc := h.cells
  have hh := h.host
  have hidle : s.status.busy = false → s.st = .idle := st_idle_of_not_busy hh
  unfold writeIn
  split_ifs with hignored
  · exact h
  · rw [not_or] at hignored
    exact inv_of_idle (hidle (Bool.eq_false_of_not_eq_true hignored.1))
      ⟨memory_wf_write hc.inbuf a v, hc.outbuf, hc.prefixTab, hc.suffixTab, hc.stack, hc.gct, hc.lct, hc.ft⟩
      (hostRegsSound_of_same hh rfl rfl rfl rfl hh.busyIffStep hh.busyNotDone)

theorem inv_writeOut (h : Inv s) (a : Nat) (v : Byte) : Inv (writeOut a v s) := by
  have hc := h.cells
  have hh := h.host
  have hidle : s.status.busy = false → s.st = .idle := st_idle_of_not_busy hh
  unfold writeOut
  split_ifs with hignored
  · exact h
  · rw [not_or] at hignored
    exact inv_of_idle (hidle (Bool.eq_false_of_not_eq_true hignored.1))
      ⟨hc.inbuf, memory_wf_write hc.outbuf a v, hc.prefixTab, hc.suffixTab, hc.stack, hc.gct, hc.lct, hc.ft⟩
      (hostRegsSound_of_same hh rfl rfl rfl rfl hh.busyIffStep hh.busyNotDone)

/-- Reset leaves nothing written, and the engine in IDLE (R48). -/
theorem inv_resetWith {cfg : Config} (hcfg : cfg.ok) (n : Nat) : Inv (State.resetWith cfg n) :=
  inv_of_idle rfl ⟨.nil, .nil, .nil, .nil, .nil, .nil, .nil, .nil⟩
    ⟨hcfg, Nat.zero_le _, Nat.zero_le _, Nat.zero_le _, ⟨nofun, fun hne => absurd rfl hne⟩, nofun⟩

theorem inv_hostMove (h : Inv s) (m : HostMove) : Inv (hostMove m s) := by
  cases m with
  | writeReg offset size v => exact inv_writeReg h offset size v
  | readReg offset size => exact inv_readReg h offset size
  | writeIn a v => exact inv_writeIn h a v
  | readIn a => exact inv_returned h _
  | writeOut a v => exact inv_writeOut h a v
  | readOut a => exact inv_returned h _
  | resetInput => exact inv_hostView (inv_resetWith h.host.cfgOk (s.resets + 1)) .reset 0 s.readData s.draws s.moves
  | engineTurn => exact h

/-! ### Every step (R90) -/

/-- The state with other moves pending. -/
def withMoves (ms : List HostMove) (s : State) : State := { s with moves := ms }

theorem inv_withMoves (h : Inv s) (ms : List HostMove) : Inv (withMoves ms s) :=
  inv_hostView h s.ctrl s.fsel s.readData s.draws ms

/-- A step is the engine's, a command, or another move of the host. -/
theorem step_cases (s : State) : ∃ ms,
    step s = engineStep (withMoves ms s) ∨ (∃ v, step s = exec (decodeCmd v) (withMoves ms s)) ∨
      ∃ m, step s = .next (hostMove m (withMoves ms s)) := by
  cases hm : s.moves with
  | nil => exact ⟨s.moves, .inl (step_of_no_moves hm)⟩
  | cons m ms =>
    refine ⟨ms, ?_⟩
    by_cases hturn : m = .engineTurn
    · exact .inl (step_of_engineTurn (hturn ▸ hm))
    cases hv : commandWrite m with
    | some v => exact .inr (.inl ⟨v, step_of_command hm hv⟩)
    | none => exact .inr (.inr ⟨m, step_of_hostMove hm hturn hv⟩)

/-- Settles O57: by the lemma of the invariant for each kind of step. -/
theorem stepKeepsInvariant : Obligations.StepKeepsInvariant := by
  unfold Obligations.StepKeepsInvariant
  intro s h
  obtain ⟨ms, hstep | ⟨v, hstep⟩ | ⟨m, hstep⟩⟩ := step_cases s <;> rw [hstep]
  · exact inv_engineStep (inv_withMoves h ms)
  · obtain ⟨t, ht⟩ := exec_command_next (isCmd_decodeCmd v) (withMoves ms s)
    exact ⟨t, ht, inv_command (inv_withMoves h ms) (isCmd_decodeCmd v) ht⟩
  · exact ⟨_, rfl, inv_hostMove (inv_withMoves h ms) m⟩

/-! ### Every command ends (R149) -/

theorem run_succ_of_next {M : Host.Core} {s t : M.State} (h : M.step s = .next t) (n : Nat) :
    M.run (n + 1) s = M.run n t := by
  rw [Host.Core.run, h]

/-- Settles O59: while it has work left the engine does less of it at each step. -/
theorem commandsTerminate : Obligations.CommandsTerminate := by
  unfold Obligations.CommandsTerminate
  intro s h hm
  induction hleft : work s using Nat.strong_induction_on generalizing s with
  | _ left ih =>
    by_cases hst : s.st = .idle
    · exact ⟨0, s, rfl, hst⟩
    obtain ⟨i, t, hnext, -, he⟩ := engineStep_of_ne_idle h hst
    have hstep : Sys2Proof.core.step s = .next t := (step_of_no_moves hm).trans hnext
    have hmoves : t.moves = [] := by
      obtain ⟨-, -, -, -, -, hkept, -⟩ := engineLeavesInputAlone i s t he.exec_eq
      rw [hkept, hm]
    have hafter : ∃ n u, Host.Core.run Sys2Proof.core n t = .next u ∧ u.st = .idle := by
      rcases he.progress with hidle | hless
      · exact ⟨0, t, rfl, hidle⟩
      · exact ih (work t) (hleft ▸ hless) t he.inv hmoves rfl
    obtain ⟨n, u, hrun, hidle⟩ := hafter
    exact ⟨n + 1, u, (run_succ_of_next hstep n).trans hrun, hidle⟩

/-! ### The committed frames -/

/-- What the records of the committed frames are read from. -/
def recordsView (s : State) : Config × BitVec 32 × BitVec 32 × Cells FrameRecord × Nat :=
  (s.cfg, s.frameCount, s.outUsed, s.ft, s.resets)

theorem recordsView_raise (r : Raise) (s : State) : recordsView (raise r s) = recordsView s := by
  rcases raise_cases r s with ⟨k, h⟩ | ⟨k, h, -⟩ <;> rw [h] <;> rfl

theorem recordsView_works (h : Works s t) : recordsView t = recordsView s := by
  simp only [recordsView, h.cfg, h.frameCount, h.outUsed, h.ft, h.resets]

theorem recordsView_courses (h : Courses s t) : recordsView t = recordsView s := by
  rcases h with hworks | ⟨r, u, hworks, rfl⟩ | ⟨m, rfl⟩
  · exact recordsView_works hworks
  · exact (recordsView_raise r u).trans (recordsView_works hworks)
  · rfl

/-- An engine step leaves the records as they are, or records the image's frame. -/
theorem exec_records_cases (h : Inv s) (hne : s.st ≠ .idle) (he : exec i s = .next t) :
    recordsView t = recordsView s ∨ i = .commit ∧ t = recorded s := by
  refine exec_induction (P := fun s' t => recordsView t = recordsView s' ∨ i = .commit ∧ t = recorded s') he
    (fun hc => .inl (recordsView_courses hc)) (fun q _ hq => .inl (recordsView_courses (s := withPending q s) hq)) (fun hi => ?_) fun hi => ?_
  · have hbusy := h.host.busyIffStep.2 hne
    rcases exec_command_cases he hi with rfl | ⟨hidle, -⟩
    · exact .inl rfl
    · rw [hbusy] at hidle
      cases hidle
  · rcases exec_commit_cases (hi ▸ he) with rfl | rfl
    · exact .inr ⟨hi, rfl⟩
    · exact .inl rfl

/-- The frames recorded in s are so in t. -/
def FramesStay (s t : State) : Prop :=
  s.frameCount.toNat ≤ t.frameCount.toNat ∧ ∀ k < s.frameCount.toNat, t.frameAt k = s.frameAt k

theorem framesStay_congr (h : recordsView t = recordsView s) : FramesStay s t := by
  simp only [recordsView, Prod.mk.injEq] at h
  obtain ⟨-, hcount, -, hft, hresets⟩ := h
  exact ⟨by rw [hcount], fun k _ => frameAt_congr hft hresets k⟩

theorem framesStay_recorded (hcfg : s.cfg.ok) (hf : FrameReserved s) : FramesStay s (recorded s) :=
  ⟨by rw [recorded_frameCount_toNat hcfg hf]; omega, fun _ hk => recorded_frameAt_of_ne (Nat.ne_of_lt hk)⟩

/-- Settles O55: the engine's step writes above the committed bytes, and COMMIT above the committed records. -/
theorem committedFramesStay : Obligations.CommittedFramesStay := by
  unfold Obligations.CommittedFramesStay
  intro s t h hm hstep
  rw [step_of_no_moves hm] at hstep
  by_cases hst : s.st = .idle
  · rw [engineStep_of_idle hst] at hstep
    cases hstep
    exact ⟨le_rfl, fun _ _ => rfl, fun _ _ => rfl⟩
  · obtain ⟨i, t', hnext, hcommit, he⟩ := engineStep_of_ne_idle h hst
    rw [hnext] at hstep
    cases hstep
    have hstay : FramesStay s t := by
      rcases exec_records_cases h hst he.exec_eq with hview | ⟨hi, rfl⟩
      · exact framesStay_congr hview
      · exact framesStay_recorded h.host.cfgOk (hcommit hi)
    exact ⟨hstay.1, he.committed, hstay.2⟩

/-! ### The frames are packed (R27, R82) -/

theorem framesPacked_congr (h : FramesPacked s) (e : recordsView t = recordsView s) : FramesPacked t := by
  simp only [recordsView, Prod.mk.injEq] at e
  obtain ⟨hcfg, hcount, hused, hft, hresets⟩ := e
  have hbytes := bytesBefore_congr hft hresets
  constructor
  · intro k hk
    rw [frameAt_congr hft hresets, hbytes]
    exact h.bases k (hcount ▸ hk)
  · rw [hused, hcount, hbytes]; exact h.used
  · rw [hcfg, hcount, hbytes]; exact h.fits

theorem framesPacked_of_no_frame (hcount : s.frameCount = 0) (hused : s.outUsed = 0) : FramesPacked s := by
  constructor <;> simp [hcount, hused]

theorem recorded_bytesBefore_of_le {k : Nat} (h : k ≤ s.frameCount.toNat) :
    (recorded s).bytesBefore k = s.bytesBefore k := by
  induction k with
  | zero => rfl
  | succ k ih =>
    rw [bytesBefore_succ, bytesBefore_succ, ih (by omega), recorded_frameAt_of_ne (by omega)]

/-- The frame's region starts where the committed ones end. -/
theorem framesPacked_recorded (h : FramesPacked s) (hcfg : s.cfg.ok) (hf : FrameReserved s) :
    FramesPacked (recorded s) := by
  have hcount := recorded_frameCount_toNat hcfg hf
  have hframe : (s.frameRecord).bytes = 4 * s.img.total.toNat := by rw [hf.totalIsArea]; rfl
  have hsum : (recorded s).bytesBefore (recorded s).frameCount.toNat =
      s.bytesBefore s.frameCount.toNat + 4 * s.img.total.toNat := by
    rw [hcount, bytesBefore_succ, recorded_bytesBefore_of_le le_rfl, recorded_frameAt_self, hframe]
  have hbytes := usedBytes_of_packed hcfg.2.1 h
  have hfits := hf.bytesFit
  constructor
  · intro k hk
    rw [hcount] at hk
    rw [recorded_bytesBefore_of_le (by omega)]
    rcases Nat.lt_succ_iff_lt_or_eq.1 hk with hlt | rfl
    · rw [recorded_frameAt_of_ne (Nat.ne_of_lt hlt)]
      exact h.bases k hlt
    · rw [recorded_frameAt_self, ← h.used]
      exact congrArg BitVec.toNat hf.baseIsUsed
  · rw [hsum, recorded_outUsed_toNat, h.used, Nat.mod_add_mod]
  · rw [hsum, ← hbytes]
    exact hfits

theorem framesPacked_engineStep (h : Inv s) (hp : FramesPacked s) (hs : engineStep s = .next t) : FramesPacked t := by
  by_cases hst : s.st = .idle
  · rw [engineStep_of_idle hst] at hs
    cases hs
    exact hp
  · obtain ⟨i, t', hnext, hcommit, he⟩ := engineStep_of_ne_idle h hst
    rw [hnext] at hs
    cases hs
    rcases exec_records_cases h hst he.exec_eq with hview | ⟨hi, rfl⟩
    · exact framesPacked_congr hp hview
    · exact framesPacked_recorded hp h.host.cfgOk (hcommit hi)

/-- DECODE starts with no frame (R143). -/
theorem framesPacked_command (hp : FramesPacked s) (hi : i.isCmd = true) (he : exec i s = .next t) :
    FramesPacked t := by
  rcases exec_command_cases he hi with rfl | ⟨-, rfl | ⟨-, rfl⟩ | ⟨-, rfl⟩⟩
  · exact hp
  · exact framesPacked_congr hp rfl
  · exact framesPacked_of_no_frame rfl rfl
  · exact framesPacked_congr hp rfl

theorem recordsView_readReg (offset : Nat) (size : AccessSize) (s : State) :
    recordsView (readReg offset size s) = recordsView s := by
  unfold readReg
  split <;> rfl

theorem recordsView_writeReg (offset : Nat) (size : AccessSize) (v : Word) (s : State) :
    recordsView (writeReg offset size v s) = recordsView s := by
  unfold writeReg
  split
  · split_ifs <;> rfl
  · split_ifs <;> rfl
  · split_ifs <;> rfl
  · rfl
  · rfl

theorem framesPacked_hostMove (hp : FramesPacked s) (m : HostMove) : FramesPacked (hostMove m s) := by
  cases m with
  | writeReg offset size v => exact framesPacked_congr hp (recordsView_writeReg offset size v s)
  | readReg offset size => exact framesPacked_congr hp (recordsView_readReg offset size s)
  | writeIn a v =>
    refine framesPacked_congr hp ?_
    rw [hostMove, writeIn]
    split_ifs <;> rfl
  | readIn a => exact framesPacked_congr hp rfl
  | writeOut a v =>
    refine framesPacked_congr hp ?_
    rw [hostMove, writeOut]
    split_ifs <;> rfl
  | readOut a => exact framesPacked_congr hp rfl
  | resetInput => exact framesPacked_of_no_frame rfl rfl
  | engineTurn => exact hp

theorem framesPacked_step (h : Inv s) (hp : FramesPacked s) (hs : step s = .next t) : FramesPacked t := by
  obtain ⟨ms, hstep | ⟨v, hstep⟩ | ⟨m, hstep⟩⟩ := step_cases s <;> rw [hstep] at hs
  · exact framesPacked_engineStep (inv_withMoves h ms) (framesPacked_congr hp rfl) hs
  · exact framesPacked_command (framesPacked_congr (t := withMoves ms s) hp rfl) (isCmd_decodeCmd v) hs
  · cases hs
    exact framesPacked_hostMove (framesPacked_congr (t := withMoves ms s) hp rfl) m

/-- OUT_USED holds the sum of the frames' bytes but where that is 2^32 (log entry 8). -/
theorem outUsed_of_packed (hcap : s.cfg.outCap ≤ 2 ^ 32) (h : FramesPacked s)
    (hne : s.bytesBefore s.frameCount.toNat ≠ 2 ^ 32) : s.outUsed.toNat = s.bytesBefore s.frameCount.toNat := by
  have hfits := h.fits
  rw [h.used, Nat.mod_eq_of_lt (by omega)]

/-- Below a frame that has bytes are less than 2^32, so its BASE holds their number. -/
theorem base_of_packed (hcap : s.cfg.outCap ≤ 2 ^ 32) (h : FramesPacked s) {k : Nat} (hk : k < s.frameCount.toNat)
    (hbytes : (s.frameAt k).bytes ≠ 0) : (s.frameAt k).base.toNat = s.bytesBefore k := by
  have hfits := h.fits
  have hmono := bytesBefore_mono s (Nat.succ_le_of_lt hk)
  rw [Nat.succ_eq_add_one, bytesBefore_succ] at hmono
  rw [h.bases k hk, Nat.mod_eq_of_lt (by omega)]

/-- Settles O58: by the lemma of the packing for each kind of step, with OUTBUF at most 2^32 bytes. -/
theorem framesStayPacked : Obligations.FramesStayPacked := by
  unfold Obligations.FramesStayPacked
  intro s t h hp hs
  obtain ⟨t', ht', hinv⟩ := stepKeepsInvariant s h
  rw [hs] at ht'
  cases ht'
  have hcap := hinv.host.cfgOk.2.1
  have hpacked := framesPacked_step h hp hs
  exact ⟨hpacked, outUsed_of_packed hcap hpacked, fun _ hk => base_of_packed hcap hpacked hk⟩

/-- Settles O56: reset leaves no frame. -/
theorem resetIsSound : Obligations.ResetIsSound := by
  unfold Obligations.ResetIsSound
  exact ⟨inv_resetWith (by decide) 0, framesPacked_of_no_frame rfl rfl⟩

end Sys2Proof.Proofs
end
